-- ==== Sys2Proof/Word.lean ====
section
/-! DEFINITION. The word types of the machine and the three access widths (spec/00_scope.md R6, R8, R9;
spec/20_memory.md R60, R66). -/

namespace Sys2Proof

/-- The addressable unit is the 8-bit byte (R60). -/
abbrev Byte := BitVec 8

/-- Registers, addresses and instructions are 32 bits wide (R6). -/
abbrev Word := BitVec 32

/-- The index of a general, COP0 or COP2 register: a 5-bit register field names one of 32 (R21, R101). -/
abbrev RegIdx := Fin 32

/-- The width of one bus access: 1, 2 or 4 bytes (R66). -/
inductive Width where
  | byte
  | half
  | word
  deriving DecidableEq, Repr, Inhabited

/-- The number `n` of bytes of an access (R66). -/
def Width.bytes : Width → Nat
  | .byte => 1
  | .half => 2
  | .word => 4

end Sys2Proof
end

