-- ==== Sys2Proof/Syntax.lean ====
section
/-! DEFINITION. The instructions: one constructor per row of spec/opcode_table.json, operands in the order of
spec/30_encoding.md R121. Fields an instruction does not use are not operands (R117). -/

namespace Sys2Proof

/-- A decoded instruction. `imm` is `imm16`, `target` is `target26` (R101). -/
inductive Instr where
  -- spec/40_alu_register.md
  | sll (rd rt : RegIdx) (shamt : BitVec 5)
  | srl (rd rt : RegIdx) (shamt : BitVec 5)
  | sra (rd rt : RegIdx) (shamt : BitVec 5)
  | sllv (rd rt rs : RegIdx)
  | srlv (rd rt rs : RegIdx)
  | srav (rd rt rs : RegIdx)
  | add (rd rs rt : RegIdx)
  | addu (rd rs rt : RegIdx)
  | sub (rd rs rt : RegIdx)
  | subu (rd rs rt : RegIdx)
  | and (rd rs rt : RegIdx)
  | or (rd rs rt : RegIdx)
  | xor (rd rs rt : RegIdx)
  | nor (rd rs rt : RegIdx)
  | slt (rd rs rt : RegIdx)
  | sltu (rd rs rt : RegIdx)
  -- spec/41_alu_immediate.md
  | addi (rt rs : RegIdx) (imm : BitVec 16)
  | addiu (rt rs : RegIdx) (imm : BitVec 16)
  | slti (rt rs : RegIdx) (imm : BitVec 16)
  | sltiu (rt rs : RegIdx) (imm : BitVec 16)
  | andi (rt rs : RegIdx) (imm : BitVec 16)
  | ori (rt rs : RegIdx) (imm : BitVec 16)
  | xori (rt rs : RegIdx) (imm : BitVec 16)
  | lui (rt : RegIdx) (imm : BitVec 16)
  -- spec/42_muldiv.md
  | mult (rs rt : RegIdx)
  | multu (rs rt : RegIdx)
  | div (rs rt : RegIdx)
  | divu (rs rt : RegIdx)
  | mfhi (rd : RegIdx)
  | mthi (rs : RegIdx)
  | mflo (rd : RegIdx)
  | mtlo (rs : RegIdx)
  -- spec/43_branch_jump.md
  | beq (rs rt : RegIdx) (imm : BitVec 16)
  | bne (rs rt : RegIdx) (imm : BitVec 16)
  | blez (rs : RegIdx) (imm : BitVec 16)
  | bgtz (rs : RegIdx) (imm : BitVec 16)
  | bltz (rs : RegIdx) (imm : BitVec 16)
  | bgez (rs : RegIdx) (imm : BitVec 16)
  | bltzal (rs : RegIdx) (imm : BitVec 16)
  | bgezal (rs : RegIdx) (imm : BitVec 16)
  | j (target : BitVec 26)
  | jal (target : BitVec 26)
  | jr (rs : RegIdx)
  | jalr (rd rs : RegIdx)
  -- spec/44_load_store.md
  | lb (rt rs : RegIdx) (imm : BitVec 16)
  | lbu (rt rs : RegIdx) (imm : BitVec 16)
  | lh (rt rs : RegIdx) (imm : BitVec 16)
  | lhu (rt rs : RegIdx) (imm : BitVec 16)
  | lw (rt rs : RegIdx) (imm : BitVec 16)
  | lwl (rt rs : RegIdx) (imm : BitVec 16)
  | lwr (rt rs : RegIdx) (imm : BitVec 16)
  | sb (rt rs : RegIdx) (imm : BitVec 16)
  | sh (rt rs : RegIdx) (imm : BitVec 16)
  | sw (rt rs : RegIdx) (imm : BitVec 16)
  | swl (rt rs : RegIdx) (imm : BitVec 16)
  | swr (rt rs : RegIdx) (imm : BitVec 16)
  -- spec/45_coprocessor_system.md
  | mfc0 (rt rd : RegIdx)
  | mtc0 (rt rd : RegIdx)
  | rfe
  | syscall
  | breakpoint
  | cop1
  | cop3
  | mfc2 (rt rd : RegIdx)
  | cfc2 (rt rd : RegIdx)
  | mtc2 (rt rd : RegIdx)
  | ctc2 (rt rd : RegIdx)
  | cop2 (command : BitVec 25)
  | lwc2 (rt rs : RegIdx) (imm : BitVec 16)
  | swc2 (rt rs : RegIdx) (imm : BitVec 16)
  | reserved (word : Word)
  deriving DecidableEq, Repr

end Sys2Proof
end

