-- ==== Sys2Proof/WellFormed.lean ====
section
/-! DEFINITION. Which terms of `Instr` are instructions. The types of the fields already hold every operand at
the values its encoding admits; the one check left is that the word of `reserved` is a reserved encoding of
spec/30_encoding.md R118. -/

namespace Sys2Proof

/-- The assigned primary opcodes of R113 other than SPECIAL, REGIMM, COP0 and COP2. -/
def plainOpcodes : List Nat :=
  [0x02, 0x03, 0x04, 0x05, 0x06, 0x07] ++
  [0x08, 0x09, 0x0A, 0x0B, 0x0C, 0x0D, 0x0E, 0x0F] ++
  [0x11, 0x13] ++
  [0x20, 0x21, 0x22, 0x23, 0x24, 0x25, 0x26] ++
  [0x28, 0x29, 0x2A, 0x2B, 0x2E] ++ [0x32, 0x3A]

/-- The assigned SPECIAL function codes of R114. -/
def specialFuncts : List Nat :=
  [0x00, 0x02, 0x03, 0x04, 0x06, 0x07, 0x08, 0x09, 0x0C, 0x0D] ++
  [0x10, 0x11, 0x12, 0x13, 0x18, 0x19, 0x1A, 0x1B] ++
  [0x20, 0x21, 0x22, 0x23, 0x24, 0x25, 0x26, 0x27, 0x2A, 0x2B]

/-- R118: the `-` cells of R113 and R114, the REGIMM `rt` values not in R115, the reserved cells of R116. -/
def reservedWord (w : Word) : Bool :=
  let opcode := w.toNat / 2 ^ 26
  let rs := w.toNat / 2 ^ 21 % 32
  let rt := w.toNat / 2 ^ 16 % 32
  let funct := w.toNat % 64
  if opcode = 0x00 then !(specialFuncts.contains funct)
  else if opcode = 0x01 then !([0x00, 0x01, 0x10, 0x11].contains rt)
  else if opcode = 0x10 then !(rs = 0x00 || rs = 0x04 || (16 ≤ rs && funct = 0x10))
  else if opcode = 0x12 then !(rs = 0x00 || rs = 0x02 || rs = 0x04 || rs = 0x06 || 16 ≤ rs)
  else !(plainOpcodes.contains opcode)

/-- A well-formed instruction: a `reserved` term carries a reserved word (R118), every other term is well formed. -/
def Instr.wf : Instr → Bool
  | .reserved w => reservedWord w
  | _ => true

end Sys2Proof
end

