-- ==== Sys2Proof/Decode.lean ====
section
/-! DEFINITION. The decoder (spec/30_encoding.md R100 to R105, R112 to R118, R123), total on words and on bytes;
after it the encoder, written from the same tables, and the opcode table of spec/opcode_table.json as data. -/

namespace Sys2Proof

/-! ## Fields (R101) -/

/-- A field placed in a word with its lowest bit at bit `lo`. -/
def place {n : Nat} (lo : Nat) (v : BitVec n) : Word := v.setWidth 32 <<< lo


/-- `opcode = w[31:26]` (R101). -/
def opcodeOf (w : Word) : BitVec 6 := w.extractLsb' 26 6
/-- `rs = w[25:21]` (R101). -/
def rsOf (w : Word) : RegIdx := (w.extractLsb' 21 5).toFin
/-- `rt = w[20:16]` (R101). -/
def rtOf (w : Word) : RegIdx := (w.extractLsb' 16 5).toFin
/-- `rd = w[15:11]` (R101). -/
def rdOf (w : Word) : RegIdx := (w.extractLsb' 11 5).toFin
/-- `shamt = w[10:6]` (R101). -/
def shamtOf (w : Word) : BitVec 5 := w.extractLsb' 6 5
/-- `funct = w[5:0]` (R101). -/
def functOf (w : Word) : BitVec 6 := w.extractLsb' 0 6
/-- `imm16 = w[15:0]` (R101). -/
def immOf (w : Word) : BitVec 16 := w.extractLsb' 0 16
/-- `target26 = w[25:0]` (R101). -/
def targetOf (w : Word) : BitVec 26 := w.extractLsb' 0 26
/-- The COP2 command `w[24:0]` (R273). -/
def commandOf (w : Word) : BitVec 25 := w.extractLsb' 0 25

/-! ## Decoding a word (R123) -/

/-- `opcode` 0x00 by `funct` (R114). -/
def decodeSpecial (w : Word) : Instr :=
  match functOf w with
  | 0x00#6 => .sll (rdOf w) (rtOf w) (shamtOf w)
  | 0x02#6 => .srl (rdOf w) (rtOf w) (shamtOf w)
  | 0x03#6 => .sra (rdOf w) (rtOf w) (shamtOf w)
  | 0x04#6 => .sllv (rdOf w) (rtOf w) (rsOf w)
  | 0x06#6 => .srlv (rdOf w) (rtOf w) (rsOf w)
  | 0x07#6 => .srav (rdOf w) (rtOf w) (rsOf w)
  | 0x08#6 => .jr (rsOf w)
  | 0x09#6 => .jalr (rdOf w) (rsOf w)
  | 0x0C#6 => .syscall
  | 0x0D#6 => .breakpoint
  | 0x10#6 => .mfhi (rdOf w)
  | 0x11#6 => .mthi (rsOf w)
  | 0x12#6 => .mflo (rdOf w)
  | 0x13#6 => .mtlo (rsOf w)
  | 0x18#6 => .mult (rsOf w) (rtOf w)
  | 0x19#6 => .multu (rsOf w) (rtOf w)
  | 0x1A#6 => .div (rsOf w) (rtOf w)
  | 0x1B#6 => .divu (rsOf w) (rtOf w)
  | 0x20#6 => .add (rdOf w) (rsOf w) (rtOf w)
  | 0x21#6 => .addu (rdOf w) (rsOf w) (rtOf w)
  | 0x22#6 => .sub (rdOf w) (rsOf w) (rtOf w)
  | 0x23#6 => .subu (rdOf w) (rsOf w) (rtOf w)
  | 0x24#6 => .and (rdOf w) (rsOf w) (rtOf w)
  | 0x25#6 => .or (rdOf w) (rsOf w) (rtOf w)
  | 0x26#6 => .xor (rdOf w) (rsOf w) (rtOf w)
  | 0x27#6 => .nor (rdOf w) (rsOf w) (rtOf w)
  | 0x2A#6 => .slt (rdOf w) (rsOf w) (rtOf w)
  | 0x2B#6 => .sltu (rdOf w) (rsOf w) (rtOf w)
  | _ => .reserved w

/-- `opcode` 0x01 by `rt` (R115). -/
def decodeRegimm (w : Word) : Instr :=
  match rtOf w with
  | 0x00 => .bltz (rsOf w) (immOf w)
  | 0x01 => .bgez (rsOf w) (immOf w)
  | 0x10 => .bltzal (rsOf w) (immOf w)
  | 0x11 => .bgezal (rsOf w) (immOf w)
  | _ => .reserved w

/-- `opcode` 0x10 by `rs` and, when `w[25] = 1`, by `funct` (R116). -/
def decodeCop0 (w : Word) : Instr :=
  if rsOf w = 0x00 then .mfc0 (rtOf w) (rdOf w)
  else if rsOf w = 0x04 then .mtc0 (rtOf w) (rdOf w)
  else if w.getLsbD 25 && functOf w == 0x10#6 then .rfe
  else .reserved w

/-- `opcode` 0x12 by `rs` (R116). -/
def decodeCop2 (w : Word) : Instr :=
  if rsOf w = 0x00 then .mfc2 (rtOf w) (rdOf w)
  else if rsOf w = 0x02 then .cfc2 (rtOf w) (rdOf w)
  else if rsOf w = 0x04 then .mtc2 (rtOf w) (rdOf w)
  else if rsOf w = 0x06 then .ctc2 (rtOf w) (rdOf w)
  else if w.getLsbD 25 then .cop2 (commandOf w)
  else .reserved w

/-- `Decode` (R123): total, a pure function of the word (R104, R105). -/
def decodeWord (w : Word) : Instr :=
  match opcodeOf w with
  | 0x00#6 => decodeSpecial w
  | 0x01#6 => decodeRegimm w
  | 0x02#6 => .j (targetOf w)
  | 0x03#6 => .jal (targetOf w)
  | 0x04#6 => .beq (rsOf w) (rtOf w) (immOf w)
  | 0x05#6 => .bne (rsOf w) (rtOf w) (immOf w)
  | 0x06#6 => .blez (rsOf w) (immOf w)
  | 0x07#6 => .bgtz (rsOf w) (immOf w)
  | 0x08#6 => .addi (rtOf w) (rsOf w) (immOf w)
  | 0x09#6 => .addiu (rtOf w) (rsOf w) (immOf w)
  | 0x0A#6 => .slti (rtOf w) (rsOf w) (immOf w)
  | 0x0B#6 => .sltiu (rtOf w) (rsOf w) (immOf w)
  | 0x0C#6 => .andi (rtOf w) (rsOf w) (immOf w)
  | 0x0D#6 => .ori (rtOf w) (rsOf w) (immOf w)
  | 0x0E#6 => .xori (rtOf w) (rsOf w) (immOf w)
  | 0x0F#6 => .lui (rtOf w) (immOf w)
  | 0x10#6 => decodeCop0 w
  | 0x11#6 => .cop1
  | 0x12#6 => decodeCop2 w
  | 0x13#6 => .cop3
  | 0x20#6 => .lb (rtOf w) (rsOf w) (immOf w)
  | 0x21#6 => .lh (rtOf w) (rsOf w) (immOf w)
  | 0x22#6 => .lwl (rtOf w) (rsOf w) (immOf w)
  | 0x23#6 => .lw (rtOf w) (rsOf w) (immOf w)
  | 0x24#6 => .lbu (rtOf w) (rsOf w) (immOf w)
  | 0x25#6 => .lhu (rtOf w) (rsOf w) (immOf w)
  | 0x26#6 => .lwr (rtOf w) (rsOf w) (immOf w)
  | 0x28#6 => .sb (rtOf w) (rsOf w) (immOf w)
  | 0x29#6 => .sh (rtOf w) (rsOf w) (immOf w)
  | 0x2A#6 => .swl (rtOf w) (rsOf w) (immOf w)
  | 0x2B#6 => .sw (rtOf w) (rsOf w) (immOf w)
  | 0x2E#6 => .swr (rtOf w) (rsOf w) (immOf w)
  | 0x32#6 => .lwc2 (rtOf w) (rsOf w) (immOf w)
  | 0x3A#6 => .swc2 (rtOf w) (rsOf w) (immOf w)
  | _ => .reserved w

/-! ## Decoding bytes (R61, R100) -/

/-- Why bytes hold no instruction. Safe: nothing runs. -/
inductive DecodeError where
  /-- Fewer than the four bytes every instruction has (R100). -/
  | tooFewBytes
  deriving DecidableEq, Repr

/-- The word of four bytes, the first at the lowest address and least significant (R61, R62, R100). -/
def wordOfBytes (b0 b1 b2 b3 : Byte) : Word :=
  place 0 b0 ||| place 8 b1 ||| place 16 b2 ||| place 24 b3

/-- The four bytes of a word, the least significant first (R62). -/
def bytesOfWord (w : Word) : List Byte :=
  [w.extractLsb' 0 8, w.extractLsb' 8 8, w.extractLsb' 16 8, w.extractLsb' 24 8]

/-- The instruction at the head of a list of bytes, and the bytes after it. -/
def decodeBytes : List Byte → Except DecodeError (Instr × List Byte)
  | b0 :: b1 :: b2 :: b3 :: rest => .ok (decodeWord (wordOfBytes b0 b1 b2 b3), rest)
  | _ => .error .tooFewBytes

/-- The instruction the decoder reads from a word numbered as spec/opcode_table.json numbers it: `nbits` bits are
given, every bit above them is 0; none when the word is longer than an instruction. -/
def decodeTableWord (nbits w : Nat) : Option Instr :=
  if 32 < nbits then none
  else
    match decodeBytes (bytesOfWord (BitVec.ofNat 32 (w % 2 ^ nbits))) with
    | .ok (i, []) => some i
    | _ => none

/-! ## Encoding (R102, R113 to R116; ignored fields are written as 0, and RFE with its canonical word) -/

/-- The 5 bits of a register field. -/
def regBits (r : RegIdx) : BitVec 5 := BitVec.ofFin r

/-- R-format (R102). -/
def encodeR (op : BitVec 6) (rs rt rd : RegIdx) (shamt : BitVec 5) (funct : BitVec 6) : Word :=
  place 26 op ||| place 21 (regBits rs) ||| place 16 (regBits rt) ||| place 11 (regBits rd) ||| place 6 shamt |||
    place 0 funct

/-- I-format (R102). -/
def encodeI (op : BitVec 6) (rs rt : RegIdx) (imm : BitVec 16) : Word :=
  place 26 op ||| place 21 (regBits rs) ||| place 16 (regBits rt) ||| place 0 imm

/-- J-format (R102). -/
def encodeJ (op : BitVec 6) (target : BitVec 26) : Word :=
  place 26 op ||| place 0 target

/-- The word of an instruction. -/
def encode : Instr → Word
  | .sll rd rt shamt => encodeR 0x00#6 0 rt rd shamt 0x00#6
  | .srl rd rt shamt => encodeR 0x00#6 0 rt rd shamt 0x02#6
  | .sra rd rt shamt => encodeR 0x00#6 0 rt rd shamt 0x03#6
  | .sllv rd rt rs => encodeR 0x00#6 rs rt rd 0 0x04#6
  | .srlv rd rt rs => encodeR 0x00#6 rs rt rd 0 0x06#6
  | .srav rd rt rs => encodeR 0x00#6 rs rt rd 0 0x07#6
  | .jr rs => encodeR 0x00#6 rs 0 0 0 0x08#6
  | .jalr rd rs => encodeR 0x00#6 rs 0 rd 0 0x09#6
  | .syscall => encodeR 0x00#6 0 0 0 0 0x0C#6
  | .breakpoint => encodeR 0x00#6 0 0 0 0 0x0D#6
  | .mfhi rd => encodeR 0x00#6 0 0 rd 0 0x10#6
  | .mthi rs => encodeR 0x00#6 rs 0 0 0 0x11#6
  | .mflo rd => encodeR 0x00#6 0 0 rd 0 0x12#6
  | .mtlo rs => encodeR 0x00#6 rs 0 0 0 0x13#6
  | .mult rs rt => encodeR 0x00#6 rs rt 0 0 0x18#6
  | .multu rs rt => encodeR 0x00#6 rs rt 0 0 0x19#6
  | .div rs rt => encodeR 0x00#6 rs rt 0 0 0x1A#6
  | .divu rs rt => encodeR 0x00#6 rs rt 0 0 0x1B#6
  | .add rd rs rt => encodeR 0x00#6 rs rt rd 0 0x20#6
  | .addu rd rs rt => encodeR 0x00#6 rs rt rd 0 0x21#6
  | .sub rd rs rt => encodeR 0x00#6 rs rt rd 0 0x22#6
  | .subu rd rs rt => encodeR 0x00#6 rs rt rd 0 0x23#6
  | .and rd rs rt => encodeR 0x00#6 rs rt rd 0 0x24#6
  | .or rd rs rt => encodeR 0x00#6 rs rt rd 0 0x25#6
  | .xor rd rs rt => encodeR 0x00#6 rs rt rd 0 0x26#6
  | .nor rd rs rt => encodeR 0x00#6 rs rt rd 0 0x27#6
  | .slt rd rs rt => encodeR 0x00#6 rs rt rd 0 0x2A#6
  | .sltu rd rs rt => encodeR 0x00#6 rs rt rd 0 0x2B#6
  | .bltz rs imm => encodeI 0x01#6 rs 0x00 imm
  | .bgez rs imm => encodeI 0x01#6 rs 0x01 imm
  | .bltzal rs imm => encodeI 0x01#6 rs 0x10 imm
  | .bgezal rs imm => encodeI 0x01#6 rs 0x11 imm
  | .j target => encodeJ 0x02#6 target
  | .jal target => encodeJ 0x03#6 target
  | .beq rs rt imm => encodeI 0x04#6 rs rt imm
  | .bne rs rt imm => encodeI 0x05#6 rs rt imm
  | .blez rs imm => encodeI 0x06#6 rs 0 imm
  | .bgtz rs imm => encodeI 0x07#6 rs 0 imm
  | .addi rt rs imm => encodeI 0x08#6 rs rt imm
  | .addiu rt rs imm => encodeI 0x09#6 rs rt imm
  | .slti rt rs imm => encodeI 0x0A#6 rs rt imm
  | .sltiu rt rs imm => encodeI 0x0B#6 rs rt imm
  | .andi rt rs imm => encodeI 0x0C#6 rs rt imm
  | .ori rt rs imm => encodeI 0x0D#6 rs rt imm
  | .xori rt rs imm => encodeI 0x0E#6 rs rt imm
  | .lui rt imm => encodeI 0x0F#6 0 rt imm
  | .mfc0 rt rd => encodeR 0x10#6 0x00 rt rd 0 0
  | .mtc0 rt rd => encodeR 0x10#6 0x04 rt rd 0 0
  | .rfe => encodeR 0x10#6 0x10 0 0 0 0x10#6
  | .cop1 => encodeJ 0x11#6 0
  | .mfc2 rt rd => encodeR 0x12#6 0x00 rt rd 0 0
  | .cfc2 rt rd => encodeR 0x12#6 0x02 rt rd 0 0
  | .mtc2 rt rd => encodeR 0x12#6 0x04 rt rd 0 0
  | .ctc2 rt rd => encodeR 0x12#6 0x06 rt rd 0 0
  | .cop2 command => encodeJ 0x12#6 (0x2000000#26 ||| command.setWidth 26)
  | .cop3 => encodeJ 0x13#6 0
  | .lb rt rs imm => encodeI 0x20#6 rs rt imm
  | .lh rt rs imm => encodeI 0x21#6 rs rt imm
  | .lwl rt rs imm => encodeI 0x22#6 rs rt imm
  | .lw rt rs imm => encodeI 0x23#6 rs rt imm
  | .lbu rt rs imm => encodeI 0x24#6 rs rt imm
  | .lhu rt rs imm => encodeI 0x25#6 rs rt imm
  | .lwr rt rs imm => encodeI 0x26#6 rs rt imm
  | .sb rt rs imm => encodeI 0x28#6 rs rt imm
  | .sh rt rs imm => encodeI 0x29#6 rs rt imm
  | .swl rt rs imm => encodeI 0x2A#6 rs rt imm
  | .sw rt rs imm => encodeI 0x2B#6 rs rt imm
  | .swr rt rs imm => encodeI 0x2E#6 rs rt imm
  | .lwc2 rt rs imm => encodeI 0x32#6 rs rt imm
  | .swc2 rt rs imm => encodeI 0x3A#6 rs rt imm
  | .reserved w => w

/-! ## The opcode table (spec/opcode_table.json, columns mnemonic, match and mask) -/

/-- One row of the opcode table: the words `w` with `w & mask = pattern`. -/
structure TableRow where
  mnemonic : String
  pattern  : Word
  mask     : Word
  deriving DecidableEq, Repr

/-- Does a row select the word? -/
def TableRow.selects (r : TableRow) (w : Word) : Bool := w &&& r.mask == r.pattern

/-- The rows of the table other than `RESERVED`, which stands for every word no other row selects (R123). -/
def opcodeTable : List TableRow :=
  [ ⟨"SLL", 0x00000000#32, 0xFC00003F#32⟩,
    ⟨"SRL", 0x00000002#32, 0xFC00003F#32⟩,
    ⟨"SRA", 0x00000003#32, 0xFC00003F#32⟩,
    ⟨"SLLV", 0x00000004#32, 0xFC00003F#32⟩,
    ⟨"SRLV", 0x00000006#32, 0xFC00003F#32⟩,
    ⟨"SRAV", 0x00000007#32, 0xFC00003F#32⟩,
    ⟨"JR", 0x00000008#32, 0xFC00003F#32⟩,
    ⟨"JALR", 0x00000009#32, 0xFC00003F#32⟩,
    ⟨"SYSCALL", 0x0000000C#32, 0xFC00003F#32⟩,
    ⟨"BREAK", 0x0000000D#32, 0xFC00003F#32⟩ ] ++
  [ ⟨"MFHI", 0x00000010#32, 0xFC00003F#32⟩,
    ⟨"MTHI", 0x00000011#32, 0xFC00003F#32⟩,
    ⟨"MFLO", 0x00000012#32, 0xFC00003F#32⟩,
    ⟨"MTLO", 0x00000013#32, 0xFC00003F#32⟩,
    ⟨"MULT", 0x00000018#32, 0xFC00003F#32⟩,
    ⟨"MULTU", 0x00000019#32, 0xFC00003F#32⟩,
    ⟨"DIV", 0x0000001A#32, 0xFC00003F#32⟩,
    ⟨"DIVU", 0x0000001B#32, 0xFC00003F#32⟩,
    ⟨"ADD", 0x00000020#32, 0xFC00003F#32⟩,
    ⟨"ADDU", 0x00000021#32, 0xFC00003F#32⟩ ] ++
  [ ⟨"SUB", 0x00000022#32, 0xFC00003F#32⟩,
    ⟨"SUBU", 0x00000023#32, 0xFC00003F#32⟩,
    ⟨"AND", 0x00000024#32, 0xFC00003F#32⟩,
    ⟨"OR", 0x00000025#32, 0xFC00003F#32⟩,
    ⟨"XOR", 0x00000026#32, 0xFC00003F#32⟩,
    ⟨"NOR", 0x00000027#32, 0xFC00003F#32⟩,
    ⟨"SLT", 0x0000002A#32, 0xFC00003F#32⟩,
    ⟨"SLTU", 0x0000002B#32, 0xFC00003F#32⟩,
    ⟨"BLTZ", 0x04000000#32, 0xFC1F0000#32⟩,
    ⟨"BGEZ", 0x04010000#32, 0xFC1F0000#32⟩ ] ++
  [ ⟨"BLTZAL", 0x04100000#32, 0xFC1F0000#32⟩,
    ⟨"BGEZAL", 0x04110000#32, 0xFC1F0000#32⟩,
    ⟨"J", 0x08000000#32, 0xFC000000#32⟩,
    ⟨"JAL", 0x0C000000#32, 0xFC000000#32⟩,
    ⟨"BEQ", 0x10000000#32, 0xFC000000#32⟩,
    ⟨"BNE", 0x14000000#32, 0xFC000000#32⟩,
    ⟨"BLEZ", 0x18000000#32, 0xFC000000#32⟩,
    ⟨"BGTZ", 0x1C000000#32, 0xFC000000#32⟩,
    ⟨"ADDI", 0x20000000#32, 0xFC000000#32⟩,
    ⟨"ADDIU", 0x24000000#32, 0xFC000000#32⟩ ] ++
  [ ⟨"SLTI", 0x28000000#32, 0xFC000000#32⟩,
    ⟨"SLTIU", 0x2C000000#32, 0xFC000000#32⟩,
    ⟨"ANDI", 0x30000000#32, 0xFC000000#32⟩,
    ⟨"ORI", 0x34000000#32, 0xFC000000#32⟩,
    ⟨"XORI", 0x38000000#32, 0xFC000000#32⟩,
    ⟨"LUI", 0x3C000000#32, 0xFC000000#32⟩,
    ⟨"MFC0", 0x40000000#32, 0xFFE00000#32⟩,
    ⟨"MTC0", 0x40800000#32, 0xFFE00000#32⟩,
    ⟨"RFE", 0x42000010#32, 0xFE00003F#32⟩,
    ⟨"COP1", 0x44000000#32, 0xFC000000#32⟩ ] ++
  [ ⟨"MFC2", 0x48000000#32, 0xFFE00000#32⟩,
    ⟨"CFC2", 0x48400000#32, 0xFFE00000#32⟩,
    ⟨"MTC2", 0x48800000#32, 0xFFE00000#32⟩,
    ⟨"CTC2", 0x48C00000#32, 0xFFE00000#32⟩,
    ⟨"COP2", 0x4A000000#32, 0xFE000000#32⟩,
    ⟨"COP3", 0x4C000000#32, 0xFC000000#32⟩,
    ⟨"LB", 0x80000000#32, 0xFC000000#32⟩,
    ⟨"LH", 0x84000000#32, 0xFC000000#32⟩,
    ⟨"LWL", 0x88000000#32, 0xFC000000#32⟩,
    ⟨"LW", 0x8C000000#32, 0xFC000000#32⟩ ] ++
  [ ⟨"LBU", 0x90000000#32, 0xFC000000#32⟩,
    ⟨"LHU", 0x94000000#32, 0xFC000000#32⟩,
    ⟨"LWR", 0x98000000#32, 0xFC000000#32⟩,
    ⟨"SB", 0xA0000000#32, 0xFC000000#32⟩,
    ⟨"SH", 0xA4000000#32, 0xFC000000#32⟩,
    ⟨"SWL", 0xA8000000#32, 0xFC000000#32⟩,
    ⟨"SW", 0xAC000000#32, 0xFC000000#32⟩,
    ⟨"SWR", 0xB8000000#32, 0xFC000000#32⟩,
    ⟨"LWC2", 0xC8000000#32, 0xFC000000#32⟩,
    ⟨"SWC2", 0xE8000000#32, 0xFC000000#32⟩ ]

/-- The row of the opcode table an instruction belongs to, by its mnemonic. -/
def Instr.mnemonic : Instr → String
  | .sll _ _ _ => "SLL"
  | .srl _ _ _ => "SRL"
  | .sra _ _ _ => "SRA"
  | .sllv _ _ _ => "SLLV"
  | .srlv _ _ _ => "SRLV"
  | .srav _ _ _ => "SRAV"
  | .add _ _ _ => "ADD"
  | .addu _ _ _ => "ADDU"
  | .sub _ _ _ => "SUB"
  | .subu _ _ _ => "SUBU"
  | .and _ _ _ => "AND"
  | .or _ _ _ => "OR"
  | .xor _ _ _ => "XOR"
  | .nor _ _ _ => "NOR"
  | .slt _ _ _ => "SLT"
  | .sltu _ _ _ => "SLTU"
  | .addi _ _ _ => "ADDI"
  | .addiu _ _ _ => "ADDIU"
  | .slti _ _ _ => "SLTI"
  | .sltiu _ _ _ => "SLTIU"
  | .andi _ _ _ => "ANDI"
  | .ori _ _ _ => "ORI"
  | .xori _ _ _ => "XORI"
  | .lui _ _ => "LUI"
  | .mult _ _ => "MULT"
  | .multu _ _ => "MULTU"
  | .div _ _ => "DIV"
  | .divu _ _ => "DIVU"
  | .mfhi _ => "MFHI"
  | .mthi _ => "MTHI"
  | .mflo _ => "MFLO"
  | .mtlo _ => "MTLO"
  | .beq _ _ _ => "BEQ"
  | .bne _ _ _ => "BNE"
  | .blez _ _ => "BLEZ"
  | .bgtz _ _ => "BGTZ"
  | .bltz _ _ => "BLTZ"
  | .bgez _ _ => "BGEZ"
  | .bltzal _ _ => "BLTZAL"
  | .bgezal _ _ => "BGEZAL"
  | .j _ => "J"
  | .jal _ => "JAL"
  | .jr _ => "JR"
  | .jalr _ _ => "JALR"
  | .lb _ _ _ => "LB"
  | .lbu _ _ _ => "LBU"
  | .lh _ _ _ => "LH"
  | .lhu _ _ _ => "LHU"
  | .lw _ _ _ => "LW"
  | .lwl _ _ _ => "LWL"
  | .lwr _ _ _ => "LWR"
  | .sb _ _ _ => "SB"
  | .sh _ _ _ => "SH"
  | .sw _ _ _ => "SW"
  | .swl _ _ _ => "SWL"
  | .swr _ _ _ => "SWR"
  | .mfc0 _ _ => "MFC0"
  | .mtc0 _ _ => "MTC0"
  | .rfe => "RFE"
  | .syscall => "SYSCALL"
  | .breakpoint => "BREAK"
  | .cop1 => "COP1"
  | .cop3 => "COP3"
  | .mfc2 _ _ => "MFC2"
  | .cfc2 _ _ => "CFC2"
  | .mtc2 _ _ => "MTC2"
  | .ctc2 _ _ => "CTC2"
  | .cop2 _ => "COP2"
  | .lwc2 _ _ _ => "LWC2"
  | .swc2 _ _ _ => "SWC2"
  | .reserved _ => "RESERVED"

end Sys2Proof
end

