-- ==== Sys2Proof/Config.lean ====
section
/-! DEFINITION. What an implementation fixes (the parameters of spec/00_scope.md R6 and R7) and the free values: the
answers of the collaborators outside the core (R49; spec/20_memory.md R76, spec/60_exceptions.md R343, R352,
spec/45_coprocessor_system.md R272), each an opaque constant nothing can evaluate. -/

namespace Sys2Proof

/-! ## Constants the spec fixes (R6) -/

/-- `RAM_SIZE`, 2 MB (R6, R47). -/
def Config.ramSize : Nat := 0x200000

/-- `RAM_WINDOW`, the 8 MB window in which the RAM array is mirrored (R6, R73). -/
def Config.ramWindow : Nat := 0x800000

/-- `BIOS_SIZE`, 512 KB (R6, R47). -/
def Config.biosSize : Nat := 0x80000

/-- `QUANTUM`, 128 cycles (R6, R354). -/
def Config.quantum : Nat := 128

/-! ## How far the open counts can go (DEDUCED, log entry 3) -/

/-- The most interrupt lines the 32-bit registers of spec/60_exceptions.md R335 can show. -/
abbrev Config.maxIrq : Nat := 32

/-- The most DMA channels the layout of spec/60_exceptions.md R340 and R341 has room for. -/
abbrev Config.maxDma : Nat := 7

/-- A set of interrupt lines, one bit a line (R44, R330); a core with `N_IRQ` lines uses the bits below `N_IRQ`. -/
abbrev IrqLines := BitVec Config.maxIrq

/-- A DMA channel number (R45, R340); a core with `N_DMA` channels has those below `N_DMA`. -/
abbrev Channel := Fin Config.maxDma

/-! ## Names of the collaborators -/

/-- A scheduler client (R7 `DEVICES`, R352); `other` names one a host adds to the default list. -/
inductive Device where
  | gpu
  | timer0
  | timer1
  | timer2
  | cdrom
  | spu
  | peripherals
  | mdec
  | other (n : Nat)
  deriving DecidableEq, Repr, Inhabited

/-- A window served by a collaborator (R72, R76); `other` names one a host adds (R383). -/
inductive DevWindow where
  | peripherals
  | timers
  | cdrom
  | gpu
  | mdec
  | spu
  | other (n : Nat)
  deriving DecidableEq, Repr, Inhabited

/-- The name of a window of the address map (R72, column "window"); `other` names one a host adds (R383). -/
inductive WindowName where
  | ram
  | peripherals
  | intc
  | dma
  | timers
  | cdrom
  | gpu
  | mdec
  | spu
  | bios
  | other (n : Nat)
  deriving DecidableEq, Repr, Inhabited

/-- What serves a window of the address map (R72, column "kind"). -/
inductive WindowKind where
  | ram
  | bios
  | intc
  | dma
  | device (w : DevWindow)
  deriving DecidableEq, Repr, Inhabited

/-- One row of the address map: its name, a range of physical addresses and what serves it (R7, R72). -/
structure Window where
  name : WindowName
  kind : WindowKind
  base : Nat
  size : Nat
  deriving DecidableEq, Repr, Inhabited

/-! ## Parameters the source leaves open (R7) -/

/-- `BRANCH_BASE`: what a branch or jump target is computed from (R201, R202). -/
inductive BranchBase where
  | pc
  | npc
  deriving DecidableEq, Repr, Inhabited

/-- `DIV_CORNERS` (R184): the spec's default values, or a function the model does not know (DESIGN CHOICE, log entry
12: safe). -/
inductive DivCorners where
  | r3000a
  | other (n : Nat)
  deriving DecidableEq, Repr, Inhabited

/-- One row of the parameter `LATENCY`: the extra cycles of one kind of access to one window (R91;
DESIGN CHOICE, log entry 13: safe). -/
structure LatencyEntry where
  window  : WindowName
  width   : Width
  isWrite : Bool
  cycles  : Nat
  deriving DecidableEq, Repr, Inhabited

/-- The parameters of R7 that are values of plain data. They stand in `State` so that a statement about every
state is a statement for every value of them; no step changes them (DESIGN CHOICE, log entry 2: safe). -/
structure Params where
  branchBase       : BranchBase
  overflowTraps    : Bool
  loadDelay        : Bool
  iscDropsStores   : Bool
  cop0UnimplFaults : Bool
  prid             : Word
  vecGeneralRam    : Word
  vecGeneralRom    : Word
  vecReset         : Word
  windows          : List Window
  cyclesBase       : Nat
  latency          : List LatencyEntry
  divCorners       : DivCorners
  /-- `N_IRQ`, at most 32 in a core that R335 describes. -/
  nIrq             : Nat
  /-- `N_DMA`, at most 7 in a core that R340 and R341 describe. -/
  nDma             : Nat
  /-- `CLK_BITS`. -/
  clkBits          : Nat
  deriving DecidableEq, Repr, Inhabited

/-- The default of `WINDOWS` (R72). -/
def Config.defaultWindows : List Window :=
  [ ⟨.ram, .ram, 0x00000000, 0x800000⟩,
    ⟨.peripherals, .device .peripherals, 0x1F801040, 0x20⟩,
    ⟨.intc, .intc, 0x1F801070, 8⟩,
    ⟨.dma, .dma, 0x1F801080, 0x80⟩,
    ⟨.timers, .device .timers, 0x1F801100, 0x30⟩,
    ⟨.cdrom, .device .cdrom, 0x1F801800, 4⟩,
    ⟨.gpu, .device .gpu, 0x1F801810, 8⟩,
    ⟨.mdec, .device .mdec, 0x1F801820, 8⟩,
    ⟨.spu, .device .spu, 0x1F801C00, 0x400⟩,
    ⟨.bios, .bios, 0x1FC00000, 0x80000⟩ ]

/-- The default of `DEVICES`, in synchronisation order (R7). -/
def Config.defaultDevices : List Device :=
  [.gpu, .timer0, .timer1, .timer2, .cdrom, .spu, .peripherals, .mdec]

/-- The defaults of R7. -/
def Params.default : Params where
  branchBase       := .pc
  overflowTraps    := true
  loadDelay        := false
  iscDropsStores   := false
  cop0UnimplFaults := true
  prid             := 0x00000002#32
  vecGeneralRam    := 0x80000080#32
  vecGeneralRom    := 0xBFC00180#32
  vecReset         := 0xBFC00000#32
  windows          := Config.defaultWindows
  cyclesBase       := 1
  latency          := []
  divCorners       := .r3000a
  nIrq             := 11
  nDma             := 7
  clkBits          := 64

/-! ## The collaborators' side of the core's ports

The collaborators hold state of their own, which R20 leaves to them. All they can know of the core is what the core
has told them, so the model keeps that: the list of everything the core has asked of them or sent to them, newest
first. An answer is an unknown function of that whole history, the request being its head. -/

/-- The host's controller-input record, ten named button states (spec/70_reset_and_hazards.md R390). -/
structure ControllerInput where
  up : Bool
  down : Bool
  left : Bool
  right : Bool
  face0 : Bool
  face1 : Bool
  face2 : Bool
  face3 : Bool
  start : Bool
  select : Bool
  deriving DecidableEq, Repr, Inhabited

/-- One interaction of the core with a collaborator. -/
inductive PortEvent where
  /-- `DevRead(W, o, n)` (R76). -/
  | devRead (w : DevWindow) (offset : Nat) (n : Width)
  /-- `DevWrite(W, o, n, v)` (R76). -/
  | devWrite (w : DevWindow) (offset : Nat) (n : Width) (v : Word)
  /-- `CatchUp(d, elapsed)` (R352). -/
  | catchUp (d : Device) (elapsed : Nat)
  /-- `DmaRun(c)`, with all the transfer may read of the core (R343). -/
  | dmaRun (c : Channel) (madr bcr chcr : Word) (ram : List Host.Cell)
  /-- `Cop2ReadData(r)` (R272). -/
  | cop2ReadData (r : RegIdx)
  /-- `Cop2ReadCtrl(r)` (R272). -/
  | cop2ReadCtrl (r : RegIdx)
  /-- `Cop2WriteData(r, v)` (R272). -/
  | cop2WriteData (r : RegIdx) (v : Word)
  /-- `Cop2WriteCtrl(r, v)` (R272). -/
  | cop2WriteCtrl (r : RegIdx) (v : Word)
  /-- `Cop2Command(c)` (R272). -/
  | cop2Command (c : BitVec 25)
  /-- `PERIPHERALS` samples the controller-input record at the end of a frame (R392). -/
  | sampleInput (input : ControllerInput)
  /-- The host resets the System (spec/70_reset_and_hazards.md R380; log entry 26). -/
  | reset
  deriving DecidableEq, Repr, Inhabited

/-- What `CatchUp` returns: lines raised, next-event distance, frame-complete (R352). -/
structure CatchUpReply where
  raised        : IrqLines
  next          : Int
  frameComplete : Bool
  deriving DecidableEq, Repr, Inhabited

/-- What `DmaRun` leaves: bytes of RAM it replaced, the channel's `MADR` and `BCR` (R343). -/
structure DmaReply where
  ramWrites : List Host.Cell
  madr      : Word
  bcr       : Word
  deriving DecidableEq, Repr, Inhabited

/-! ## Free values (DESIGN CHOICE, log entry 4: safe): opaque, without a body -/

/-- The value a collaborator returns for the `DevRead` at the head of the history (R76). -/
opaque Config.devRead : List PortEvent → Word

/-- The re-arming pairs `(d, next)` a collaborator returns for the `DevWrite` at the head of the history (R357; a list
and not a set: log entry 17). -/
opaque Config.devWrite : List PortEvent → List (Device × Int)

/-- The reply to the `CatchUp` at the head of the history (R352). -/
opaque Config.catchUp : List PortEvent → CatchUpReply

/-- The reply to the `DmaRun` at the head of the history (R343). -/
opaque Config.dmaRun : List PortEvent → DmaReply

/-- The value returned for the `Cop2ReadData` at the head of the history (R272). -/
opaque Config.cop2ReadData : List PortEvent → Word

/-- The value returned for the `Cop2ReadCtrl` at the head of the history (R272). -/
opaque Config.cop2ReadCtrl : List PortEvent → Word

/-- The next-event distance a device reports from its own reset (R48; DESIGN CHOICE, log entry 11). -/
opaque Config.resetNext : Device → Nat

/-- `DIV_CORNERS` of another implementation (R184): quotient and remainder as a function of the operands alone
(`signed`, dividend, divisor). -/
opaque Config.divCornersOther : Nat → Bool → Word → Word → Word × Word

end Sys2Proof
end

