-- ==== Sys2Proof/Machine/State.lean ====
section
/-! DEFINITION. The state of the core (spec/10_state.md R20 to R50) as plain data, why a step can stop, and the
machine right after reset (R48; spec/70_reset_and_hazards.md R380). -/

namespace Sys2Proof.Machine

/-- Why a step stops with a fault: the invariant violations of spec/00_scope.md R12. -/
inductive Fault where
  /-- Raised by `step` in a state whose `PC` or `NPC` is not a multiple of 4, which only the host can make (R27,
  U14). Safe: the source says it "signals a fault". -/
  | misalignedPc
  /-- Raised by a synchronisation pass, or by a store to a device window, when a device reports a negative
  next-event distance (R353, R357), and by `step` and `restore` in a state that holds one, which only a restored
  snapshot can (R391). Safe: the source says "hard abort". -/
  | negativeNextEvent (d : Device)
  deriving DecidableEq, Repr

/-- Why a step gives an instruction no meaning. -/
inductive Refusal where
  /-- Answered by `exec`'s arm of an instruction that has no meaning yet (none is left). Safe: nothing runs. -/
  | notModelled (mnemonic : String)
  deriving DecidableEq, Repr

/-- The guest exceptions of R301, with the address each records in BADVADDR. -/
inductive Exc where
  | interrupt
  | addressErrorLoad (va : Word)
  | addressErrorStore (va : Word)
  | busErrorFetch
  | busErrorData
  | syscall
  | breakpoint
  | reservedInstruction
  | coprocessorUnusable
  | overflow
  deriving DecidableEq, Repr

/-- The stored part of CAUSE (R36); the bits R35 calls 0 and the live bit 10 are not stored. -/
structure Cause where
  bd      : Bool
  ce      : BitVec 2
  ip      : BitVec 2
  excCode : BitVec 5
  deriving DecidableEq, Repr

/-- The registers of one DMA channel (R45). -/
structure DmaChannel where
  madr : Word
  bcr  : Word
  chcr : Word
  deriving DecidableEq, Repr

/-- The timekeeper's bookkeeping for one device `d` of `DEVICES`: `LAST_SYNC[d]` and `NEXT[d]` (R46),
the latter negative only in a restored snapshot (R391; log entry 10). -/
structure SchedEntry where
  device   : Device
  lastSync : Nat
  next     : Int
  deriving DecidableEq, Repr

/-- With `LOAD_DELAY`, the register the previous instruction loaded and the value the present instruction still
reads from it (R243). -/
structure StaleRead where
  idx : RegIdx
  old : Word
  deriving DecidableEq, Repr

/-- Bytes by address in the canonical form of Machine/Memory.lean. -/
abbrev Memory := List Host.Cell

/-- The state of the core: the tuple of R20, the parameters of R7 (log entry 2), the hidden state of `LOAD_DELAY`
(R243, log entry 8), the last machine step's `frame_complete` (R360, log entry 20) and what the collaborators have been
told (log entry 4). -/
structure State where
  /-- The parameters of R7; constant. -/
  params : Params
  /-- `x[0..31]` (R21). Slot 0 is never read and never written (log entry 23). -/
  regs : Vector Word 32
  /-- The hidden state R243 asks for under `LOAD_DELAY`. -/
  stale : Option StaleRead
  /-- `HI` (R23). -/
  hi : Word
  /-- `LO` (R24). -/
  lo : Word
  /-- `PC` (R25). -/
  pc : Word
  /-- `NPC` (R26). -/
  npc : Word
  /-- `BDS` (R29). -/
  bds : Bool
  /-- SR, `C0[12]` (R33). -/
  sr : Word
  /-- CAUSE, `C0[13]`, its stored part (R35, R36). -/
  cause : Cause
  /-- EPC, `C0[14]` (R37). -/
  epc : Word
  /-- BADVADDR, `C0[8]` (R38). -/
  badvaddr : Word
  /-- BPC, `C0[3]` (R40). -/
  bpc : Word
  /-- BDA, `C0[5]` (R40). -/
  bda : Word
  /-- JUMPDEST, `C0[6]` (R40). -/
  jumpdest : Word
  /-- DCIC, `C0[7]` (R40). -/
  dcic : Word
  /-- BDAM, `C0[9]` (R40). -/
  bdam : Word
  /-- BPCM, `C0[11]` (R40). -/
  bpcm : Word
  /-- `I_STAT` (R44), its `N_IRQ` bits in the low ones. -/
  iStat : IrqLines
  /-- `I_MASK` (R44), its `N_IRQ` bits in the low ones. -/
  iMask : IrqLines
  /-- `DMA_MADR[c]`, `DMA_BCR[c]`, `DMA_CHCR[c]` (R45); the slots from `N_DMA` on are unused (log entry 3). -/
  dma : Vector DmaChannel Config.maxDma
  /-- `DPCR` (R45, R346). -/
  dpcr : Word
  /-- `DICR` (R45, R341). -/
  dicr : Word
  /-- `CLK` (R46), below `2^CLK_BITS`. -/
  clk : Nat
  /-- `BURST` (R46), below `2^CLK_BITS`. -/
  burst : Nat
  /-- `LAST_SYNC[d]` and `NEXT[d]`, in the order of `DEVICES` (R46). -/
  sched : List SchedEntry
  /-- `frame_complete` of the last machine step (R360, R392). -/
  frameDone : Bool
  /-- `RAM`, keyed by the index into the array (R47). -/
  ram : Memory
  /-- `BIOS`, keyed by the index into the array (R47). -/
  bios : Memory
  /-- Everything the core has asked of the collaborators or sent to them, newest first. -/
  portLog : List PortEvent
  deriving DecidableEq, Repr

/-- What a bus access or a fetch answers: a value and the state after it, an exception to raise and the state it is
raised in, or the fault of a device that breaks R353. -/
inductive Access (α : Type) where
  | done (v : α) (s : State)
  | raised (e : Exc) (s : State)
  | fault (r : Fault)
  deriving DecidableEq, Repr

/-- The state after reset of a System with these parameters, BIOS image and devices: the table of R48. The values R48
leaves to a draw (`x[1..31]`, `HI`, `LO`, EPC, BADVADDR) are 0 (DESIGN CHOICE, log entry 5: unsafe), `RAM` lists
nothing (DESIGN CHOICE, log entry 6: unsafe), and no delayed load is pending, which neither R48 nor R243 says (DESIGN
CHOICE, log entry 32: unsafe for `LOAD_DELAY`). -/
def State.boot (params : Params) (devices : List Device) (bios : Memory) : State where
  params    := params
  regs      := Vector.replicate 32 0
  stale     := none
  hi        := 0
  lo        := 0
  pc        := params.vecReset
  npc       := params.vecReset + 4
  bds       := false
  sr        := 0x00400000#32
  cause     := ⟨false, 0, 0, 0⟩
  epc       := 0
  badvaddr  := 0
  bpc       := 0
  bda       := 0
  jumpdest  := 0
  dcic      := 0
  bdam      := 0
  bpcm      := 0
  iStat     := 0
  iMask     := 0
  dma       := Vector.replicate Config.maxDma ⟨0, 0, 0⟩
  dpcr      := 0x07654321#32
  dicr      := 0
  clk       := 0
  burst     := 0
  sched     := devices.map fun d => ⟨d, 0, Config.resetNext d⟩
  frameDone := false
  ram       := []
  bios      := bios
  portLog   := []

/-- The machine right after reset, every parameter at its default (R7), no BIOS image loaded
(DESIGN CHOICE, log entry 7: unsafe for the run from this very state). -/
def State.reset : State := State.boot Params.default Config.defaultDevices []

end Sys2Proof.Machine
end

