-- ==== Sys2Proof/Machine/Memory.lean ====
section
/-! DEFINITION. Byte storage: the canonical list form, one byte at a time, and the little-endian composition of
spec/20_memory.md R61 and R62, in which byte order is decided once. -/

namespace Sys2Proof.Machine

/-- What an index of `RAM` or `BIOS` that is not listed reads as (DESIGN CHOICE, log entry 6: unsafe). -/
def Memory.blank : Byte := 0x00#8

/-- The byte at an index. -/
def Memory.get : Memory → Nat → Byte
  | [], _ => Memory.blank
  | (k, b) :: m, a => if a = k then b else if a < k then Memory.blank else Memory.get m a

/-- An index and its byte at the head of a memory, nothing when the byte is what an unlisted index reads as. -/
def Memory.put (a : Nat) (b : Byte) (m : Memory) : Memory :=
  if b = Memory.blank then m else (a, b) :: m

/-- The memory with one byte replaced; keeps the canonical form. -/
def Memory.set : Memory → Nat → Byte → Memory
  | [], a, b => Memory.put a b []
  | (k, c) :: m, a, b =>
    if a = k then Memory.put a b m
    else if a < k then Memory.put a b ((k, c) :: m)
    else (k, c) :: Memory.set m a b

/-- The canonical form above a bound: indexes strictly rising and at least `lo`, no byte that an unlisted index
reads as. -/
def Memory.wfFrom (lo : Nat) : Memory → Bool
  | [] => true
  | (k, b) :: m => decide (lo ≤ k) && b != Memory.blank && Memory.wfFrom (k + 1) m

/-- The canonical form of an array of `size` bytes. -/
def Memory.wf (size : Nat) (m : Memory) : Bool :=
  Memory.wfFrom 0 m && m.all fun c => decide (c.1 < size)

/-- An `n`-byte little-endian read at offset `o` of an array of `size` bytes, zero-extended to 32 bits; the index
wraps at the size (R62, R73, R74, R80). -/
def Memory.readLE (m : Memory) (size o : Nat) : Width → Word
  | .byte => place 0 (m.get (o % size))
  | .half => place 0 (m.get (o % size)) ||| place 8 (m.get ((o + 1) % size))
  | .word =>
    place 0 (m.get (o % size)) ||| place 8 (m.get ((o + 1) % size)) ||| place 16 (m.get ((o + 2) % size)) |||
      place 24 (m.get ((o + 3) % size))

/-- An `n`-byte little-endian write of the low bits of `v` at offset `o` of an array of `size` bytes (R62, R73, R81). -/
def Memory.writeLE (m : Memory) (size o : Nat) (v : Word) : Width → Memory
  | .byte => m.set (o % size) (v.extractLsb' 0 8)
  | .half => (m.set (o % size) (v.extractLsb' 0 8)).set ((o + 1) % size) (v.extractLsb' 8 8)
  | .word =>
    (((m.set (o % size) (v.extractLsb' 0 8)).set ((o + 1) % size) (v.extractLsb' 8 8)).set ((o + 2) % size)
      (v.extractLsb' 16 8)).set ((o + 3) % size) (v.extractLsb' 24 8)

/-- Bytes written one after another, each index taken within an array of `size` bytes. -/
def Memory.setAll (size : Nat) : List Host.Cell → Memory → Memory
  | [], m => m
  | (a, b) :: cs, m => Memory.setAll size cs (m.set (a % size) b)

/-- A list of bytes laid out from index `a` on. -/
def Memory.load : List Byte → Nat → Memory → Memory
  | [], _, m => m
  | b :: bs, a, m => Memory.load bs (a + 1) (m.set a b)

end Sys2Proof.Machine
end

