-- ==== Sys2Proof/Machine/Operands.lean ====
section
/-! DEFINITION. Every operand form: the general registers (spec/10_state.md R21), the immediates
(spec/30_encoding.md R106 to R111), the effective address (spec/44_load_store.md R230), the branch and jump targets
(spec/43_branch_jump.md R201, R202, R217) and the COP0 registers (spec/10_state.md R32 to R41). -/

namespace Sys2Proof.Machine

/-! ## General registers -/

/-- The content of `x[i]`: 0 for `i = 0` (R21). -/
def State.gpr (s : State) (i : RegIdx) : Word :=
  if i = 0 then 0 else s.regs[i]

/-- What an instruction reads from `x[i]`: the content, but the old value in the one instruction after a delayed
load of `x[i]` (R243). -/
def State.readReg (s : State) (i : RegIdx) : Word :=
  match s.stale with
  | none => s.gpr i
  | some p => if i = p.idx then p.old else s.gpr i

/-- `x[i] <- v`, discarded for `i = 0` (R21). -/
def State.writeReg (s : State) (i : RegIdx) (v : Word) : State :=
  if i = 0 then s else { s with regs := s.regs.set i v }

/-! ## Immediates -/

/-- `sext_32(imm16)` (R106, R110). -/
def sext16 (imm : BitVec 16) : Word := imm.signExtend 32

/-- `zext_32(imm16)` (R108). -/
def zext16 (imm : BitVec 16) : Word := imm.zeroExtend 32

/-- `imm16 << 16` (R109). -/
def upper16 (imm : BitVec 16) : Word := place 16 imm

/-- The shift amount `x[rs][4:0]` (R111). -/
def shiftAmount (v : Word) : BitVec 5 := v.extractLsb' 0 5

/-- `ea = x[rs] + sext_32(imm16)` modulo 2^32 (R230). -/
def effectiveAddress (s : State) (rs : RegIdx) (imm : BitVec 16) : Word := s.readReg rs + sext16 imm

/-- The aligned word containing an address, `ea & 0xFFFFFFFC` (R236). -/
def alignedWord (ea : Word) : Word := ea &&& 0xFFFFFFFC#32

/-- `ea[1:0]` (R236). -/
def lane (ea : Word) : BitVec 2 := ea.extractLsb' 0 2

/-! ## Loaded values -/

/-- `sext_32` of the low byte (R231). -/
def sextByte (v : Word) : Word := (v.extractLsb' 0 8).signExtend 32

/-- `sext_32` of the low halfword (R233). -/
def sextHalf (v : Word) : Word := (v.extractLsb' 0 16).signExtend 32

/-- The low `8n` bits of a value, the others 0 (R76, R81). -/
def truncTo (n : Width) (v : Word) : Word :=
  match n with
  | .byte => v &&& 0x000000FF#32
  | .half => v &&& 0x0000FFFF#32
  | .word => v

/-- The merge table of LWL (R236): memory word `w`, current register value `cur`. -/
def mergeLwl (l : BitVec 2) (w cur : Word) : Word :=
  match l with
  | 0#2 => (cur &&& 0x00FFFFFF#32) ||| (w <<< 24)
  | 1#2 => (cur &&& 0x0000FFFF#32) ||| (w <<< 16)
  | 2#2 => (cur &&& 0x000000FF#32) ||| (w <<< 8)
  | _ => w

/-- The merge table of LWR (R237). -/
def mergeLwr (l : BitVec 2) (w cur : Word) : Word :=
  match l with
  | 0#2 => w
  | 1#2 => (cur &&& 0xFF000000#32) ||| (w >>> 8)
  | 2#2 => (cur &&& 0xFFFF0000#32) ||| (w >>> 16)
  | _ => (cur &&& 0xFFFFFF00#32) ||| (w >>> 24)

/-- The merge table of SWL (R241): memory word `m`, register value `v`. -/
def mergeSwl (l : BitVec 2) (m v : Word) : Word :=
  match l with
  | 0#2 => (m &&& 0xFFFFFF00#32) ||| (v >>> 24)
  | 1#2 => (m &&& 0xFFFF0000#32) ||| (v >>> 16)
  | 2#2 => (m &&& 0xFF000000#32) ||| (v >>> 8)
  | _ => v

/-- The merge table of SWR (R242). -/
def mergeSwr (l : BitVec 2) (m v : Word) : Word :=
  match l with
  | 0#2 => v
  | 1#2 => (m &&& 0x000000FF#32) ||| (v <<< 8)
  | 2#2 => (m &&& 0x0000FFFF#32) ||| (v <<< 16)
  | _ => (m &&& 0x00FFFFFF#32) ||| (v <<< 24)

/-! ## Targets of control transfers -/

/-- `Base` of R201 and R202. -/
def branchBase (s : State) : Word :=
  match s.params.branchBase with
  | .pc => s.pc
  | .npc => s.npc

/-- `BranchTarget()` (R107, R201). -/
def branchTarget (s : State) (imm : BitVec 16) : Word := branchBase s + (sext16 imm <<< 2)

/-- `JumpTarget()` (R111, R202). -/
def jumpTarget (s : State) (target : BitVec 26) : Word :=
  (branchBase s &&& 0xF0000000#32) ||| (target.zeroExtend 32 <<< 2)

/-- The return address `PC + 8` (R217). -/
def linkValue (s : State) : Word := s.pc + 8

/-- Is an address a multiple of 4 (R27, R203)? -/
def aligned4 (a : Word) : Bool := a.extractLsb' 0 2 == 0#2

/-! ## COP0 registers -/

/-- The lines 0 to `N_IRQ - 1` (spec/60_exceptions.md R330). -/
def State.lineMask (s : State) : IrqLines := BitVec.ofNat Config.maxIrq (2 ^ s.params.nIrq - 1)

/-- `composite = (I_STAT & I_MASK) != 0` over the `N_IRQ` lines (spec/60_exceptions.md R333). -/
def State.composite (s : State) : Bool := s.iStat &&& s.iMask &&& s.lineMask != 0

/-- CAUSE as read: the stored part in its places, bit 10 the composite signal, every other bit 0 (R35, R36). -/
def State.readCause (s : State) : Word :=
  place 31 (BitVec.ofBool s.cause.bd) ||| place 28 s.cause.ce ||| place 10 (BitVec.ofBool s.composite) |||
    place 8 s.cause.ip ||| place 2 s.cause.excCode

/-- The COP0 register `MFC0` reads, none for an index that is not implemented (R32, R41, R261). -/
def State.readCop0 (s : State) (rd : RegIdx) : Option Word :=
  match rd.val with
  | 3 => some s.bpc
  | 5 => some s.bda
  | 6 => some s.jumpdest
  | 7 => some s.dcic
  | 8 => some s.badvaddr
  | 9 => some s.bdam
  | 11 => some s.bpcm
  | 12 => some s.sr
  | 13 => some s.readCause
  | 14 => some s.epc
  | 15 => some s.params.prid
  | _ => none

/-- What `MTC0` writes, none for an index that is not implemented: all of SR and of the debug registers, bits 9:8
of CAUSE, nothing of BADVADDR, EPC and PRID (R34 to R41, R262). -/
def State.writeCop0 (s : State) (rd : RegIdx) (v : Word) : Option State :=
  match rd.val with
  | 3 => some { s with bpc := v }
  | 5 => some { s with bda := v }
  | 6 => some { s with jumpdest := v }
  | 7 => some { s with dcic := v }
  | 8 => some s
  | 9 => some { s with bdam := v }
  | 11 => some { s with bpcm := v }
  | 12 => some { s with sr := v }
  | 13 => some { s with cause := { s.cause with ip := v.extractLsb' 8 2 } }
  | 14 => some s
  | 15 => some s
  | _ => none

end Sys2Proof.Machine
end

