-- ==== Sys2Proof/Machine/Flags.lean ====
section
/-! DEFINITION. The core has no condition codes (spec/10_state.md R31). What other hardware computes as flags is here
an overflow test (spec/40_alu_register.md R147), a field of SR or CAUSE (spec/10_state.md R33, R35) or the interrupt
condition (spec/60_exceptions.md R319). -/

namespace Sys2Proof.Machine

/-! ## Signed overflow (R147): the exact result against the 32-bit range -/

/-- An exact integer that does not fit 32 bits. -/
def exceeds32 (r : Int) : Bool := decide (r < -2147483648) || decide (2147483647 < r)

/-- Signed overflow of `a + b` (R147). -/
def addOverflows (a b : Word) : Bool := exceeds32 (a.toInt + b.toInt)

/-- Signed overflow of `a - b` (R147). -/
def subOverflows (a b : Word) : Bool := exceeds32 (a.toInt - b.toInt)

/-- The 32-bit value 1 or 0 of a comparison (R147). -/
def boolWord (c : Bool) : Word := if c then 1 else 0

/-! ## SR (R33) -/

/-- `SR.IEc`, bit 0. -/
def State.iec (s : State) : Bool := s.sr.getLsbD 0

/-- `SR.KUc`, bit 1. -/
def State.kuc (s : State) : Bool := s.sr.getLsbD 1

/-- `SR.IM`, bits 15:8. -/
def State.im (s : State) : BitVec 8 := s.sr.extractLsb' 8 8

/-- `SR.IsC`, bit 16. -/
def State.isc (s : State) : Bool := s.sr.getLsbD 16

/-- `SR.BEV`, bit 22. -/
def State.bev (s : State) : Bool := s.sr.getLsbD 22

/-- The push of the three-deep stack on exception entry, `SR[5:0] <- SR[3:0] << 2` (R310). -/
def srPush (sr : Word) : Word := (sr &&& 0xFFFFFFC0#32) ||| ((sr &&& 0x0000000F#32) <<< 2)

/-- The pop of RFE, `SR[3:0] <- SR[5:2]`, bits 31:4 unchanged (R263). -/
def srPop (sr : Word) : Word := (sr &&& 0xFFFFFFF0#32) ||| ((sr >>> 2) &&& 0x0000000F#32)

/-! ## Interrupts (R319) -/

/-- `IP[7:0] = 0b00000 ‖ composite ‖ CAUSE.IP[1:0]` (R319). -/
def State.ip (s : State) : BitVec 8 := ((BitVec.ofBool s.composite).setWidth 8 <<< 2) ||| s.cause.ip.setWidth 8

/-- `IntPending()` (R319). -/
def State.intPending (s : State) : Bool := s.iec && (s.ip &&& s.im != 0)

/-- The code an exception writes to `CAUSE.ExcCode` (R301). -/
def Exc.code : Exc → BitVec 5
  | .interrupt => 0
  | .addressErrorLoad _ => 4
  | .addressErrorStore _ => 5
  | .busErrorFetch => 6
  | .busErrorData => 7
  | .syscall => 8
  | .breakpoint => 9
  | .reservedInstruction => 10
  | .coprocessorUnusable => 11
  | .overflow => 12

/-- The address an exception writes to BADVADDR, none for one that leaves it unchanged (R38, R310). -/
def Exc.badAddress : Exc → Option Word
  | .addressErrorLoad va => some va
  | .addressErrorStore va => some va
  | _ => none

end Sys2Proof.Machine
end

