-- ==== Sys2Proof/Machine/Timekeeper.lean ====
section
/-! DEFINITION. The timekeeper (spec/60_exceptions.md R350 to R361): the clock, the re-arming of devices and the
synchronisation pass; and the record of the core's dealings with the collaborators. -/

namespace Sys2Proof.Machine

/-- Tells the collaborators something: the event becomes the head of their history. -/
def State.tell (s : State) (e : PortEvent) : State := { s with portLog := e :: s.portLog }

/-- `I_STAT[k] <- 1` for every line `k < N_IRQ` of a set: `RaiseLine` (R334). -/
def State.raiseLines (s : State) (lines : IrqLines) : State := { s with iStat := s.iStat ||| (lines &&& s.lineMask) }

/-- Adds cycles to `CLK` and `BURST`, modulo `2^CLK_BITS` (R351), at each access (DEDUCED, log entry 14: safe). -/
def State.charge (s : State) (cycles : Nat) : State :=
  { s with
    clk   := (s.clk + cycles) % 2 ^ s.params.clkBits
    burst := (s.burst + cycles) % 2 ^ s.params.clkBits }

/-- `LATENCY(window, width, is_write)` (R91), 0 where the parameter lists nothing. -/
def latencyOf (p : Params) (w : WindowName) (n : Width) (isWrite : Bool) : Nat :=
  match p.latency.find? fun e => e.window == w && e.width == n && e.isWrite == isWrite with
  | some e => e.cycles
  | none => 0

/-- The cycles since a device's last pass, `(CLK - LAST_SYNC[d]) mod 2^CLK_BITS` (R355). -/
def State.elapsed (s : State) (lastSync : Nat) : Nat :=
  (s.clk + (2 ^ s.params.clkBits - lastSync % 2 ^ s.params.clkBits)) % 2 ^ s.params.clkBits

/-- `NEXT[d] <- next` (R357). -/
def State.setNext (s : State) (d : Device) (next : Int) : State :=
  { s with sched := s.sched.map fun e => if e.device = d then { e with next := next } else e }

/-- The re-arming pairs of a device write, one after another; a negative distance is a fault (R353, R357; the
order is a DESIGN CHOICE, log entry 17: safe). -/
def rearm : List (Device × Int) → State → Except Fault State
  | [], s => .ok s
  | (d, next) :: rest, s =>
    if next < 0 then .error (.negativeNextEvent d) else rearm rest (s.setNext d next)

/-- The loop of `SyncPass()` (R355) over the devices in list order: their entries after the pass, the state, and
whether `GPU` reported frame-complete. -/
def syncDevices : List SchedEntry → State → Except Fault (List SchedEntry × State × Bool)
  | [], s => .ok ([], s, false)
  | e :: rest, s =>
    let s := s.tell (.catchUp e.device (s.elapsed e.lastSync))
    let r := Config.catchUp s.portLog
    if r.next < 0 then .error (.negativeNextEvent e.device)
    else
      match syncDevices rest (s.raiseLines r.raised) with
      | .error f => .error f
      | .ok (done, s', fc) =>
        .ok (⟨e.device, s.clk, r.next⟩ :: done, s', (e.device == .gpu && r.frameComplete) || fc)

/-- `SyncPass()` (R355); what it returns stands in `frameDone` (log entry 20), a fault leaves no state (log entry 31). -/
def syncPass (s : State) : Host.Outcome State Fault Refusal :=
  match syncDevices s.sched s with
  | .error f => .fault f
  | .ok (sched, s', fc) => .next { s' with sched := sched, burst := 0, frameDone := fc }

/-- Parts 3 and 4 of the machine step (R360): the clock advances by `CYCLES_BASE` (the accesses have charged their
latencies already), and a synchronisation pass runs when it is due (R354). -/
def finishStep (s : State) : Host.Outcome State Fault Refusal :=
  let s := s.charge s.params.cyclesBase
  if Config.quantum ≤ s.burst then syncPass s else .next { s with frameDone := false }

end Sys2Proof.Machine
end

