-- ==== Sys2Proof/Machine/Intc.lean ====
section
/-! DEFINITION. The register window of the interrupt controller (spec/60_exceptions.md R330 to R336) and the byte
lanes of a narrow access to a core-owned register (R336). -/

namespace Sys2Proof.Machine

/-! ## Byte lanes (R336) -/

/-- The number of the lowest bit an access at offset `o` touches, `8 * (o & 3)`. -/
def laneShift (o : Nat) : Nat := 8 * (o % 4)

/-- The bits of the register an access of `n` bytes at offset `o` touches. -/
def laneMask (n : Width) (o : Nat) : Word := truncTo n 0xFFFFFFFF#32 <<< laneShift o

/-- The lanes of a register's 32-bit read value. -/
def laneRead (n : Width) (o : Nat) (r : Word) : Word := truncTo n (r >>> laneShift o)

/-- The written value placed in its lanes, 0 elsewhere. -/
def lanePlace (n : Width) (o : Nat) (v : Word) : Word := truncTo n v <<< laneShift o

/-- A stored register after a write: the touched lanes from `v`, the others kept. -/
def laneWrite (n : Width) (o : Nat) (old v : Word) : Word :=
  (old &&& ~~~laneMask n o) ||| lanePlace n o v

/-! ## The registers (R335) -/

/-- `IntcRead(o, n)`: `I_STAT` at offset 0, `I_MASK` at offset 4, zero-extended; 0 beyond the map, which only a custom
window reaches (DESIGN CHOICE, log entry 15). -/
def intcRead (s : State) (o : Nat) (n : Width) : Word :=
  match o / 4 with
  | 0 => laneRead n o (s.iStat &&& s.lineMask)
  | 1 => laneRead n o (s.iMask &&& s.lineMask)
  | _ => 0

/-- `IntcWrite(o, n, v)`: writing 0 to a bit of `I_STAT` clears it, untouched lanes as if written with 1; `I_MASK`
takes the touched lanes; bits `N_IRQ` and above ignore writes. -/
def intcWrite (s : State) (o : Nat) (n : Width) (v : Word) : State :=
  match o / 4 with
  | 0 => { s with iStat := s.iStat &&& (lanePlace n o v ||| ~~~laneMask n o) }
  | 1 => { s with iMask := laneWrite n o s.iMask v &&& s.lineMask }
  | _ => s

end Sys2Proof.Machine
end

