-- ==== Sys2Proof/Machine/Dma.lean ====
section
/-! DEFINITION. The DMA register block (spec/60_exceptions.md R340 to R348). -/

namespace Sys2Proof.Machine

/-! ## DICR (R341, R342, R345) -/

/-- `DmaIrq()`: FORCE, or MASTER_EN and some enabled flag (R342). -/
def dmaIrq (dicr : Word) : Bool :=
  dicr.getLsbD 15 || (dicr.getLsbD 23 && (dicr.extractLsb' 16 7 &&& dicr.extractLsb' 24 7 != 0))

/-- DICR with bit 31 computed (R342). -/
def dicrRefreshed (dicr : Word) : Word := (dicr &&& 0x7FFFFFFF#32) ||| place 31 (BitVec.ofBool (dmaIrq dicr))

/-- `DmaRecompute()`: a 0 to 1 transition of bit 31 raises line 3 (R342, R348). -/
def dmaRecompute (s : State) : State :=
  { s.raiseLines (if dmaIrq s.dicr && !s.dicr.getLsbD 31 then 0x008#32 else 0) with dicr := dicrRefreshed s.dicr }

/-- The bits of DICR a write stores: 5:0, 15, 23:16 (R345). -/
def dicrStored : Word := 0x00FF803F#32

/-- The flag bits 30:24, which a written 1 clears (R341, R345). -/
def dicrFlags : Word := 0x7F000000#32

/-- The DICR write of R345 on the touched lanes, before `DmaRecompute()`: untouched stored bits keep their value,
untouched flags are as if written with 0, bit 31 keeps its value, bits 14:6 stay 0. -/
def dicrWrite (n : Width) (o : Nat) (dicr v : Word) : Word :=
  (laneWrite n o dicr v &&& dicrStored) ||| (dicr &&& ~~~(lanePlace n o v) &&& dicrFlags) |||
    (dicr &&& 0x80000000#32)

/-- `DmaComplete(c)`: an enabled channel sets its flag; then `DmaRecompute()` (R344). -/
def dmaComplete (s : State) (c : Channel) : State :=
  dmaRecompute
    (if s.dicr.getLsbD (16 + c.val) then { s with dicr := s.dicr ||| (1#32 <<< (24 + c.val)) } else s)

/-! ## Arbitration (R343, R346, R347) -/

/-- `ready(c)` (R343), for a channel the core has. -/
def dmaReady (s : State) (c : Channel) : Bool :=
  let chcr := s.dma[c].chcr
  decide (c.val < s.params.nDma) && chcr.getLsbD 24 && s.dpcr.getLsbD (4 * c.val + 3) &&
    (chcr.extractLsb' 9 2 != 0 || chcr.getLsbD 28)

/-- `DPCR[4c+2:4c]`, 0 the highest priority (R346). -/
def dmaPriority (s : State) (c : Channel) : BitVec 3 := s.dpcr.extractLsb' (4 * c.val) 3

/-- The channel numbers in rising order. -/
def channels : List Channel := [0, 1, 2, 3, 4, 5, 6]

/-- The better of the best channel so far and a later one: the smaller priority value, among equals the larger
channel (R343). -/
def dmaBetter (s : State) (best : Option Channel) (c : Channel) : Option Channel :=
  match best with
  | none => some c
  | some b => if dmaPriority s c ≤ dmaPriority s b then some c else some b

/-- The ready channel that runs next (R343). -/
def dmaPick (s : State) : Option Channel := (channels.filter (dmaReady s)).foldl (dmaBetter s) none

/-- `DmaRun(c)`, the collaborator's transfer: it may replace bytes of RAM, `DMA_MADR[c]` and `DMA_BCR[c]` (R343;
DEDUCED, log entry 16: safe). -/
def dmaRun (s : State) (c : Channel) : State :=
  let ch := s.dma[c]
  let s := s.tell (.dmaRun c ch.madr ch.bcr ch.chcr s.ram)
  let r := Config.dmaRun s.portLog
  { s with
    ram := Memory.setAll Config.ramSize r.ramWrites s.ram
    dma := s.dma.set c { ch with madr := r.madr, bcr := r.bcr } }

/-- One turn of the loop of R343: the transfer, bits 24 and 28 of CHCR cleared, `DmaComplete(c)`. -/
def dmaServe (s : State) (c : Channel) : State :=
  let s := dmaRun s c
  dmaComplete { s with dma := s.dma.set c { s.dma[c] with chcr := s.dma[c].chcr &&& 0xEEFFFFFF#32 } } c

/-- The loop of R343, at most `fuel` turns. -/
def dmaLoop : Nat → State → State
  | 0, s => s
  | fuel + 1, s =>
    match dmaPick s with
    | none => s
    | some c => dmaLoop fuel (dmaServe s c)

/-- The loop of R343. A turn makes its channel not ready and no other ready, so as many turns as channels are enough. -/
def dmaService (s : State) : State := dmaLoop Config.maxDma s

/-! ## The registers (R340) -/

/-- A register of the DMA window. -/
inductive DmaReg where
  | madr (c : Channel)
  | bcr (c : Channel)
  | chcr (c : Channel)
  | dpcr
  | dicr
  | unused
  deriving DecidableEq, Repr

/-- The register at an offset of a core with `nDma` channels (R340). The places of channels the core does not have are
unused (DESIGN CHOICE, log entry 3). -/
def dmaReg (nDma o : Nat) : DmaReg :=
  if h : o / 16 < Config.maxDma then
    if o / 16 < nDma then
      match o / 4 % 4 with
      | 0 => .madr ⟨o / 16, h⟩
      | 1 => .bcr ⟨o / 16, h⟩
      | 2 => .chcr ⟨o / 16, h⟩
      | _ => .unused
    else .unused
  else
    match o / 4 with
    | 0x1C => .dpcr
    | 0x1D => .dicr
    | _ => .unused

/-- The 32-bit read value of a register: the stored value, DICR with bit 31 as R342 computes it, 0 where unused. -/
def dmaRegValue (s : State) : DmaReg → Word
  | .madr c => s.dma[c].madr
  | .bcr c => s.dma[c].bcr
  | .chcr c => s.dma[c].chcr
  | .dpcr => s.dpcr
  | .dicr => dicrRefreshed s.dicr
  | .unused => 0

/-- `DmaRead(o, n)`, which ends with `DmaRecompute()` (R340). -/
def dmaRead (s : State) (o : Nat) (n : Width) : Word × State :=
  (laneRead n o (dmaRegValue s (dmaReg s.params.nDma o)), dmaRecompute s)

/-- The write of one register, before the closing `DmaRecompute()` (R340, R343, R345). -/
def dmaRegWrite (s : State) (o : Nat) (n : Width) (v : Word) : State :=
  match dmaReg s.params.nDma o with
  | .madr c => { s with dma := s.dma.set c { s.dma[c] with madr := laneWrite n o s.dma[c].madr v } }
  | .bcr c => { s with dma := s.dma.set c { s.dma[c] with bcr := laneWrite n o s.dma[c].bcr v } }
  | .chcr c =>
    dmaService { s with dma := s.dma.set c { s.dma[c] with chcr := laneWrite n o s.dma[c].chcr v } }
  | .dpcr => dmaService { s with dpcr := laneWrite n o s.dpcr v }
  | .dicr => { s with dicr := dicrWrite n o s.dicr v }
  | .unused => s

/-- `DmaWrite(o, n, v)`, which ends with `DmaRecompute()` (R340). -/
def dmaWrite (s : State) (o : Nat) (n : Width) (v : Word) : State := dmaRecompute (dmaRegWrite s o n v)

end Sys2Proof.Machine
end

