-- ==== Sys2Proof/Machine/Ops.lean ====
section
/-! DEFINITION. The named operations every meaning is written over: taking an exception and returning from one
(spec/60_exceptions.md R300, R310, R313, R314; spec/45_coprocessor_system.md R263), Commit (spec/10_state.md R28), and
the bus: `Resolve`, `MemRead`, `MemWrite`, `Fetch` (spec/20_memory.md R68 to R83, R91). -/

namespace Sys2Proof.Machine

/-! ## Exceptions -/

/-- The restart address: `PC`, or `PC - 4` in a delay slot (R313). -/
def restartAddress (s : State) : Word := if s.bds then s.pc - 4 else s.pc

/-- The general exception vector: by `SR.BEV` (R314). -/
def exceptionVector (s : State) : Word := if s.bev then s.params.vecGeneralRom else s.params.vecGeneralRam

/-- `Enter(E, info)`, the one mechanism for every exception including Interrupt (R310). -/
def enterException (e : Exc) (s : State) : State :=
  { s with
    epc      := restartAddress s
    cause    := { s.cause with bd := s.bds, excCode := e.code, ce := 0 }
    badvaddr := e.badAddress.getD s.badvaddr
    sr       := srPush s.sr
    pc       := exceptionVector s
    npc      := exceptionVector s + 4
    bds      := false }

/-- `raise E(info)` in an instruction cycle: exception entry, Commit skipped (R300). The cycle a delayed load lasts
through is over (R243; DEDUCED, log entry 9). -/
def raise (e : Exc) (s : State) : Host.Outcome State Fault Refusal :=
  .next { enterException e s with stale := none }

/-- RFE's return: the pop of SR's stack (R263, R316). -/
def returnFromException (s : State) : State := { s with sr := srPop s.sr }

/-! ## Commit (R28) -/

/-- `PC <- NPC; NPC <- nextNPC; BDS <- isCTI` (R28). -/
def commit (s : State) (nextNpc : Word) (isCti : Bool) : State :=
  { s with pc := s.npc, npc := nextNpc, bds := isCti, stale := none }

/-- Commit of an instruction that is no control transfer. -/
def retire (s : State) : Host.Outcome State Fault Refusal := .next (commit s (s.npc + 4) false)

/-- Commit of a control transfer to `target`, taken or not (R200). -/
def retireBranch (taken : Bool) (target : Word) (s : State) : Host.Outcome State Fault Refusal :=
  .next (commit s (if taken then target else s.npc + 4) true)

/-- Commit of an instruction that loads `v` into `x[rt]`: at once, or under `LOAD_DELAY` visible from the
instruction after the next (R243; DEDUCED, log entry 8: unsafe for `LOAD_DELAY`). -/
def retireLoad (rt : RegIdx) (v : Word) (s : State) : Host.Outcome State Fault Refusal :=
  let t := commit (s.writeReg rt v) (s.npc + 4) false
  .next (if s.params.loadDelay && rt != 0 then { t with stale := some ⟨rt, s.gpr rt⟩ } else t)

/-! ## Address resolution -/

/-- `pa = va & 0x1FFFFFFF` (R69). -/
def physical (va : Word) : Nat := (va &&& 0x1FFFFFFF#32).toNat

/-- KSEG2, `va[31:30] = 0b11` (R68, R70). -/
def inKseg2 (va : Word) : Bool := va.extractLsb' 30 2 == 3#2

/-- Does a window hold a physical address (R79)? -/
def Window.holds (w : Window) (pa : Nat) : Bool := decide (w.base ≤ pa) && decide (pa < w.base + w.size)

/-- The window that holds an address, the first of `WINDOWS` (R79). -/
def windowAt (s : State) (va : Word) : Option Window :=
  if inKseg2 va then none else s.params.windows.find? fun w => Window.holds w (physical va)

/-- `Resolve(va)`: what serves the address and the offset in its window; none for NoWindow (R79). -/
def resolve (s : State) (va : Word) : Option (WindowKind × Nat) :=
  (windowAt s va).map fun w => (w.kind, physical va - w.base)

/-- The extra cycles of an access: `LATENCY` of the window that holds the address (R91). -/
def State.latency (s : State) (va : Word) (n : Width) (isWrite : Bool) : Nat :=
  match windowAt s va with
  | some w => latencyOf s.params w.name n isWrite
  | none => 0

/-- A halfword needs `va[0] = 0`, a word `va[1:0] = 0` (R64). -/
def misaligned (va : Word) : Width → Bool
  | .byte => false
  | .half => va.extractLsb' 0 1 != 0#1
  | .word => va.extractLsb' 0 2 != 0#2

/-! ## Bus accesses -/

/-- The read of `n` bytes at an offset of a window (R80). -/
def windowRead (s : State) (k : WindowKind) (o : Nat) (n : Width) : Word × State :=
  match k with
  | .ram => (Memory.readLE s.ram Config.ramSize o n, s)
  | .bios => (Memory.readLE s.bios Config.biosSize o n, s)
  | .intc => (intcRead s o n, s)
  | .dma => dmaRead s o n
  | .device w =>
    let s := s.tell (.devRead w o n)
    (truncTo n (Config.devRead s.portLog), s)

/-- The write of `n` bytes at an offset of a window (R81); a store to BIOS is discarded (R74). -/
def windowWrite (s : State) (k : WindowKind) (o : Nat) (n : Width) (v : Word) : Except Fault State :=
  match k with
  | .ram => .ok { s with ram := Memory.writeLE s.ram Config.ramSize o v n }
  | .bios => .ok s
  | .intc => .ok (intcWrite s o n v)
  | .dma => .ok (dmaWrite s o n v)
  | .device w =>
    let s := s.tell (.devWrite w o n (truncTo n v))
    rearm (Config.devWrite s.portLog) s

/-- `MemRead(va, n)`, the value zero-extended to 32 bits (R80). -/
def memRead (s : State) (va : Word) (n : Width) : Access Word :=
  if misaligned va n then .raised (.addressErrorLoad va) s
  else
    match resolve s va with
    | none => .raised .busErrorData s
    | some (k, o) =>
      let r := windowRead s k o n
      .done r.1 (r.2.charge (s.latency va n false))

/-- `MemWrite(va, n, v)` (R81, R83). -/
def memWrite (s : State) (va : Word) (n : Width) (v : Word) : Access Unit :=
  if misaligned va n then .raised (.addressErrorStore va) s
  else if s.params.iscDropsStores && s.isc then .done () s
  else
    match resolve s va with
    | none => .raised .busErrorData s
    | some (k, o) =>
      match windowWrite s k o n v with
      | .error f => .fault f
      | .ok t => .done () (t.charge (s.latency va n true))

/-- `Fetch(va)` (R82): the read a load of a word makes, whatever the window (DEDUCED, log entry 24: safe). -/
def fetch (s : State) : Access Word :=
  match resolve s s.pc with
  | none => .raised .busErrorFetch s
  | some (k, o) =>
    let r := windowRead s k o .word
    .done r.1 (r.2.charge (s.latency s.pc .word false))

/-! ## Loads and stores -/

/-- A load of `n` bytes at `ea` into `x[rt]`, `ext` making the register value of the bytes read (R230, R244). -/
def loadReg (rt : RegIdx) (ea : Word) (n : Width) (ext : Word → Word) (s : State) :
    Host.Outcome State Fault Refusal :=
  match memRead s ea n with
  | .done v t => retireLoad rt (ext v) t
  | .raised e t => raise e t
  | .fault f => .fault f

/-- A store of the low `n` bytes of `v` at `ea` (R230, R244). -/
def storeMem (ea : Word) (n : Width) (v : Word) (s : State) : Host.Outcome State Fault Refusal :=
  match memWrite s ea n v with
  | .done _ t => retire t
  | .raised e t => raise e t
  | .fault f => .fault f

/-- The read-modify-write of the aligned word containing `ea`, `merge` making the word stored (R241, R242). -/
def mergeMem (ea : Word) (merge : Word → Word) (s : State) : Host.Outcome State Fault Refusal :=
  match memRead s (alignedWord ea) .word with
  | .done m t => storeMem (alignedWord ea) .word (merge m) t
  | .raised e t => raise e t
  | .fault f => .fault f

end Sys2Proof.Machine
end

