-- ==== Sys2Proof/Machine/AluReg.lean ====
section
/-! DEFINITION. Register-register ALU and shifts (spec/40_alu_register.md). -/

namespace Sys2Proof.Machine

/-- A result written to `x[rd]`, then Commit (R130). -/
def writeResult (rd : RegIdx) (v : Word) (s : State) : Host.Outcome State Fault Refusal := retire (s.writeReg rd v)

/-- A result that a signed overflow keeps from being written when `OVERFLOW_TRAPS` (R147). -/
def writeTrapping (overflows : Bool) (rd : RegIdx) (v : Word) (s : State) : Host.Outcome State Fault Refusal :=
  if s.params.overflowTraps && overflows then raise .overflow s else writeResult rd v s

/-- R131. -/
def execOr (rd rs rt : RegIdx) (s : State) := writeResult rd (s.readReg rs ||| s.readReg rt) s
/-- R132. -/
def execAnd (rd rs rt : RegIdx) (s : State) := writeResult rd (s.readReg rs &&& s.readReg rt) s
/-- R133. -/
def execXor (rd rs rt : RegIdx) (s : State) := writeResult rd (s.readReg rs ^^^ s.readReg rt) s
/-- R134. -/
def execNor (rd rs rt : RegIdx) (s : State) := writeResult rd (~~~(s.readReg rs ||| s.readReg rt)) s

/-- R135. -/
def execAdd (rd rs rt : RegIdx) (s : State) :=
  writeTrapping (addOverflows (s.readReg rs) (s.readReg rt)) rd (s.readReg rs + s.readReg rt) s
/-- R136. -/
def execAddu (rd rs rt : RegIdx) (s : State) := writeResult rd (s.readReg rs + s.readReg rt) s
/-- R137. -/
def execSub (rd rs rt : RegIdx) (s : State) :=
  writeTrapping (subOverflows (s.readReg rs) (s.readReg rt)) rd (s.readReg rs - s.readReg rt) s
/-- R138. -/
def execSubu (rd rs rt : RegIdx) (s : State) := writeResult rd (s.readReg rs - s.readReg rt) s

/-- R139. -/
def execSlt (rd rs rt : RegIdx) (s : State) :=
  writeResult rd (boolWord (decide ((s.readReg rs).toInt < (s.readReg rt).toInt))) s
/-- R140. -/
def execSltu (rd rs rt : RegIdx) (s : State) :=
  writeResult rd (boolWord (decide ((s.readReg rs).toNat < (s.readReg rt).toNat))) s

/-- R141. -/
def execSll (rd rt : RegIdx) (shamt : BitVec 5) (s : State) := writeResult rd (s.readReg rt <<< shamt.toNat) s
/-- R142. -/
def execSrl (rd rt : RegIdx) (shamt : BitVec 5) (s : State) := writeResult rd (s.readReg rt >>> shamt.toNat) s
/-- R143. -/
def execSra (rd rt : RegIdx) (shamt : BitVec 5) (s : State) :=
  writeResult rd ((s.readReg rt).sshiftRight shamt.toNat) s

/-- R144. -/
def execSllv (rd rt rs : RegIdx) (s : State) :=
  writeResult rd (s.readReg rt <<< (shiftAmount (s.readReg rs)).toNat) s
/-- R145. -/
def execSrlv (rd rt rs : RegIdx) (s : State) :=
  writeResult rd (s.readReg rt >>> (shiftAmount (s.readReg rs)).toNat) s
/-- R146. -/
def execSrav (rd rt rs : RegIdx) (s : State) :=
  writeResult rd ((s.readReg rt).sshiftRight (shiftAmount (s.readReg rs)).toNat) s

end Sys2Proof.Machine
end

