-- ==== Sys2Proof/Machine/AluImm.lean ====
section
/-! DEFINITION. Register-immediate ALU (spec/41_alu_immediate.md). -/

namespace Sys2Proof.Machine

/-- R161. -/
def execAddi (rt rs : RegIdx) (imm : BitVec 16) (s : State) :=
  writeTrapping (addOverflows (s.readReg rs) (sext16 imm)) rt (s.readReg rs + sext16 imm) s
/-- R162. -/
def execAddiu (rt rs : RegIdx) (imm : BitVec 16) (s : State) := writeResult rt (s.readReg rs + sext16 imm) s
/-- R163. -/
def execSlti (rt rs : RegIdx) (imm : BitVec 16) (s : State) :=
  writeResult rt (boolWord (decide ((s.readReg rs).toInt < (sext16 imm).toInt))) s
/-- R164. -/
def execSltiu (rt rs : RegIdx) (imm : BitVec 16) (s : State) :=
  writeResult rt (boolWord (decide ((s.readReg rs).toNat < (sext16 imm).toNat))) s
/-- R165. -/
def execAndi (rt rs : RegIdx) (imm : BitVec 16) (s : State) := writeResult rt (s.readReg rs &&& zext16 imm) s
/-- R166. -/
def execOri (rt rs : RegIdx) (imm : BitVec 16) (s : State) := writeResult rt (s.readReg rs ||| zext16 imm) s
/-- R167. -/
def execXori (rt rs : RegIdx) (imm : BitVec 16) (s : State) := writeResult rt (s.readReg rs ^^^ zext16 imm) s
/-- R168. -/
def execLui (rt : RegIdx) (imm : BitVec 16) (s : State) := writeResult rt (upper16 imm) s

end Sys2Proof.Machine
end

