-- ==== Sys2Proof/Machine/Branch.lean ====
section
/-! DEFINITION. Branches and jumps (spec/43_branch_jump.md). Conditions and targets are read before a link register
is written (R210, R215); a transfer in a delay slot runs as R216 says (DEDUCED, log entry 25). -/

namespace Sys2Proof.Machine

/-- A conditional branch (R200, R201). -/
def branchIf (taken : Bool) (imm : BitVec 16) (s : State) := retireBranch taken (branchTarget s imm) s

/-- A conditional branch that writes the link register 31, taken or not (R210, R217). -/
def branchLink (taken : Bool) (imm : BitVec 16) (s : State) :=
  retireBranch taken (branchTarget s imm) (s.writeReg 31 (linkValue s))

/-- A register jump to `t` that writes the link register `rd` when there is one: AddressErrorLoad on a misaligned
target, raised by the jump itself (R203). -/
def jumpReg (link : Option RegIdx) (t : Word) (s : State) : Host.Outcome State Fault Refusal :=
  if aligned4 t then
    retireBranch true t (match link with | none => s | some rd => s.writeReg rd (linkValue s))
  else raise (.addressErrorLoad t) s

/-- R204. -/
def execBeq (rs rt : RegIdx) (imm : BitVec 16) (s : State) := branchIf (s.readReg rs == s.readReg rt) imm s
/-- R205. -/
def execBne (rs rt : RegIdx) (imm : BitVec 16) (s : State) := branchIf (s.readReg rs != s.readReg rt) imm s
/-- R206. -/
def execBlez (rs : RegIdx) (imm : BitVec 16) (s : State) := branchIf (decide ((s.readReg rs).toInt ≤ 0)) imm s
/-- R207. -/
def execBgtz (rs : RegIdx) (imm : BitVec 16) (s : State) := branchIf (decide (0 < (s.readReg rs).toInt)) imm s
/-- R208. -/
def execBltz (rs : RegIdx) (imm : BitVec 16) (s : State) := branchIf ((s.readReg rs).getLsbD 31) imm s
/-- R209. -/
def execBgez (rs : RegIdx) (imm : BitVec 16) (s : State) := branchIf (!(s.readReg rs).getLsbD 31) imm s
/-- R210. -/
def execBltzal (rs : RegIdx) (imm : BitVec 16) (s : State) := branchLink ((s.readReg rs).getLsbD 31) imm s
/-- R211. -/
def execBgezal (rs : RegIdx) (imm : BitVec 16) (s : State) := branchLink (!(s.readReg rs).getLsbD 31) imm s

/-- R212. -/
def execJ (target : BitVec 26) (s : State) := retireBranch true (jumpTarget s target) s
/-- R213. -/
def execJal (target : BitVec 26) (s : State) :=
  retireBranch true (jumpTarget s target) (s.writeReg 31 (linkValue s))
/-- R214. -/
def execJr (rs : RegIdx) (s : State) := jumpReg none (s.readReg rs) s
/-- R215. -/
def execJalr (rd rs : RegIdx) (s : State) := jumpReg (some rd) (s.readReg rs) s

end Sys2Proof.Machine
end

