-- ==== Sys2Proof/Machine/LoadStore.lean ====
section
/-! DEFINITION. Loads and stores (spec/44_load_store.md). -/

namespace Sys2Proof.Machine

/-- R231. -/
def execLb (rt rs : RegIdx) (imm : BitVec 16) (s : State) :=
  loadReg rt (effectiveAddress s rs imm) .byte sextByte s
/-- R232. -/
def execLbu (rt rs : RegIdx) (imm : BitVec 16) (s : State) :=
  loadReg rt (effectiveAddress s rs imm) .byte id s
/-- R233. -/
def execLh (rt rs : RegIdx) (imm : BitVec 16) (s : State) :=
  loadReg rt (effectiveAddress s rs imm) .half sextHalf s
/-- R234. -/
def execLhu (rt rs : RegIdx) (imm : BitVec 16) (s : State) :=
  loadReg rt (effectiveAddress s rs imm) .half id s
/-- R235. -/
def execLw (rt rs : RegIdx) (imm : BitVec 16) (s : State) :=
  loadReg rt (effectiveAddress s rs imm) .word id s
/-- R236. -/
def execLwl (rt rs : RegIdx) (imm : BitVec 16) (s : State) :=
  let ea := effectiveAddress s rs imm
  loadReg rt (alignedWord ea) .word (fun w => mergeLwl (lane ea) w (s.readReg rt)) s
/-- R237. -/
def execLwr (rt rs : RegIdx) (imm : BitVec 16) (s : State) :=
  let ea := effectiveAddress s rs imm
  loadReg rt (alignedWord ea) .word (fun w => mergeLwr (lane ea) w (s.readReg rt)) s

/-- R238. -/
def execSb (rt rs : RegIdx) (imm : BitVec 16) (s : State) :=
  storeMem (effectiveAddress s rs imm) .byte (s.readReg rt) s
/-- R239. -/
def execSh (rt rs : RegIdx) (imm : BitVec 16) (s : State) :=
  storeMem (effectiveAddress s rs imm) .half (s.readReg rt) s
/-- R240. -/
def execSw (rt rs : RegIdx) (imm : BitVec 16) (s : State) :=
  storeMem (effectiveAddress s rs imm) .word (s.readReg rt) s
/-- R241. -/
def execSwl (rt rs : RegIdx) (imm : BitVec 16) (s : State) :=
  let ea := effectiveAddress s rs imm
  mergeMem ea (fun m => mergeSwl (lane ea) m (s.readReg rt)) s
/-- R242. -/
def execSwr (rt rs : RegIdx) (imm : BitVec 16) (s : State) :=
  let ea := effectiveAddress s rs imm
  mergeMem ea (fun m => mergeSwr (lane ea) m (s.readReg rt)) s

end Sys2Proof.Machine
end

