-- ==== Sys2Proof/Machine/MulDiv.lean ====
section
/-! DEFINITION. Multiply, divide and the HI/LO moves (spec/42_muldiv.md). -/

namespace Sys2Proof.Machine

/-- `HI <- hi; LO <- lo`, then Commit (R180). -/
def writeHiLo (hi lo : Word) (s : State) : Host.Outcome State Fault Refusal := retire { s with hi := hi, lo := lo }

/-- A 64-bit product in HI and LO (R181, R182). -/
def writeProduct (p : BitVec 64) (s : State) := writeHiLo (p.extractLsb' 32 32) (p.extractLsb' 0 32) s

/-- The default values of `DIV_CORNERS`, quotient and remainder (R184). -/
def divCornersR3000a (signed : Bool) (n d : Word) : Word × Word :=
  if d = 0 then (if signed && n.getLsbD 31 then 0x00000001#32 else 0xFFFFFFFF#32, n)
  else (0x80000000#32, 0)

/-- `DIV_CORNERS`, quotient and remainder (R184). -/
def divCorners (s : State) (signed : Bool) (n d : Word) : Word × Word :=
  match s.params.divCorners with
  | .r3000a => divCornersR3000a signed n d
  | .other k => Config.divCornersOther k signed n d

/-- Quotient and remainder of DIV: rounded toward zero, the remainder with the sign of the dividend (R183). -/
def signedDivision (s : State) (n d : Word) : Word × Word :=
  if d.toInt = 0 ∨ (n.toInt = -2147483648 ∧ d.toInt = -1) then divCorners s true n d
  else (BitVec.ofInt 32 (n.toInt.tdiv d.toInt), BitVec.ofInt 32 (n.toInt.tmod d.toInt))

/-- Quotient and remainder of DIVU (R185). -/
def unsignedDivision (s : State) (n d : Word) : Word × Word :=
  if d.toNat = 0 then divCorners s false n d
  else (BitVec.ofNat 32 (n.toNat / d.toNat), BitVec.ofNat 32 (n.toNat % d.toNat))

/-- R181. -/
def execMult (rs rt : RegIdx) (s : State) :=
  writeProduct (BitVec.ofInt 64 ((s.readReg rs).toInt * (s.readReg rt).toInt)) s
/-- R182. -/
def execMultu (rs rt : RegIdx) (s : State) :=
  writeProduct (BitVec.ofNat 64 ((s.readReg rs).toNat * (s.readReg rt).toNat)) s
/-- R183, R184. -/
def execDiv (rs rt : RegIdx) (s : State) :=
  let r := signedDivision s (s.readReg rs) (s.readReg rt)
  writeHiLo r.2 r.1 s
/-- R185, R184. -/
def execDivu (rs rt : RegIdx) (s : State) :=
  let r := unsignedDivision s (s.readReg rs) (s.readReg rt)
  writeHiLo r.2 r.1 s

/-- R186. -/
def execMfhi (rd : RegIdx) (s : State) := writeResult rd s.hi s
/-- R187. -/
def execMthi (rs : RegIdx) (s : State) := writeHiLo (s.readReg rs) s.lo s
/-- R188. -/
def execMflo (rd : RegIdx) (s : State) := writeResult rd s.lo s
/-- R189. -/
def execMtlo (rs : RegIdx) (s : State) := writeHiLo s.hi (s.readReg rs) s

end Sys2Proof.Machine
end

