-- ==== Sys2Proof/Machine/System.lean ====
section
/-! DEFINITION. Coprocessor, system and reserved instructions (spec/45_coprocessor_system.md). None is privileged
and no coprocessor access is checked (R277). -/

namespace Sys2Proof.Machine

/-- R261: an unimplemented index raises ReservedInstruction, or reads 0 without `COP0_UNIMPL_FAULTS` (R41). -/
def execMfc0 (rt rd : RegIdx) (s : State) : Host.Outcome State Fault Refusal :=
  match s.readCop0 rd with
  | some v => retireLoad rt v s
  | none => if s.params.cop0UnimplFaults then raise .reservedInstruction s else retireLoad rt 0 s

/-- R262: an unimplemented index raises ReservedInstruction, or is ignored without `COP0_UNIMPL_FAULTS` (R41). -/
def execMtc0 (rt rd : RegIdx) (s : State) : Host.Outcome State Fault Refusal :=
  match s.writeCop0 rd (s.readReg rt) with
  | some t => retire t
  | none => if s.params.cop0UnimplFaults then raise .reservedInstruction s else retire s

/-- R263. -/
def execRfe (s : State) : Host.Outcome State Fault Refusal := retire (returnFromException s)

/-- R264. -/
def execSyscall (s : State) : Host.Outcome State Fault Refusal := raise .syscall s
/-- R265, BREAK. -/
def execBreakpoint (s : State) : Host.Outcome State Fault Refusal := raise .breakpoint s

/-- R266, a no-op. -/
def execCop1 (s : State) : Host.Outcome State Fault Refusal := retire s
/-- R267, a no-op. -/
def execCop3 (s : State) : Host.Outcome State Fault Refusal := retire s

/-- R268: the read is made even when `rt = 0`. -/
def execMfc2 (rt rd : RegIdx) (s : State) : Host.Outcome State Fault Refusal :=
  let t := s.tell (.cop2ReadData rd)
  retireLoad rt (Config.cop2ReadData t.portLog) t
/-- R269. -/
def execCfc2 (rt rd : RegIdx) (s : State) : Host.Outcome State Fault Refusal :=
  let t := s.tell (.cop2ReadCtrl rd)
  retireLoad rt (Config.cop2ReadCtrl t.portLog) t
/-- R270. -/
def execMtc2 (rt rd : RegIdx) (s : State) : Host.Outcome State Fault Refusal :=
  retire (s.tell (.cop2WriteData rd (s.readReg rt)))
/-- R271. -/
def execCtc2 (rt rd : RegIdx) (s : State) : Host.Outcome State Fault Refusal :=
  retire (s.tell (.cop2WriteCtrl rd (s.readReg rt)))
/-- R273. -/
def execCop2 (command : BitVec 25) (s : State) : Host.Outcome State Fault Refusal :=
  retire (s.tell (.cop2Command command))

/-- R274: `rt` is a COP2 data register; no general register is written. -/
def execLwc2 (rt rs : RegIdx) (imm : BitVec 16) (s : State) : Host.Outcome State Fault Refusal :=
  match memRead s (effectiveAddress s rs imm) .word with
  | .done v t => retire (t.tell (.cop2WriteData rt v))
  | .raised e t => raise e t
  | .fault f => .fault f

/-- R275: the alignment test comes before the collaborator is read, the resolution after it (DEDUCED, log entry 18: safe). -/
def execSwc2 (rt rs : RegIdx) (imm : BitVec 16) (s : State) : Host.Outcome State Fault Refusal :=
  let ea := effectiveAddress s rs imm
  if misaligned ea .word then raise (.addressErrorStore ea) s
  else
    let t := s.tell (.cop2ReadData rt)
    storeMem ea .word (Config.cop2ReadData t.portLog) t

/-- R276: every reserved word raises ReservedInstruction; the word is recorded nowhere. -/
def execReserved (_word : Word) (s : State) : Host.Outcome State Fault Refusal := raise .reservedInstruction s

end Sys2Proof.Machine
end

