-- ==== Sys2Proof/Machine/HostInterface.lean ====
section
/-! DEFINITION. What stands around the instruction cycle: the interrupt sample (spec/60_exceptions.md R320), and the
host's side of the core (spec/70_reset_and_hazards.md R388 to R392). -/

namespace Sys2Proof.Machine

/-- Part 1 of the machine step: an interrupt that is due is taken before the fetch (R320, R360). -/
def sampleInterrupt (s : State) : State := if s.intPending then enterException .interrupt s else s

/-- A next-event distance below 0. -/
def isNegative : Int → Bool
  | .ofNat _ => false
  | .negSucc _ => true

/-- The invariant violation of a state handed to the core by the host: `PC` or `NPC` no multiple of 4, or a negative
`NEXT[d]` (R12, R27, R391), found before anything else of a step (DEDUCED, log entry 19: safe). -/
def State.violation (s : State) : Option Fault :=
  if aligned4 s.pc && aligned4 s.npc then
    (s.sched.find? fun e => isNegative e.next).map fun e => .negativeNextEvent e.device
  else some .misalignedPc

/-- Restoring a snapshot, which is a `State` (R391; log entry 30): the state, or the fault of its violation. -/
def restore (snapshot : State) : Host.Outcome State Fault Refusal :=
  match snapshot.violation with
  | none => .next snapshot
  | some f => .fault f

/-- A word stored at a virtual address of RAM or BIOS, as a host that loads a program stores it. -/
def placeWord (s : State) (va w : Word) : State :=
  match resolve s va with
  | some (.ram, o) => { s with ram := Memory.writeLE s.ram Config.ramSize o w .word }
  | some (.bios, o) => { s with bios := Memory.writeLE s.bios Config.biosSize o w .word }
  | _ => s

/-- Why the host's call is refused; none of these reaches the guest. -/
inductive HostError where
  /-- IOFault: the BIOS image is not exactly `BIOS_SIZE` bytes (R388). Safe: no System exists. -/
  | biosSize
  /-- The program image runs past RAM, or holds fewer bytes than it says (R389). Safe: no state is changed. -/
  | imageBounds
  /-- The program image's initial PC is not a multiple of 4 (R389). Safe: no state is changed. -/
  | imageMisaligned
  deriving DecidableEq, Repr

/-- Construction of a System from a BIOS image, then reset (R388, R380). -/
def construct (params : Params) (devices : List Device) (image : List Byte) : Except HostError State :=
  if image.length = Config.biosSize then .ok (State.boot params devices (Memory.load image 0 []))
  else .error .biosSize

/-- Reset of a running System (R380): the parameters, the devices and the BIOS image stay, the collaborators are told
(DESIGN CHOICE, log entry 26: safe), and a delayed load still pending is dropped (DESIGN CHOICE, log entry 32: unsafe
for `LOAD_DELAY`). -/
def hostReset (s : State) : State :=
  { State.boot s.params (s.sched.map SchedEntry.device) s.bios with portLog := .reset :: s.portLog }

/-- The header of a program image, its fields parsed (R389; DEDUCED, log entry 22: safe). -/
structure ImageHeader where
  pc0    : Word
  gp0    : Word
  dest   : Word
  size   : Nat
  spBase : Word
  spOff  : Word
  deriving DecidableEq, Repr

/-- The masked destination, as an index of RAM (R389). -/
def imageBase (h : ImageHeader) : Nat := physical h.dest

/-- The stack pointer of a loaded image, when the header gives one (R389). -/
def withStackPointer (h : ImageHeader) (s : State) : State :=
  if h.spBase = 0 then s else (s.writeReg 29 (h.spBase + h.spOff)).writeReg 30 (h.spBase + h.spOff)

/-- `LoadImage(h, blob)` (R389). Under `LOAD_DELAY` a load still pending stays pending, so where it is of a register
set here (`x[28]`, `x[29]`, `x[30]`) the next instruction reads the value before the load, and from the one after it on
the image's value is read (DESIGN CHOICE, log entry 33: unsafe for `LOAD_DELAY`). -/
def loadImage (h : ImageHeader) (blob : List Byte) (s : State) : Except HostError State :=
  if Config.ramWindow ≤ imageBase h ∨ Config.ramSize < imageBase h % Config.ramSize + h.size ∨
      blob.length < h.size then
    .error .imageBounds
  else if aligned4 h.pc0 = false then .error .imageMisaligned
  else
    .ok (withStackPointer h
      (State.writeReg
        { s with
          ram := Memory.load (blob.take h.size) (imageBase h % Config.ramSize) s.ram
          pc := h.pc0
          npc := h.pc0 + 4
          bds := false }
        28 h.gp0))

/-- `run_frame()` (R392) over a step function, at most `fuel` machine steps: none when the frame has not ended by
then. `PERIPHERALS` samples the input once, at the end (log entries 27, 29). -/
def runFrame (step : State → Host.Outcome State Fault Refusal) (input : ControllerInput) :
    Nat → State → Option (Host.Outcome State Fault Refusal)
  | 0, _ => none
  | fuel + 1, s =>
    match step s with
    | .next t => if t.frameDone then some (.next (t.tell (.sampleInput input))) else runFrame step input fuel t
    | .fault f => some (.fault f)
    | .refused r => some (.refused r)

end Sys2Proof.Machine
end

