-- ==== Sys2Proof/Machine/Step.lean ====
section
/-! DEFINITION. One machine step (spec/60_exceptions.md R360) around the instruction cycle (spec/10_state.md R28), and
the host's placing of a word where the next step fetches. -/

namespace Sys2Proof.Machine

/-- `InstructionCycle()` (R28): Fetch, Decode, Execute and Commit; a raise becomes exception entry. -/
def instructionCycle (s : State) : Host.Outcome State Fault Refusal :=
  match fetch s with
  | .done w t => exec (decodeWord w) t
  | .raised e t => raise e t
  | .fault f => .fault f

/-- `MachineStep()` (R360); a state that violates an invariant faults (R12, R27, R391). What the step returns stands in
`frameDone`. -/
def step (s : State) : Host.Outcome State Fault Refusal :=
  match s.violation with
  | some f => .fault f
  | none =>
    match instructionCycle (sampleInterrupt s) with
    | .next t => finishStep t
    | .fault f => .fault f
    | .refused r => .refused r

/-- The state with an instruction word of `nbits` bits stored where `step` fetches its next instruction: at `PC`, or
at the vector when an interrupt is due. Where that address is in no storage window the state is unchanged (log entry 21). -/
def State.withFetchWord (s : State) (nbits w : Nat) : State :=
  placeWord s (sampleInterrupt s).pc (BitVec.ofNat 32 (w % 2 ^ nbits))

end Sys2Proof.Machine
end

