-- ==== Sys2Proof/Safety.lean ====
section
/-! DEFINITION. What holds between machine steps, and what a safe step is, in the terms the statements use. -/

namespace Sys2Proof

open Machine

/-- Parameters a core can have: vectors that are multiples of 4 (spec/10_state.md R27), `CYCLES_BASE ≥ 1`
(spec/00_scope.md R7), and no more lines and channels than the registers have room for (DEDUCED, log entries 3
and 28). -/
def Params.wf (p : Params) : Bool :=
  aligned4 p.vecGeneralRam && aligned4 p.vecGeneralRom && aligned4 p.vecReset && decide (1 ≤ p.cyclesBase) &&
    decide (p.nIrq ≤ Config.maxIrq) && decide (p.nDma ≤ Config.maxDma)

/-- The codes a guest exception writes (spec/60_exceptions.md R301): all of the table but CoprocessorUnusable. -/
def excCodesTaken : List (BitVec 5) := [0, 4, 5, 6, 7, 8, 9, 10, 12]

/-- What every instruction keeps. -/
structure ExecInv (s : State) : Prop where
  /-- The parameters are those of a core (R7). -/
  params_wf : s.params.wf = true
  /-- `PC` is a multiple of 4 (R27). -/
  pc_aligned : aligned4 s.pc = true
  /-- `NPC` is a multiple of 4 (R27). -/
  npc_aligned : aligned4 s.npc = true
  /-- Index 0 holds no storage (R20, R21). -/
  slot0 : s.regs[0] = 0
  /-- Only `LOAD_DELAY` makes a register read its old value, and never register 0 (R243, R21). -/
  stale_ok : ∀ p, s.stale = some p → s.params.loadDelay = true ∧ p.idx ≠ 0
  /-- CAUSE.CE is 0 (R35). -/
  ce_zero : s.cause.ce = 0
  /-- CAUSE.ExcCode is the code of an exception this core takes (R301, R312). -/
  code_taken : s.cause.excCode ∈ excCodesTaken
  /-- DICR bit 31 is the composite DMA interrupt (R342). -/
  dicr_irq : s.dicr.getLsbD 31 = dmaIrq s.dicr
  /-- DICR bits 14:6 are 0 (R341). -/
  dicr_zero : s.dicr.extractLsb' 6 9 = 0
  /-- `I_STAT` is `N_IRQ` bits wide (R44). -/
  stat_width : s.iStat &&& s.lineMask = s.iStat
  /-- `I_MASK` is `N_IRQ` bits wide (R44). -/
  mask_width : s.iMask &&& s.lineMask = s.iMask
  /-- The slots of channels the core does not have hold nothing (R45). -/
  dma_width : ∀ c : Channel, s.params.nDma ≤ c.val → s.dma[c] = ⟨0, 0, 0⟩
  /-- `CLK` is `CLK_BITS` wide (R46). -/
  clk_width : s.clk < 2 ^ s.params.clkBits
  /-- `BURST` is `CLK_BITS` wide (R20). -/
  burst_width : s.burst < 2 ^ s.params.clkBits
  /-- `LAST_SYNC[d]` is `CLK_BITS` wide (R20). -/
  sync_width : ∀ e ∈ s.sched, e.lastSync < 2 ^ s.params.clkBits
  /-- No next-event distance is negative (R46, R391). -/
  next_natural : ∀ e ∈ s.sched, 0 ≤ e.next
  /-- No DMA channel is waiting to run (R343). -/
  dma_idle : ∀ c, dmaReady s c = false
  /-- `RAM` is in canonical form. -/
  ram_wf : Memory.wf Config.ramSize s.ram = true
  /-- `BIOS` is in canonical form. -/
  bios_wf : Memory.wf Config.biosSize s.bios = true

/-- What every machine step keeps: the above, and no synchronisation pass is overdue (R354). -/
structure Inv (s : State) : Prop extends ExecInv s where
  burst_short : s.burst < Config.quantum

/-- A state that violates no invariant the machine checks before a step: `PC` and `NPC` are multiples of 4 (R27) and no
`NEXT[d]` is negative (R391). -/
structure Runnable (s : State) : Prop where
  pc_aligned : aligned4 s.pc = true
  npc_aligned : aligned4 s.npc = true
  next_natural : ∀ e ∈ s.sched, 0 ≤ e.next

/-- A step that ends as the spec lets a step end: in a next state, or in the one fault of a device that reports a
negative next-event distance (R12, R353). -/
def SafeOutcome (o : Host.Outcome State Fault Refusal) : Prop :=
  (∃ t, o = .next t) ∨ ∃ d, o = .fault (.negativeNextEvent d)

/-! ## Words the statements use: what an instruction leaves and what it leaves alone -/

/-- The byte at an index of a storage array, the index taken within the array; 0 where no array stands
(spec/20_memory.md R73, R74). -/
def Machine.State.storedByte (s : State) (k : WindowKind) (i : Nat) : Byte :=
  match k with
  | .ram => s.ram.get (i % Config.ramSize)
  | .bios => s.bios.get (i % Config.biosSize)
  | _ => 0

/-- Is a window one of the two storage arrays (R72)? -/
def isStorage (k : WindowKind) : Bool := k == .ram || k == .bios

/-- The byte a program finds in RAM or BIOS at a virtual address, none at an address no storage answers (R79). -/
def Machine.State.byteAt (s : State) (va : Word) : Option Byte :=
  match resolve s va with
  | some (k, o) => if isStorage k then some (s.storedByte k o) else none
  | none => none

/-- The state after an instruction that did nothing but complete: `PC <- NPC; NPC <- NPC + 4; BDS <- 0`
(spec/10_state.md R28), the slot of a delayed load over (spec/44_load_store.md R243). -/
def Machine.State.advanced (s : State) : State :=
  { s with pc := s.npc, npc := s.npc + 4, bds := false, stale := none }

/-- `t` is `s` after an instruction that wrote `v` to `x[rd]`, nothing when `rd = 0`, and did nothing else: every
other part of the state is that of a completed instruction, and every byte of memory reads as before. -/
structure WroteReg (s t : State) (rd : RegIdx) (v : Word) : Prop where
  rest : t = { s.advanced with regs := t.regs }
  gprs : ∀ j, t.gpr j = if j = rd ∧ rd ≠ 0 then v else s.gpr j
  bytes : ∀ a, t.byteAt a = s.byteAt a

/-- `t` is `s` after an instruction that loaded `v` into `x[rt]`, nothing when `rt = 0`, and did nothing else. Without
`LOAD_DELAY` that is `WroteReg`; with it, the next instruction reads the old `x[rt]` and every other register as it
stands (spec/44_load_store.md R243; of LWL, LWR and the moves from a coprocessor DEDUCED, log entry 8). -/
structure Loaded (s t : State) (rt : RegIdx) (v : Word) : Prop where
  rest : t = { s.advanced with regs := t.regs, stale := t.stale }
  gprs : ∀ j, t.gpr j = if j = rt ∧ rt ≠ 0 then v else s.gpr j
  reads : ∀ j, t.readReg j = if s.params.loadDelay then s.gpr j else t.gpr j
  bytes : ∀ a, t.byteAt a = s.byteAt a

/-- `t` is `s` after a taken control transfer to `target` that wrote the return address to `x[rd]`, nothing when
`rd = 0`, and did nothing else (spec/43_branch_jump.md R200, R217). -/
structure Linked (s t : State) (rd : RegIdx) (target : Word) : Prop where
  rest : t = { s.advanced with regs := t.regs, npc := target, bds := true }
  gprs : ∀ j, t.gpr j = if j = rd ∧ rd ≠ 0 then s.pc + 8 else s.gpr j
  bytes : ∀ a, t.byteAt a = s.byteAt a

/-- `t` is `s` after an instruction that stored the `n` bytes `b 0`, …, `b (n - 1)` from index `o` of RAM on and did
nothing else: every other index and every address outside the stored bytes reads as before. -/
structure StoredRam (s t : State) (o n : Nat) (b : Nat → Byte) : Prop where
  rest : t = { s.advanced with ram := t.ram }
  inside : ∀ i, i < n → t.ram.get ((o + i) % Config.ramSize) = b i
  outside : ∀ p, (∀ i, i < n → p ≠ (o + i) % Config.ramSize) → t.ram.get p = s.ram.get p
  bytes : ∀ a, (∀ q i, resolve s a = some (.ram, q) → i < n → q % Config.ramSize ≠ (o + i) % Config.ramSize) →
    t.byteAt a = s.byteAt a

/-- Byte `i` of a word, the least significant first (spec/20_memory.md R62). -/
def byteOf (v : Word) (i : Nat) : Byte := v.extractLsb' (8 * i) 8

/-- What `Base` is for branches and jumps (spec/43_branch_jump.md R201). -/
def transferBase (s : State) : Word := if s.params.branchBase = .pc then s.pc else s.npc

/-- Is an address the target `Base + (sext_32(imm16) << 2)` modulo 2^32 (R201)? -/
def IsBranchTarget (s : State) (imm : BitVec 16) (target : Word) : Prop :=
  (target.toNat : Int) = ((transferBase s).toNat + 4 * imm.toInt) % 4294967296

/-- Is an address the target `(Base & 0xF0000000) | (target26 << 2)` (R202)? -/
def IsJumpTarget (s : State) (field : BitVec 26) (target : Word) : Prop :=
  target.toNat = (transferBase s).toNat / 268435456 * 268435456 + 4 * field.toNat

/-- The load of a width that zero-extends: LBU, LHU, LW. -/
def loadInstr (n : Width) (rt rs : RegIdx) (imm : BitVec 16) : Instr :=
  match n with
  | .byte => .lbu rt rs imm
  | .half => .lhu rt rs imm
  | .word => .lw rt rs imm

/-- The store of a width: SB, SH, SW. -/
def storeInstr (n : Width) (rt rs : RegIdx) (imm : BitVec 16) : Instr :=
  match n with
  | .byte => .sb rt rs imm
  | .half => .sh rt rs imm
  | .word => .sw rt rs imm

/-- How an instruction ends. -/
abbrev Result := Host.Outcome State Fault Refusal

/-! ## Every form of a load and of a store, over what a window answers -/

/-- Every aligned form of a load (spec/44_load_store.md R231 to R235, R274) where reading `n` bytes at the effective
address leaves the state `u n` and gives the low bytes of `v n`. -/
structure EveryLoad (s : State) (rt rs : RegIdx) (imm : BitVec 16) (u : Width → State) (v : Width → Word) :
    Prop where
  lb : ∃ t x, exec (.lb rt rs imm) s = .next t ∧ Loaded (u .byte) t rt x ∧ x.toInt = (byteOf (v .byte) 0).toInt
  lbu : ∃ t x, exec (.lbu rt rs imm) s = .next t ∧ Loaded (u .byte) t rt x ∧ x.toNat = (byteOf (v .byte) 0).toNat
  lh : (effectiveAddress s rs imm).toNat % 2 = 0 → ∃ t x, exec (.lh rt rs imm) s = .next t ∧
    Loaded (u .half) t rt x ∧ x.toInt = 256 * (byteOf (v .half) 1).toInt + (byteOf (v .half) 0).toNat
  lhu : (effectiveAddress s rs imm).toNat % 2 = 0 → ∃ t x, exec (.lhu rt rs imm) s = .next t ∧
    Loaded (u .half) t rt x ∧ x.toNat = 256 * (byteOf (v .half) 1).toNat + (byteOf (v .half) 0).toNat
  lw : (effectiveAddress s rs imm).toNat % 4 = 0 →
    ∃ t, exec (.lw rt rs imm) s = .next t ∧ Loaded (u .word) t rt (v .word)
  lwc2 : (effectiveAddress s rs imm).toNat % 4 = 0 → exec (.lwc2 rt rs imm) s = .next { (u .word).advanced with
    portLog := .cop2WriteData rt (v .word) :: (u .word).portLog }

/-- LWL and LWR (R236, R237) where reading the aligned word leaves the state `u` and gives `m`. They merge with the
register as an instruction reads it (DEDUCED for `LOAD_DELAY`, log entry 8). -/
structure EveryMergedLoad (s : State) (rt rs : RegIdx) (imm : BitVec 16) (u : State) (m : Word) : Prop where
  lwl : ∃ t x, exec (.lwl rt rs imm) s = .next t ∧ Loaded u t rt x ∧ ∀ j, j < 4 → byteOf x j =
    if 3 ≤ j + (effectiveAddress s rs imm).toNat % 4 then byteOf m (j + (effectiveAddress s rs imm).toNat % 4 - 3)
    else byteOf (s.readReg rt) j
  lwr : ∃ t x, exec (.lwr rt rs imm) s = .next t ∧ Loaded u t rt x ∧ ∀ j, j < 4 → byteOf x j =
    if j + (effectiveAddress s rs imm).toNat % 4 ≤ 3 then byteOf m (j + (effectiveAddress s rs imm).toNat % 4)
    else byteOf (s.readReg rt) j

/-- Every aligned form of a store (R238 to R240, R275) ends as `P u n v` says, `u` being the state in which the low
`n` bytes of `v` are written: SWC2 has asked the collaborator for its value by then. -/
structure EveryStore (s : State) (rt rs : RegIdx) (imm : BitVec 16) (P : State → Width → Word → Result → Prop) :
    Prop where
  sb : P s .byte (s.readReg rt) (exec (.sb rt rs imm) s)
  sh : (effectiveAddress s rs imm).toNat % 2 = 0 → P s .half (s.readReg rt) (exec (.sh rt rs imm) s)
  sw : (effectiveAddress s rs imm).toNat % 4 = 0 → P s .word (s.readReg rt) (exec (.sw rt rs imm) s)
  swc2 : (effectiveAddress s rs imm).toNat % 4 = 0 →
    P (s.tell (.cop2ReadData rt)) .word (Config.cop2ReadData (.cop2ReadData rt :: s.portLog))
      (exec (.swc2 rt rs imm) s)

/-- SWL and SWR (R241, R242) where reading the aligned word gives `m`: each ends as `P x` says of the merged word `x`
it writes back. -/
structure EveryMergedStore (s : State) (rt rs : RegIdx) (imm : BitVec 16) (m : Word) (P : Word → Result → Prop) :
    Prop where
  swl : ∃ x, P x (exec (.swl rt rs imm) s) ∧ ∀ j, j < 4 → byteOf x j =
    if j ≤ (effectiveAddress s rs imm).toNat % 4 then
      byteOf (s.readReg rt) (j + 3 - (effectiveAddress s rs imm).toNat % 4)
    else byteOf m j
  swr : ∃ x, P x (exec (.swr rt rs imm) s) ∧ ∀ j, j < 4 → byteOf x j =
    if (effectiveAddress s rs imm).toNat % 4 ≤ j then
      byteOf (s.readReg rt) (j - (effectiveAddress s rs imm).toNat % 4)
    else byteOf m j

/-- The state after a read of `n` bytes at an offset of a window, but for its time: only a device is told of it
(spec/20_memory.md R76, R90). -/
def Machine.State.afterRead (s : State) (k : WindowKind) (o : Nat) (n : Width) : State :=
  match k with
  | .device w => s.tell (.devRead w o n)
  | _ => s

/-! ## Byte lanes and the registers of the core's own windows -/

/-- Does an access of a width at an offset touch bit `k` of its register (spec/60_exceptions.md R336)? -/
def TouchesBit (o : Nat) (n : Width) (k : Nat) : Prop := 8 * (o % 4) ≤ k ∧ k < 8 * (o % 4) + 8 * n.bytes

/-- `v` is the touched lanes of the read value `r` (R336). -/
def IsLaneRead (o : Nat) (n : Width) (r v : Word) : Prop :=
  ∀ k, v.getLsbD k = (decide (k < 8 * n.bytes) && r.getLsbD (k + 8 * (o % 4)))

/-- `r` is the stored value `old` after a write of `x`: the touched lanes replaced, the others kept (R336). -/
def IsLaneWrite (o : Nat) (n : Width) (old x r : Word) : Prop :=
  ∀ k, k < 32 → (TouchesBit o n k → r.getLsbD k = x.getLsbD (k - 8 * (o % 4))) ∧
    (¬ TouchesBit o n k → r.getLsbD k = old.getLsbD k)

/-- `r` is the read value of the interrupt controller's register at an offset: its `N_IRQ` bits, zero-extended
(R335). -/
def IntcRegIs (s : State) (o : Nat) (r : Word) : Prop :=
  o / 4 = 0 ∧ (∀ k, r.getLsbD k = (decide (k < s.params.nIrq) && s.iStat.getLsbD k)) ∨
  o / 4 = 1 ∧ ∀ k, r.getLsbD k = (decide (k < s.params.nIrq) && s.iMask.getLsbD k)

/-- `r` is the read value of the DMA register at an offset, 0 at the unused places of R340's map. -/
def DmaRegIs (s : State) (o : Nat) (r : Word) : Prop :=
  (∃ c : Channel, c.val < s.params.nDma ∧
    (o / 4 = 4 * c.val ∧ r = s.dma[c].madr ∨ o / 4 = 4 * c.val + 1 ∧ r = s.dma[c].bcr ∨
      o / 4 = 4 * c.val + 2 ∧ r = s.dma[c].chcr ∨ o / 4 = 4 * c.val + 3 ∧ r = 0)) ∨
  o / 4 = 0x1C ∧ r = s.dpcr ∨ o / 4 = 0x1D ∧ r = s.dicr ∨ (o / 4 = 0x1E ∨ o / 4 = 0x1F) ∧ r = 0

/-- `w` is the word a fetch gets from a window that is no storage (spec/20_memory.md R76, R82). -/
def WindowWord (s : State) (k : WindowKind) (o : Nat) (w : Word) : Prop :=
  match k with
  | .intc => ∃ r, IntcRegIs s o r ∧ IsLaneRead o .word r w
  | .dma => s.dicr.getLsbD 31 = dmaIrq s.dicr ∧ ∃ r, DmaRegIs s o r ∧ IsLaneRead o .word r w
  | .device d => w = Config.devRead (.devRead d o .word :: s.portLog)
  | .ram => False
  | .bios => False

/-- A bus write of the low `n` bytes of `x` to a device in state `u` ends as R76, R353 and R357 say: the device is told
once; each distance it answers with replaces that device's, the last one counting; a negative one is the fault. -/
def DeviceTold (w : DevWindow) (o cost : Nat) (u : State) (n : Width) (x : Word) (out : Result) : Prop :=
  ∃ v : Word, v.toNat = x.toNat % 2 ^ (8 * n.bytes) ∧
    let told := u.tell (.devWrite w o n v)
    let answer := Config.devWrite told.portLog
    ((∀ p ∈ answer, 0 ≤ p.2) → out = .next { (told.charge cost).advanced with
      sched := u.sched.map fun e => { e with
        next := (((answer.filter fun p => p.1 == e.device).getLast?).map Prod.snd).getD e.next } }) ∧
    ((∃ p ∈ answer, p.2 < 0) → ∃ d y, (d, y) ∈ answer ∧ y < 0 ∧ out = .fault (.negativeNextEvent d))

/-- A bus write to a register of the interrupt controller in state `u` ends as R335 and R336 say: writing 0 to a bit
of `I_STAT` clears it, `I_MASK` takes the touched bits, bits `N_IRQ` and above ignore the write. -/
def IntcStored (o cost : Nat) (u : State) (n : Width) (x : Word) (out : Result) : Prop :=
  ∃ t, out = .next t ∧ t = { (u.charge cost).advanced with iStat := t.iStat, iMask := t.iMask } ∧
    (o / 4 = 0 → t.iMask = u.iMask ∧ ∀ k, k < u.params.nIrq → k < 32 →
      (TouchesBit o n k → t.iStat.getLsbD k = (u.iStat.getLsbD k && x.getLsbD (k - 8 * (o % 4)))) ∧
      (¬ TouchesBit o n k → t.iStat.getLsbD k = u.iStat.getLsbD k)) ∧
    (o / 4 = 1 → t.iStat = u.iStat ∧ ∀ k, k < u.params.nIrq → k < 32 →
      (TouchesBit o n k → t.iMask.getLsbD k = x.getLsbD (k - 8 * (o % 4))) ∧
      (¬ TouchesBit o n k → t.iMask.getLsbD k = u.iMask.getLsbD k)) ∧
    (o / 4 = 0 ∨ o / 4 = 1 → ∀ k, u.params.nIrq ≤ k →
      (u.iStat.getLsbD k = false → t.iStat.getLsbD k = false) ∧ (u.iMask.getLsbD k = false → t.iMask.getLsbD k = false))

/-- A bus write to `DMA_MADR[c]` or `DMA_BCR[c]` in state `u` stores the touched lanes and nothing else; one to an
unused place does nothing (R340, R336). -/
def DmaStored (o cost : Nat) (u : State) (n : Width) (x : Word) (out : Result) : Prop :=
  (∀ c : Channel, c.val < u.params.nDma →
    (o / 4 = 4 * c.val → ∃ r, IsLaneWrite o n u.dma[c].madr x r ∧
      out = .next { (u.charge cost).advanced with dma := u.dma.set c { u.dma[c] with madr := r } }) ∧
    (o / 4 = 4 * c.val + 1 → ∃ r, IsLaneWrite o n u.dma[c].bcr x r ∧
      out = .next { (u.charge cost).advanced with dma := u.dma.set c { u.dma[c] with bcr := r } }) ∧
    (o / 4 = 4 * c.val + 3 → out = .next (u.charge cost).advanced)) ∧
  (o / 4 = 0x1E ∨ o / 4 = 0x1F → out = .next (u.charge cost).advanced)

/-- A bus write to `DMA_CHCR[c]` or `DPCR` in state `u` stores the touched lanes and then runs the arbiter (R340, R343,
R336). -/
def DmaStarted (o cost : Nat) (u : State) (n : Width) (x : Word) (out : Result) : Prop :=
  (∀ c : Channel, c.val < u.params.nDma → o / 4 = 4 * c.val + 2 → ∃ r, IsLaneWrite o n u.dma[c].chcr x r ∧
    out = .next ((dmaService { u with dma := u.dma.set c { u.dma[c] with chcr := r } }).charge cost).advanced) ∧
  (o / 4 = 0x1C → ∃ r, IsLaneWrite o n u.dpcr x r ∧
    out = .next ((dmaService { u with dpcr := r }).charge cost).advanced)

/-- The composite DMA interrupt in the bits of DICR (R342). -/
def DmaIrqBits (d : Word) : Prop :=
  d.getLsbD 15 = true ∨ d.getLsbD 23 = true ∧ ∃ c, c < 7 ∧ d.getLsbD (16 + c) = true ∧ d.getLsbD (24 + c) = true

/-- A bus write to DICR in state `u` ends as R341, R342, R345 and R348 say, bit by bit. Line 3 is raised only where
`3 < N_IRQ`, the range of R334 (DESIGN CHOICE, log entry 3). -/
def DicrStored (o cost : Nat) (u : State) (n : Width) (x : Word) (out : Result) : Prop :=
  ∃ t, out = .next t ∧ t = { (u.charge cost).advanced with dicr := t.dicr, iStat := t.iStat } ∧
    (∀ k, (k < 6 ∨ k = 15 ∨ 16 ≤ k ∧ k < 24) →
      (TouchesBit o n k → t.dicr.getLsbD k = x.getLsbD (k - 8 * (o % 4))) ∧
      (¬ TouchesBit o n k → t.dicr.getLsbD k = u.dicr.getLsbD k)) ∧
    (∀ k, 6 ≤ k → k < 15 → t.dicr.getLsbD k = false) ∧
    (∀ k, 24 ≤ k → k < 31 →
      (TouchesBit o n k → t.dicr.getLsbD k = (u.dicr.getLsbD k && !x.getLsbD (k - 8 * (o % 4)))) ∧
      (¬ TouchesBit o n k → t.dicr.getLsbD k = u.dicr.getLsbD k)) ∧
    (t.dicr.getLsbD 31 = true ↔ DmaIrqBits t.dicr) ∧
    (∀ k, t.iStat.getLsbD k = true ↔ u.iStat.getLsbD k = true ∨
      k = 3 ∧ 3 < u.params.nIrq ∧ t.dicr.getLsbD 31 = true ∧ u.dicr.getLsbD 31 = false)

/-- Is channel `c` ready to run (R343)? In the bits of its control register and of DPCR. -/
def ChannelReady (s : State) (c : Channel) : Prop :=
  c.val < s.params.nDma ∧ s.dma[c].chcr.getLsbD 24 = true ∧ s.dpcr.getLsbD (4 * c.val + 3) = true ∧
    (s.dma[c].chcr.getLsbD 9 = true ∨ s.dma[c].chcr.getLsbD 10 = true ∨ s.dma[c].chcr.getLsbD 28 = true)

/-- `t` is `s` after one turn of R343's loop for channel `c`: the transfer's reply in `DMA_MADR[c]` and
`DMA_BCR[c]`, each byte of RAM the last one the reply gives for its index, else as before (log entry 16), bits 24 and 28
of `DMA_CHCR[c]` cleared, and the completion of R344. Line 3 is raised only where `3 < N_IRQ`, the range of R334 (DESIGN
CHOICE, log entry 3). -/
structure Served (s t : State) (c : Channel) (reply : DmaReply) : Prop where
  rest : t = { s with
    ram := t.ram, dma := t.dma, dicr := t.dicr, iStat := t.iStat
    portLog := .dmaRun c s.dma[c].madr s.dma[c].bcr s.dma[c].chcr s.ram :: s.portLog }
  madr : t.dma[c].madr = reply.madr
  bcr : t.dma[c].bcr = reply.bcr
  chcr : ∀ k, t.dma[c].chcr.getLsbD k = (decide (k ≠ 24 ∧ k ≠ 28) && s.dma[c].chcr.getLsbD k)
  others : ∀ d, d ≠ c → t.dma[d] = s.dma[d]
  ram : Memory.wf Config.ramSize s.ram = true → ∀ p, t.ram.get p =
    (((reply.ramWrites.filter fun q => q.1 % Config.ramSize == p).getLast?).map Prod.snd).getD (s.ram.get p)
  flag : ∀ k, k < 31 → t.dicr.getLsbD k = (s.dicr.getLsbD k || decide (k = 24 + c.val) && s.dicr.getLsbD (16 + c.val))
  composite : t.dicr.getLsbD 31 = true ↔ DmaIrqBits t.dicr
  line : ∀ k, t.iStat.getLsbD k = true ↔ s.iStat.getLsbD k = true ∨
    k = 3 ∧ 3 < s.params.nIrq ∧ t.dicr.getLsbD 31 = true ∧ s.dicr.getLsbD 31 = false

/-- The state in which an instruction that raised `e` in state `s` leaves the machine (spec/60_exceptions.md R300). -/
def afterRaise (e : Exc) (s : State) : State := { enterException e s with stale := none }

end Sys2Proof
end

