-- ==== Sys2Proof/Certificates/Slice0/Obligations.lean ====
section
/-! DEFINITION. The statements for the provers. Each formalises rules of spec/ (cited in OBLIGATIONS.json) or is
derived from sections of it; the words they use stand in Sys2Proof/Safety.lean. -/

open Sys2Proof Sys2Proof.Machine

/-! ## Encoding (spec/30_encoding.md) -/

/-- R101: every field is the slice of the word the table gives. -/
def Obligations.FieldsAreSlices : Prop :=
  ∀ w : Word,
    (opcodeOf w).toNat = w.toNat / 2 ^ 26 ∧ (rsOf w).val = w.toNat / 2 ^ 21 % 32 ∧
    (rtOf w).val = w.toNat / 2 ^ 16 % 32 ∧ (rdOf w).val = w.toNat / 2 ^ 11 % 32 ∧
    (shamtOf w).toNat = w.toNat / 2 ^ 6 % 32 ∧ (functOf w).toNat = w.toNat % 64 ∧
    (immOf w).toNat = w.toNat % 2 ^ 16 ∧ (targetOf w).toNat = w.toNat % 2 ^ 26

/-- R123, the table's part: at most one row of the opcode table selects a word, the decoder gives that row's
instruction, and RESERVED where no row selects the word. -/
def Obligations.OpcodeTableAgrees : Prop :=
  ∀ w : Word, (opcodeTable.filter fun r => r.selects w).map TableRow.mnemonic =
    if (decodeWord w).mnemonic = "RESERVED" then [] else [(decodeWord w).mnemonic]

/-- Decode and encode agree: every well-formed instruction, with every operand at every value its encoding admits,
is read back from the four bytes of its word, whatever bytes follow. -/
def Obligations.DecodeOfEncode : Prop :=
  ∀ (i : Instr) (rest : List Byte), i.wf = true →
    decodeWord (encode i) = i ∧ decodeBytes (bytesOfWord (encode i) ++ rest) = .ok (i, rest)

/-- Words the spec writes out in its examples, each with the instruction it stands for. -/
def Obligations.ExampleWords : Prop :=
  decodeWord 0x00221825#32 = .or 3 1 2 ∧ decodeWord 0x00021900#32 = .sll 3 2 4 ∧
  decodeWord 0x00221804#32 = .sllv 3 2 1 ∧ decodeWord 0x2822FFFF#32 = .slti 2 1 0xFFFF#16 ∧
  decodeWord 0x0022001A#32 = .div 1 2 ∧ decodeWord 0x1420FFFE#32 = .bne 1 0 0xFFFE#16 ∧
  decodeWord 0x04310003#32 = .bgezal 1 0x0003#16 ∧ decodeWord 0x0C000800#32 = .jal 0x0000800#26 ∧
  decodeWord 0x0040F809#32 = .jalr 31 2 ∧ decodeWord 0x98220001#32 = .lwr 2 1 0x0001#16 ∧
  decodeWord 0x40826000#32 = .mtc0 2 12 ∧ decodeWord 0x42000010#32 = .rfe ∧
  decodeWord 0x4842F800#32 = .cfc2 2 31 ∧ decodeWord 0x4A180001#32 = .cop2 0x0180001#25 ∧
  decodeWord 0xE8230008#32 = .swc2 3 1 0x0008#16 ∧ decodeWord 0xFC000000#32 = .reserved 0xFC000000#32

/-! ## Register-register and register-immediate ALU (spec/40_alu_register.md, spec/41_alu_immediate.md) -/

/-- R131 to R134, R165 to R167: bit by bit, with the frame, and the words that select each instruction. -/
def Obligations.LogicalInstructions : Prop :=
  (∀ (s : State) (rd rs rt : RegIdx),
    (∃ t v, exec (.or rd rs rt) s = .next t ∧ WroteReg s t rd v ∧
      ∀ k, k < 32 → v.getLsbD k = ((s.readReg rs).getLsbD k || (s.readReg rt).getLsbD k)) ∧
    (∃ t v, exec (.and rd rs rt) s = .next t ∧ WroteReg s t rd v ∧
      ∀ k, k < 32 → v.getLsbD k = ((s.readReg rs).getLsbD k && (s.readReg rt).getLsbD k)) ∧
    (∃ t v, exec (.xor rd rs rt) s = .next t ∧ WroteReg s t rd v ∧
      ∀ k, k < 32 → v.getLsbD k = ((s.readReg rs).getLsbD k != (s.readReg rt).getLsbD k)) ∧
    (∃ t v, exec (.nor rd rs rt) s = .next t ∧ WroteReg s t rd v ∧
      ∀ k, k < 32 → v.getLsbD k = !((s.readReg rs).getLsbD k || (s.readReg rt).getLsbD k))) ∧
  (∀ (s : State) (rt rs : RegIdx) (imm : BitVec 16),
    (∃ t v, exec (.andi rt rs imm) s = .next t ∧ WroteReg s t rt v ∧
      ∀ k, k < 32 → v.getLsbD k = ((s.readReg rs).getLsbD k && imm.getLsbD k)) ∧
    (∃ t v, exec (.ori rt rs imm) s = .next t ∧ WroteReg s t rt v ∧
      ∀ k, k < 32 → v.getLsbD k = ((s.readReg rs).getLsbD k || imm.getLsbD k)) ∧
    (∃ t v, exec (.xori rt rs imm) s = .next t ∧ WroteReg s t rt v ∧
      ∀ k, k < 32 → v.getLsbD k = ((s.readReg rs).getLsbD k != imm.getLsbD k))) ∧
  (∀ w : Word,
    (opcodeOf w = 0x00#6 →
      (functOf w = 0x25#6 → decodeWord w = .or (rdOf w) (rsOf w) (rtOf w)) ∧
      (functOf w = 0x24#6 → decodeWord w = .and (rdOf w) (rsOf w) (rtOf w)) ∧
      (functOf w = 0x26#6 → decodeWord w = .xor (rdOf w) (rsOf w) (rtOf w)) ∧
      (functOf w = 0x27#6 → decodeWord w = .nor (rdOf w) (rsOf w) (rtOf w))) ∧
    (opcodeOf w = 0x0C#6 → decodeWord w = .andi (rtOf w) (rsOf w) (immOf w)) ∧
    (opcodeOf w = 0x0D#6 → decodeWord w = .ori (rtOf w) (rsOf w) (immOf w)) ∧
    (opcodeOf w = 0x0E#6 → decodeWord w = .xori (rtOf w) (rsOf w) (immOf w)))

/-- R136, R138, R162: modulo 2^32, never an exception. -/
def Obligations.WrappingAddition : Prop :=
  (∀ (s : State) (rd rs rt : RegIdx),
    (∃ t v, exec (.addu rd rs rt) s = .next t ∧ WroteReg s t rd v ∧
      v.toNat = ((s.readReg rs).toNat + (s.readReg rt).toNat) % 4294967296) ∧
    (∃ t v, exec (.subu rd rs rt) s = .next t ∧ WroteReg s t rd v ∧
      (v.toNat : Int) = ((s.readReg rs).toNat - (s.readReg rt).toNat : Int) % 4294967296)) ∧
  (∀ (s : State) (rt rs : RegIdx) (imm : BitVec 16),
    ∃ t v, exec (.addiu rt rs imm) s = .next t ∧ WroteReg s t rt v ∧
      (v.toNat : Int) = ((s.readReg rs).toNat + imm.toInt) % 4294967296) ∧
  (∀ w : Word,
    (opcodeOf w = 0x00#6 →
      (functOf w = 0x21#6 → decodeWord w = .addu (rdOf w) (rsOf w) (rtOf w)) ∧
      (functOf w = 0x23#6 → decodeWord w = .subu (rdOf w) (rsOf w) (rtOf w))) ∧
    (opcodeOf w = 0x09#6 → decodeWord w = .addiu (rtOf w) (rsOf w) (immOf w)))

/-- R135, R137, R161 for every value of `OVERFLOW_TRAPS`: the exact sum or difference where it fits or traps are off,
Overflow and nothing written where it does not. -/
def Obligations.TrappingAddition : Prop :=
  (∀ (s : State) (rd rs rt : RegIdx),
    let a := s.readReg rs
    let b := s.readReg rt
    ((s.params.overflowTraps = false ∨ (-2147483648 ≤ a.toInt + b.toInt ∧ a.toInt + b.toInt ≤ 2147483647) →
      ∃ t v, exec (.add rd rs rt) s = .next t ∧ WroteReg s t rd v ∧
        v.toNat = (a.toNat + b.toNat) % 4294967296) ∧
    (s.params.overflowTraps = true → (a.toInt + b.toInt < -2147483648 ∨ 2147483647 < a.toInt + b.toInt) →
      exec (.add rd rs rt) s = .next (afterRaise .overflow s))) ∧
    ((s.params.overflowTraps = false ∨ (-2147483648 ≤ a.toInt - b.toInt ∧ a.toInt - b.toInt ≤ 2147483647) →
      ∃ t v, exec (.sub rd rs rt) s = .next t ∧ WroteReg s t rd v ∧
        (v.toNat : Int) = (a.toNat - b.toNat : Int) % 4294967296) ∧
    (s.params.overflowTraps = true → (a.toInt - b.toInt < -2147483648 ∨ 2147483647 < a.toInt - b.toInt) →
      exec (.sub rd rs rt) s = .next (afterRaise .overflow s)))) ∧
  (∀ (s : State) (rt rs : RegIdx) (imm : BitVec 16),
    let a := s.readReg rs
    (s.params.overflowTraps = false ∨ (-2147483648 ≤ a.toInt + imm.toInt ∧ a.toInt + imm.toInt ≤ 2147483647) →
      ∃ t v, exec (.addi rt rs imm) s = .next t ∧ WroteReg s t rt v ∧
        (v.toNat : Int) = (a.toNat + imm.toInt) % 4294967296) ∧
    (s.params.overflowTraps = true → (a.toInt + imm.toInt < -2147483648 ∨ 2147483647 < a.toInt + imm.toInt) →
      exec (.addi rt rs imm) s = .next (afterRaise .overflow s))) ∧
  (∀ w : Word,
    (opcodeOf w = 0x00#6 →
      (functOf w = 0x20#6 → decodeWord w = .add (rdOf w) (rsOf w) (rtOf w)) ∧
      (functOf w = 0x22#6 → decodeWord w = .sub (rdOf w) (rsOf w) (rtOf w))) ∧
    (opcodeOf w = 0x08#6 → decodeWord w = .addi (rtOf w) (rsOf w) (immOf w)))

/-- R147, its "equivalently": the exact result leaves the 32-bit range just where the sign bits say so. -/
def Obligations.OverflowBySignBits : Prop :=
  ∀ a b : Word,
    ((a.toInt + b.toInt < -2147483648 ∨ 2147483647 < a.toInt + b.toInt) ↔
      (a.getLsbD 31 = b.getLsbD 31 ∧ (a + b).getLsbD 31 ≠ a.getLsbD 31)) ∧
    ((a.toInt - b.toInt < -2147483648 ∨ 2147483647 < a.toInt - b.toInt) ↔
      (a.getLsbD 31 ≠ b.getLsbD 31 ∧ (a - b).getLsbD 31 ≠ a.getLsbD 31)) ∧
    (addOverflows a b = true ↔ (a.toInt + b.toInt < -2147483648 ∨ 2147483647 < a.toInt + b.toInt)) ∧
    (subOverflows a b = true ↔ (a.toInt - b.toInt < -2147483648 ∨ 2147483647 < a.toInt - b.toInt))

/-- R139, R140, R163, R164. -/
def Obligations.Comparisons : Prop :=
  (∀ (s : State) (rd rs rt : RegIdx),
    (∃ t v, exec (.slt rd rs rt) s = .next t ∧ WroteReg s t rd v ∧
      v.toNat = if (s.readReg rs).toInt < (s.readReg rt).toInt then 1 else 0) ∧
    (∃ t v, exec (.sltu rd rs rt) s = .next t ∧ WroteReg s t rd v ∧
      v.toNat = if (s.readReg rs).toNat < (s.readReg rt).toNat then 1 else 0)) ∧
  (∀ (s : State) (rt rs : RegIdx) (imm : BitVec 16),
    (∃ t v, exec (.slti rt rs imm) s = .next t ∧ WroteReg s t rt v ∧
      v.toNat = if (s.readReg rs).toInt < imm.toInt then 1 else 0) ∧
    (∃ t v, exec (.sltiu rt rs imm) s = .next t ∧ WroteReg s t rt v ∧
      v.toNat = if ((s.readReg rs).toNat : Int) < imm.toInt % 4294967296 then 1 else 0)) ∧
  (∀ w : Word,
    (opcodeOf w = 0x00#6 →
      (functOf w = 0x2A#6 → decodeWord w = .slt (rdOf w) (rsOf w) (rtOf w)) ∧
      (functOf w = 0x2B#6 → decodeWord w = .sltu (rdOf w) (rsOf w) (rtOf w))) ∧
    (opcodeOf w = 0x0A#6 → decodeWord w = .slti (rtOf w) (rsOf w) (immOf w)) ∧
    (opcodeOf w = 0x0B#6 → decodeWord w = .sltiu (rtOf w) (rsOf w) (immOf w)))

/-- R141 to R146 and R168: by the `shamt` field and by the low five bits of a register, SRA as division rounding
down; LUI, the immediate moved up 16 bits. -/
def Obligations.ShiftsAndLoadUpper : Prop :=
  (∀ (s : State) (rt : RegIdx) (imm : BitVec 16),
    ∃ t v, exec (.lui rt imm) s = .next t ∧ WroteReg s t rt v ∧ v.toNat = imm.toNat * 65536) ∧
  (∀ w : Word, opcodeOf w = 0x0F#6 → decodeWord w = .lui (rtOf w) (immOf w)) ∧
  (∀ (s : State) (rd rt : RegIdx) (shamt : BitVec 5),
    (∃ t v, exec (.sll rd rt shamt) s = .next t ∧ WroteReg s t rd v ∧
      v.toNat = (s.readReg rt).toNat * 2 ^ shamt.toNat % 4294967296) ∧
    (∃ t v, exec (.srl rd rt shamt) s = .next t ∧ WroteReg s t rd v ∧
      v.toNat = (s.readReg rt).toNat / 2 ^ shamt.toNat) ∧
    (∃ t v, exec (.sra rd rt shamt) s = .next t ∧ WroteReg s t rd v ∧
      v.toInt = (s.readReg rt).toInt.fdiv (2 ^ shamt.toNat))) ∧
  (∀ (s : State) (rd rt rs : RegIdx),
    (∃ t v, exec (.sllv rd rt rs) s = .next t ∧ WroteReg s t rd v ∧
      v.toNat = (s.readReg rt).toNat * 2 ^ ((s.readReg rs).toNat % 32) % 4294967296) ∧
    (∃ t v, exec (.srlv rd rt rs) s = .next t ∧ WroteReg s t rd v ∧
      v.toNat = (s.readReg rt).toNat / 2 ^ ((s.readReg rs).toNat % 32)) ∧
    (∃ t v, exec (.srav rd rt rs) s = .next t ∧ WroteReg s t rd v ∧
      v.toInt = (s.readReg rt).toInt.fdiv (2 ^ ((s.readReg rs).toNat % 32)))) ∧
  (∀ w : Word, opcodeOf w = 0x00#6 →
    (functOf w = 0x00#6 → decodeWord w = .sll (rdOf w) (rtOf w) (shamtOf w)) ∧
    (functOf w = 0x02#6 → decodeWord w = .srl (rdOf w) (rtOf w) (shamtOf w)) ∧
    (functOf w = 0x03#6 → decodeWord w = .sra (rdOf w) (rtOf w) (shamtOf w)) ∧
    (functOf w = 0x04#6 → decodeWord w = .sllv (rdOf w) (rtOf w) (rsOf w)) ∧
    (functOf w = 0x06#6 → decodeWord w = .srlv (rdOf w) (rtOf w) (rsOf w)) ∧
    (functOf w = 0x07#6 → decodeWord w = .srav (rdOf w) (rtOf w) (rsOf w)))

/-! ## Multiply, divide, HI and LO (spec/42_muldiv.md) -/

/-- R181, R182: HI and LO together are the exact product; nothing else changes. -/
def Obligations.Products : Prop :=
  (∀ (s : State) (rs rt : RegIdx),
    (∃ hi lo : Word, exec (.mult rs rt) s = .next { s.advanced with hi := hi, lo := lo } ∧
      hi.toInt * 4294967296 + lo.toNat = (s.readReg rs).toInt * (s.readReg rt).toInt) ∧
    (∃ hi lo : Word, exec (.multu rs rt) s = .next { s.advanced with hi := hi, lo := lo } ∧
      hi.toNat * 4294967296 + lo.toNat = (s.readReg rs).toNat * (s.readReg rt).toNat)) ∧
  (∀ w : Word, opcodeOf w = 0x00#6 →
    (functOf w = 0x18#6 → decodeWord w = .mult (rsOf w) (rtOf w)) ∧
    (functOf w = 0x19#6 → decodeWord w = .multu (rsOf w) (rtOf w)))

/-- R183, R185 outside the corners: quotient and remainder of the division that rounds toward zero, the remainder
smaller than the divisor and of the sign of the dividend. -/
def Obligations.Divisions : Prop :=
  (∀ (s : State) (rs rt : RegIdx),
    let n := (s.readReg rs).toInt
    let d := (s.readReg rt).toInt
    d ≠ 0 → ¬ (n = -2147483648 ∧ d = -1) →
    ∃ hi lo : Word, exec (.div rs rt) s = .next { s.advanced with hi := hi, lo := lo } ∧
      lo.toInt * d + hi.toInt = n ∧ hi.toInt.natAbs < d.natAbs ∧ (0 ≤ n → 0 ≤ hi.toInt) ∧ (n ≤ 0 → hi.toInt ≤ 0)) ∧
  (∀ (s : State) (rs rt : RegIdx),
    let n := (s.readReg rs).toNat
    let d := (s.readReg rt).toNat
    d ≠ 0 →
    ∃ hi lo : Word, exec (.divu rs rt) s = .next { s.advanced with hi := hi, lo := lo } ∧
      lo.toNat * d + hi.toNat = n ∧ hi.toNat < d) ∧
  (∀ w : Word, opcodeOf w = 0x00#6 →
    (functOf w = 0x1A#6 → decodeWord w = .div (rsOf w) (rtOf w)) ∧
    (functOf w = 0x1B#6 → decodeWord w = .divu (rsOf w) (rtOf w)))

/-- R184: the corners never raise. With the default of `DIV_CORNERS` they give the table's values; with any other
value of the parameter, HI and LO are a function of the operands alone. -/
def Obligations.DivisionCorners : Prop :=
  (∀ (s : State) (rs rt : RegIdx), s.params.divCorners = .r3000a →
    (s.readReg rt = 0 →
      exec (.div rs rt) s = .next { s.advanced with
        hi := s.readReg rs
        lo := if (s.readReg rs).toInt < 0 then 0x00000001#32 else 0xFFFFFFFF#32 } ∧
      exec (.divu rs rt) s = .next { s.advanced with hi := s.readReg rs, lo := 0xFFFFFFFF#32 }) ∧
    (s.readReg rs = 0x80000000#32 → s.readReg rt = 0xFFFFFFFF#32 →
      exec (.div rs rt) s = .next { s.advanced with hi := 0, lo := 0x80000000#32 })) ∧
  (∀ (k : Nat) (n d : Word),
    (d = 0 ∨ (n = 0x80000000#32 ∧ d = 0xFFFFFFFF#32) → ∃ hi lo : Word, ∀ (s : State) (rs rt : RegIdx),
      s.params.divCorners = .other k → s.readReg rs = n → s.readReg rt = d →
      exec (.div rs rt) s = .next { s.advanced with hi := hi, lo := lo }) ∧
    (d = 0 → ∃ hi lo : Word, ∀ (s : State) (rs rt : RegIdx),
      s.params.divCorners = .other k → s.readReg rs = n → s.readReg rt = d →
      exec (.divu rs rt) s = .next { s.advanced with hi := hi, lo := lo }))

/-- R186 to R189. -/
def Obligations.HiLoMoves : Prop :=
  (∀ (s : State) (r : RegIdx),
    (∃ t, exec (.mfhi r) s = .next t ∧ WroteReg s t r s.hi) ∧
    (∃ t, exec (.mflo r) s = .next t ∧ WroteReg s t r s.lo) ∧
    exec (.mthi r) s = .next { s.advanced with hi := s.readReg r } ∧
    exec (.mtlo r) s = .next { s.advanced with lo := s.readReg r }) ∧
  (∀ w : Word, opcodeOf w = 0x00#6 →
    (functOf w = 0x10#6 → decodeWord w = .mfhi (rdOf w)) ∧ (functOf w = 0x11#6 → decodeWord w = .mthi (rsOf w)) ∧
    (functOf w = 0x12#6 → decodeWord w = .mflo (rdOf w)) ∧ (functOf w = 0x13#6 → decodeWord w = .mtlo (rsOf w)))

/-! ## Branches and jumps (spec/43_branch_jump.md) -/

/-- R204 to R209, R201: the delay-slot instruction is next either way; after it the target or the instruction that
follows. -/
def Obligations.ConditionalBranches : Prop :=
  (∀ (s : State) (rs rt : RegIdx) (imm : BitVec 16), ∃ target, IsBranchTarget s imm target ∧
    let goes := fun c : Prop => fun t : State =>
      (c → t = { s.advanced with npc := target, bds := true }) ∧ (¬ c → t = { s.advanced with bds := true })
    (∃ t, exec (.beq rs rt imm) s = .next t ∧ goes (s.readReg rs = s.readReg rt) t) ∧
    (∃ t, exec (.bne rs rt imm) s = .next t ∧ goes (s.readReg rs ≠ s.readReg rt) t) ∧
    (∃ t, exec (.blez rs imm) s = .next t ∧ goes ((s.readReg rs).toInt ≤ 0) t) ∧
    (∃ t, exec (.bgtz rs imm) s = .next t ∧ goes (0 < (s.readReg rs).toInt) t) ∧
    (∃ t, exec (.bltz rs imm) s = .next t ∧ goes ((s.readReg rs).toInt < 0) t) ∧
    (∃ t, exec (.bgez rs imm) s = .next t ∧ goes (0 ≤ (s.readReg rs).toInt) t)) ∧
  (∀ w : Word,
    (opcodeOf w = 0x04#6 → decodeWord w = .beq (rsOf w) (rtOf w) (immOf w)) ∧
    (opcodeOf w = 0x05#6 → decodeWord w = .bne (rsOf w) (rtOf w) (immOf w)) ∧
    (opcodeOf w = 0x06#6 → decodeWord w = .blez (rsOf w) (immOf w)) ∧
    (opcodeOf w = 0x07#6 → decodeWord w = .bgtz (rsOf w) (immOf w)) ∧
    (opcodeOf w = 0x01#6 →
      (rtOf w = 0x00 → decodeWord w = .bltz (rsOf w) (immOf w)) ∧
      (rtOf w = 0x01 → decodeWord w = .bgez (rsOf w) (immOf w))))

/-- R210, R211, R217: the link register 31 gets `PC + 8` whether or not the branch is taken, the condition read
before. -/
def Obligations.BranchAndLink : Prop :=
  (∀ (s : State) (rs : RegIdx) (imm : BitVec 16), ∃ target, IsBranchTarget s imm target ∧
    (∃ t, exec (.bltzal rs imm) s = .next t ∧
      Linked s t 31 (if (s.readReg rs).toInt < 0 then target else s.npc + 4)) ∧
    (∃ t, exec (.bgezal rs imm) s = .next t ∧
      Linked s t 31 (if 0 ≤ (s.readReg rs).toInt then target else s.npc + 4))) ∧
  (∀ w : Word, opcodeOf w = 0x01#6 →
    (rtOf w = 0x10 → decodeWord w = .bltzal (rsOf w) (immOf w)) ∧
    (rtOf w = 0x11 → decodeWord w = .bgezal (rsOf w) (immOf w)))

/-- R212, R213, R202: the target lies in the 256 MB region of the base and is always a multiple of 4. -/
def Obligations.Jumps : Prop :=
  (∀ (s : State) (field : BitVec 26), ∃ target, IsJumpTarget s field target ∧ target.toNat % 4 = 0 ∧
    exec (.j field) s = .next { s.advanced with npc := target, bds := true } ∧
    ∃ t, exec (.jal field) s = .next t ∧ Linked s t 31 target) ∧
  (∀ w : Word,
    (opcodeOf w = 0x02#6 → decodeWord w = .j (targetOf w)) ∧
    (opcodeOf w = 0x03#6 → decodeWord w = .jal (targetOf w)))

/-- R214, R215, R203: a target that is a multiple of 4 is jumped to, the old value of `x[rs]` deciding; any other
raises AddressErrorLoad in the jump itself and links nothing. -/
def Obligations.RegisterJumps : Prop :=
  (∀ (s : State) (rd rs : RegIdx),
    ((s.readReg rs).toNat % 4 = 0 →
      exec (.jr rs) s = .next { s.advanced with npc := s.readReg rs, bds := true } ∧
      ∃ t, exec (.jalr rd rs) s = .next t ∧ Linked s t rd (s.readReg rs)) ∧
    ((s.readReg rs).toNat % 4 ≠ 0 →
      exec (.jr rs) s = .next (afterRaise (.addressErrorLoad (s.readReg rs)) s) ∧
      exec (.jalr rd rs) s = .next (afterRaise (.addressErrorLoad (s.readReg rs)) s))) ∧
  (∀ w : Word, opcodeOf w = 0x00#6 →
    (functOf w = 0x08#6 → decodeWord w = .jr (rsOf w)) ∧
    (functOf w = 0x09#6 → decodeWord w = .jalr (rdOf w) (rsOf w)))

/-- R28, R200: whatever an instruction does, unless it raised, the instruction at NPC is the next one, so the
instruction after a control transfer always executes; and only a control transfer sets the delay-slot flag. -/
def Obligations.DelaySlotAlwaysRuns : Prop :=
  ∀ (i : Instr) (s t : State), exec i s = .next t →
    (t.pc = s.npc ∧ (t.bds = true → i.mnemonic ∈
        ["BEQ", "BNE", "BLEZ", "BGTZ", "BLTZ", "BGEZ", "BLTZAL", "BGEZAL", "J", "JAL", "JR", "JALR"]) ∧
      (t.bds = false → t.npc = s.npc + 4)) ∨
    (t.pc = exceptionVector s ∧ t.npc = exceptionVector s + 4 ∧ t.bds = false ∧ t.epc = restartAddress s)

/-! ## Loads and stores (spec/44_load_store.md, spec/20_memory.md) -/

/-- R230 to R235 in RAM and BIOS: the address, the bytes read least significant first, the extension, and the frame. -/
def Obligations.AlignedLoads : Prop :=
  (∀ (s : State) (rt rs : RegIdx) (imm : BitVec 16) (k : WindowKind) (o : Nat),
    let ea := effectiveAddress s rs imm
    let b := fun i => s.storedByte k (o + i)
    (ea.toNat : Int) = ((s.readReg rs).toNat + imm.toInt) % 4294967296 ∧
    (resolve s ea = some (k, o) → isStorage k = true →
      (∃ t v, exec (.lb rt rs imm) s = .next t ∧ Loaded (s.charge (s.latency ea .byte false)) t rt v ∧
        v.toInt = (b 0).toInt) ∧
      (∃ t v, exec (.lbu rt rs imm) s = .next t ∧ Loaded (s.charge (s.latency ea .byte false)) t rt v ∧
        v.toNat = (b 0).toNat) ∧
      (ea.toNat % 2 = 0 →
        (∃ t v, exec (.lh rt rs imm) s = .next t ∧ Loaded (s.charge (s.latency ea .half false)) t rt v ∧
          v.toInt = 256 * (b 1).toInt + (b 0).toNat) ∧
        (∃ t v, exec (.lhu rt rs imm) s = .next t ∧ Loaded (s.charge (s.latency ea .half false)) t rt v ∧
          v.toNat = 256 * (b 1).toNat + (b 0).toNat)) ∧
      (ea.toNat % 4 = 0 →
        ∃ t v, exec (.lw rt rs imm) s = .next t ∧ Loaded (s.charge (s.latency ea .word false)) t rt v ∧
          v.toNat = 16777216 * (b 3).toNat + 65536 * (b 2).toNat + 256 * (b 1).toNat + (b 0).toNat))) ∧
  (∀ w : Word,
    (opcodeOf w = 0x20#6 → decodeWord w = .lb (rtOf w) (rsOf w) (immOf w)) ∧
    (opcodeOf w = 0x24#6 → decodeWord w = .lbu (rtOf w) (rsOf w) (immOf w)) ∧
    (opcodeOf w = 0x21#6 → decodeWord w = .lh (rtOf w) (rsOf w) (immOf w)) ∧
    (opcodeOf w = 0x25#6 → decodeWord w = .lhu (rtOf w) (rsOf w) (immOf w)) ∧
    (opcodeOf w = 0x23#6 → decodeWord w = .lw (rtOf w) (rsOf w) (immOf w)))

/-- R236, R237 in RAM and BIOS, byte by byte: LWL fills the register from the top with the bytes up to `ea`, LWR from
the bottom with the bytes from `ea` on; the other bytes of the register stay. Under `LOAD_DELAY` the bytes that stay are
those of the register as an instruction reads it, just after a load its old value: the model's choice (DEDUCED, log
entry 8), as is that LWL and LWR are delayed. Without `LOAD_DELAY` nothing here rests on it. -/
def Obligations.UnalignedLoads : Prop :=
  (∀ (s : State) (rt rs : RegIdx) (imm : BitVec 16) (k : WindowKind) (o : Nat),
    let ea := effectiveAddress s rs imm
    let l := ea.toNat % 4
    (alignedWord ea).toNat = ea.toNat - l ∧
    (resolve s (alignedWord ea) = some (k, o) → isStorage k = true →
      (∃ t v, exec (.lwl rt rs imm) s = .next t ∧ Loaded (s.charge (s.latency (alignedWord ea) .word false)) t rt v ∧
        ∀ j, j < 4 → byteOf v j = if 3 ≤ j + l then s.storedByte k (o + (j + l - 3)) else byteOf (s.readReg rt) j) ∧
      (∃ t v, exec (.lwr rt rs imm) s = .next t ∧ Loaded (s.charge (s.latency (alignedWord ea) .word false)) t rt v ∧
        ∀ j, j < 4 → byteOf v j = if j + l ≤ 3 then s.storedByte k (o + (j + l)) else byteOf (s.readReg rt) j))) ∧
  (∀ w : Word,
    (opcodeOf w = 0x22#6 → decodeWord w = .lwl (rtOf w) (rsOf w) (immOf w)) ∧
    (opcodeOf w = 0x26#6 → decodeWord w = .lwr (rtOf w) (rsOf w) (immOf w)))

/-- R238 to R240 in RAM: the low bytes of `x[rt]`, least significant first, at the address the meaning computes, and
nothing else. -/
def Obligations.AlignedStores : Prop :=
  (∀ (s : State) (rt rs : RegIdx) (imm : BitVec 16) (o : Nat),
    let ea := effectiveAddress s rs imm
    let b := byteOf (s.readReg rt)
    Memory.wf Config.ramSize s.ram = true → (s.params.iscDropsStores = true → s.isc = false) →
    resolve s ea = some (.ram, o) →
      (∃ t, exec (.sb rt rs imm) s = .next t ∧ StoredRam (s.charge (s.latency ea .byte true)) t o 1 b) ∧
      (ea.toNat % 2 = 0 →
        ∃ t, exec (.sh rt rs imm) s = .next t ∧ StoredRam (s.charge (s.latency ea .half true)) t o 2 b) ∧
      (ea.toNat % 4 = 0 →
        ∃ t, exec (.sw rt rs imm) s = .next t ∧ StoredRam (s.charge (s.latency ea .word true)) t o 4 b)) ∧
  (∀ w : Word,
    (opcodeOf w = 0x28#6 → decodeWord w = .sb (rtOf w) (rsOf w) (immOf w)) ∧
    (opcodeOf w = 0x29#6 → decodeWord w = .sh (rtOf w) (rsOf w) (immOf w)) ∧
    (opcodeOf w = 0x2B#6 → decodeWord w = .sw (rtOf w) (rsOf w) (immOf w)))

/-- R241, R242 in RAM: SWL stores the top bytes of `x[rt]` from the word's start up to `ea`, SWR its bottom bytes from
`ea` to the word's end; every other byte, the rest of the word among them, reads as before. -/
def Obligations.UnalignedStores : Prop :=
  (∀ (s : State) (rt rs : RegIdx) (imm : BitVec 16) (o : Nat),
    let ea := effectiveAddress s rs imm
    let l := ea.toNat % 4
    let u := (s.charge (s.latency (alignedWord ea) .word false)).charge (s.latency (alignedWord ea) .word true)
    Memory.wf Config.ramSize s.ram = true → (s.params.iscDropsStores = true → s.isc = false) →
    resolve s (alignedWord ea) = some (.ram, o) →
      (∃ t, exec (.swl rt rs imm) s = .next t ∧
        StoredRam u t o (l + 1) fun j => byteOf (s.readReg rt) (j + 3 - l)) ∧
      (∃ t, exec (.swr rt rs imm) s = .next t ∧
        StoredRam u t (o + l) (4 - l) (byteOf (s.readReg rt)))) ∧
  (∀ w : Word,
    (opcodeOf w = 0x2A#6 → decodeWord w = .swl (rtOf w) (rsOf w) (immOf w)) ∧
    (opcodeOf w = 0x2E#6 → decodeWord w = .swr (rtOf w) (rsOf w) (immOf w)))

/-- R64, R303, R304: a misaligned halfword or word access raises the address error with the address, wherever the
address leads, and has no other effect. -/
def Obligations.MisalignedAccesses : Prop :=
  ∀ (s : State) (rt rs : RegIdx) (imm : BitVec 16),
    let ea := effectiveAddress s rs imm
    (ea.toNat % 2 ≠ 0 →
      exec (.lh rt rs imm) s = .next (afterRaise (.addressErrorLoad ea) s) ∧
      exec (.lhu rt rs imm) s = .next (afterRaise (.addressErrorLoad ea) s) ∧
      exec (.sh rt rs imm) s = .next (afterRaise (.addressErrorStore ea) s)) ∧
    (ea.toNat % 4 ≠ 0 →
      exec (.lw rt rs imm) s = .next (afterRaise (.addressErrorLoad ea) s) ∧
      exec (.lwc2 rt rs imm) s = .next (afterRaise (.addressErrorLoad ea) s) ∧
      exec (.sw rt rs imm) s = .next (afterRaise (.addressErrorStore ea) s) ∧
      exec (.swc2 rt rs imm) s = .next (afterRaise (.addressErrorStore ea) s))

/-- R77, R306 for every load and store: an aligned address in no window raises BusErrorData with no other effect,
but for SWC2, which has asked the collaborator for its value by then: the model's choice between R275 and R300 (DEDUCED,
log entry 18). Stores that `ISC_DROPS_STORES` drops are not made. -/
def Obligations.UnmappedAccesses : Prop :=
  ∀ (s : State) (rt rs : RegIdx) (imm : BitVec 16),
    let ea := effectiveAddress s rs imm
    let fails := Host.Outcome.next (φ := Fault) (ρ := Refusal) (afterRaise .busErrorData s)
    (resolve s ea = none →
      exec (.lb rt rs imm) s = fails ∧ exec (.lbu rt rs imm) s = fails ∧
      (ea.toNat % 2 = 0 → exec (.lh rt rs imm) s = fails ∧ exec (.lhu rt rs imm) s = fails) ∧
      (ea.toNat % 4 = 0 → exec (.lw rt rs imm) s = fails ∧ exec (.lwc2 rt rs imm) s = fails) ∧
      ((s.params.iscDropsStores = true → s.isc = false) →
        exec (.sb rt rs imm) s = fails ∧ (ea.toNat % 2 = 0 → exec (.sh rt rs imm) s = fails) ∧
        (ea.toNat % 4 = 0 → exec (.sw rt rs imm) s = fails ∧
          exec (.swc2 rt rs imm) s = .next (afterRaise .busErrorData (s.tell (.cop2ReadData rt)))))) ∧
    (resolve s (alignedWord ea) = none →
      exec (.lwl rt rs imm) s = fails ∧ exec (.lwr rt rs imm) s = fails ∧
      exec (.swl rt rs imm) s = fails ∧ exec (.swr rt rs imm) s = fails)

/-- R69, R70, R72, R73 and R77: with the default window table every address of the three mapped segments goes by its
low 29 bits, KSEG2 and the gaps go nowhere. -/
def Obligations.DefaultAddressMap : Prop :=
  ∀ (s : State) (va : Word), s.params.windows = Config.defaultWindows →
    let pa := va.toNat % 0x20000000
    (0xC0000000 ≤ va.toNat → resolve s va = none) ∧
    (va.toNat < 0xC0000000 →
      (pa < 0x800000 → resolve s va = some (.ram, pa)) ∧
      (0x1F801040 ≤ pa ∧ pa < 0x1F801060 → resolve s va = some (.device .peripherals, pa - 0x1F801040)) ∧
      (0x1F801070 ≤ pa ∧ pa < 0x1F801078 → resolve s va = some (.intc, pa - 0x1F801070)) ∧
      (0x1F801080 ≤ pa ∧ pa < 0x1F801100 → resolve s va = some (.dma, pa - 0x1F801080)) ∧
      (0x1F801100 ≤ pa ∧ pa < 0x1F801130 → resolve s va = some (.device .timers, pa - 0x1F801100)) ∧
      (0x1F801800 ≤ pa ∧ pa < 0x1F801804 → resolve s va = some (.device .cdrom, pa - 0x1F801800)) ∧
      (0x1F801810 ≤ pa ∧ pa < 0x1F801818 → resolve s va = some (.device .gpu, pa - 0x1F801810)) ∧
      (0x1F801820 ≤ pa ∧ pa < 0x1F801828 → resolve s va = some (.device .mdec, pa - 0x1F801820)) ∧
      (0x1F801C00 ≤ pa ∧ pa < 0x1F802000 → resolve s va = some (.device .spu, pa - 0x1F801C00)) ∧
      (0x1FC00000 ≤ pa ∧ pa < 0x1FC80000 → resolve s va = some (.bios, pa - 0x1FC00000)) ∧
      (0x800000 ≤ pa ∧ pa < 0x1F801040 ∨ 0x1F801060 ≤ pa ∧ pa < 0x1F801070 ∨ 0x1F801078 ≤ pa ∧ pa < 0x1F801080 ∨
        0x1F801130 ≤ pa ∧ pa < 0x1F801800 ∨ 0x1F801804 ≤ pa ∧ pa < 0x1F801810 ∨ 0x1F801818 ≤ pa ∧ pa < 0x1F801820 ∨
        0x1F801828 ≤ pa ∧ pa < 0x1F801C00 ∨ 0x1F802000 ≤ pa ∧ pa < 0x1FC00000 ∨ 0x1FC80000 ≤ pa →
        resolve s va = none))

/-- R78, R88: what a store put into RAM is what a load of the same width reads and what a fetch fetches, at the same
address and at every other address of the same byte (a mirror, another segment). -/
def Obligations.RamReadsBack : Prop :=
  ∀ (s t : State) (rt rs : RegIdx) (imm : BitVec 16) (n : Width) (o : Nat),
    let ea := effectiveAddress s rs imm
    Memory.wf Config.ramSize s.ram = true → (s.params.iscDropsStores = true → s.isc = false) →
    ea.toNat % n.bytes = 0 → resolve s ea = some (.ram, o) → exec (storeInstr n rt rs imm) s = .next t →
    (∀ (r rs' : RegIdx) (imm' : BitVec 16) (o' : Nat),
      let ea' := effectiveAddress t rs' imm'
      ea'.toNat % n.bytes = 0 → resolve s ea' = some (.ram, o') → o' % Config.ramSize = o % Config.ramSize →
      ∃ u v, exec (loadInstr n r rs' imm') t = .next u ∧ Loaded (t.charge (t.latency ea' n false)) u r v ∧
        v.toNat = (s.readReg rt).toNat % 2 ^ (8 * n.bytes)) ∧
    (∀ o', n = .word → resolve s t.pc = some (.ram, o') → o' % Config.ramSize = o % Config.ramSize →
      fetch t = .done (s.readReg rt) (t.charge (t.latency t.pc .word false)))

/-- R74, R83, R241, R242, for every store: one to BIOS changes nothing; with `ISC_DROPS_STORES` and `SR.IsC = 1` one
passes its alignment check and then does nothing at all, wherever its address leads. SWL and SWR have made their read
by then, and SWC2 has asked for its value. -/
def Obligations.StoresWithoutEffect : Prop :=
  ∀ (s : State) (rt rs : RegIdx) (imm : BitVec 16),
    let ea := effectiveAddress s rs imm
    let wa := alignedWord ea
    ((s.params.iscDropsStores = true → s.isc = false) →
      (∀ o, resolve s ea = some (.bios, o) →
        EveryStore s rt rs imm fun u n _ out => out = .next (u.charge (s.latency ea n true)).advanced) ∧
      (∀ o, resolve s wa = some (.bios, o) →
        let u := ((s.charge (s.latency wa .word false)).charge (s.latency wa .word true)).advanced
        exec (.swl rt rs imm) s = .next u ∧ exec (.swr rt rs imm) s = .next u)) ∧
    (s.params.iscDropsStores = true → s.isc = true →
      (EveryStore s rt rs imm fun u _ _ out => out = .next u.advanced) ∧
      (∀ k o, resolve s wa = some (k, o) → (k = .dma → s.dicr.getLsbD 31 = dmaIrq s.dicr) →
        let u := ((s.afterRead k o .word).charge (s.latency wa .word false)).advanced
        exec (.swl rt rs imm) s = .next u ∧ exec (.swr rt rs imm) s = .next u))

/-- R76, R80, R244: every load from a device window, LWL and LWR of the aligned word, asks the device once, with the
offset and the width, and delivers what the load makes of the low bytes of its answer, whatever they are. The answers are
free values (DESIGN CHOICE, log entry 4); what LWL and LWR merge with under `LOAD_DELAY` is log entry 8's choice. -/
def Obligations.DeviceReads : Prop :=
  ∀ (s : State) (rt rs : RegIdx) (imm : BitVec 16) (w : DevWindow) (o : Nat),
    let ea := effectiveAddress s rs imm
    let wa := alignedWord ea
    let answer := fun n => Config.devRead (.devRead w o n :: s.portLog)
    (resolve s ea = some (.device w, o) →
      EveryLoad s rt rs imm (fun n => (s.tell (.devRead w o n)).charge (s.latency ea n false)) answer) ∧
    (resolve s wa = some (.device w, o) →
      EveryMergedLoad s rt rs imm ((s.tell (.devRead w o .word)).charge (s.latency wa .word false)) (answer .word))

/-- R76, R357, R353, R241, R242: every store to a device window hands the device the low bytes once, SWL and SWR after
one read of the aligned word, SWC2 the value it was given; each distance the device answers with replaces that device's
next-event distance, the last one counting; a negative one is the fault, and the only one. The order of the distances is
the model's choice (DESIGN CHOICE, log entry 17), the answers are free values (log entry 4), and what SWL and SWR store
under `LOAD_DELAY` just after a load of `x[rt]` is its old value, as R243 has it. -/
def Obligations.DeviceWrites : Prop :=
  ∀ (s : State) (rt rs : RegIdx) (imm : BitVec 16) (w : DevWindow) (o : Nat),
    let ea := effectiveAddress s rs imm
    let wa := alignedWord ea
    (s.params.iscDropsStores = true → s.isc = false) →
    (resolve s ea = some (.device w, o) →
      EveryStore s rt rs imm fun u n x out => DeviceTold w o (s.latency ea n true) u n x out) ∧
    (resolve s wa = some (.device w, o) →
      let u := (s.tell (.devRead w o .word)).charge (s.latency wa .word false)
      EveryMergedStore s rt rs imm (Config.devRead u.portLog) (DeviceTold w o (s.latency wa .word true) u .word))

/-- R243 for `LOAD_DELAY`: no instruction but a load or a move from a coprocessor leaves a register whose old value
is still to be read, so the new value is seen from the second instruction on; without the parameter none does. -/
def Obligations.DelayedLoadLastsOneInstruction : Prop :=
  ∀ (i : Instr) (s t : State), exec i s = .next t →
    ((s.params.loadDelay = false ∨ i.mnemonic ∉
      ["LB", "LBU", "LH", "LHU", "LW", "LWL", "LWR", "MFC0", "MFC2", "CFC2"]) → ∀ j, t.readReg j = t.gpr j) ∧
    (∀ j, t.readReg j ≠ t.gpr j → t.readReg j = s.gpr j)

/-! ## The interrupt controller and the DMA block (spec/60_exceptions.md) -/

/-- R335, R336: bit by bit, for every load and store, for every `N_IRQ`. Writing 0 acknowledges a pending line, writing
1 leaves it; `I_MASK` takes the written bits; untouched lanes keep theirs; a read returns the touched lanes, 0 from
bit `N_IRQ` on, and changes nothing. LWL, LWR, SWL and SWR access the aligned word; what LWL and LWR merge with under
`LOAD_DELAY` is log entry 8's choice. -/
def Obligations.InterruptControllerRegisters : Prop :=
  ∀ (s : State) (rt rs : RegIdx) (imm : BitVec 16) (o : Nat),
    let ea := effectiveAddress s rs imm
    let wa := alignedWord ea
    let u := s.charge (s.latency wa .word false)
    (resolve s ea = some (.intc, o) →
      (∀ r, IntcRegIs s o r → ∃ v : Width → Word, (∀ n, IsLaneRead o n r (v n)) ∧
        EveryLoad s rt rs imm (fun n => s.charge (s.latency ea n false)) v) ∧
      ((s.params.iscDropsStores = true → s.isc = false) →
        EveryStore s rt rs imm fun u n x out => IntcStored o (s.latency ea n true) u n x out)) ∧
    (resolve s wa = some (.intc, o) → ∀ r, IntcRegIs s o r → ∃ m, IsLaneRead o .word r m ∧
      EveryMergedLoad s rt rs imm u m ∧
      ((s.params.iscDropsStores = true → s.isc = false) →
        EveryMergedStore s rt rs imm m (IntcStored o (s.latency wa .word true) u .word)))

/-- R341, R342, R345, R348 with R336, for every store: the write of DICR bit by bit; bit 31 is then FORCE or (MASTER_EN
and some enabled flag), and line 3 is raised exactly when bit 31 goes from 0 to 1. That a core with `N_IRQ ≤ 3`, which
has no line 3, raises nothing then is the model's choice (DESIGN CHOICE, log entry 3, after the range of R334). -/
def Obligations.DicrWrite : Prop :=
  ∀ (s : State) (rt rs : RegIdx) (imm : BitVec 16) (o : Nat),
    let ea := effectiveAddress s rs imm
    let wa := alignedWord ea
    (s.params.iscDropsStores = true → s.isc = false) → o / 4 = 0x1D →
    (resolve s ea = some (.dma, o) →
      EveryStore s rt rs imm fun u n x out => DicrStored o (s.latency ea n true) u n x out) ∧
    (resolve s wa = some (.dma, o) → s.dicr.getLsbD 31 = dmaIrq s.dicr → ∃ m, IsLaneRead o .word s.dicr m ∧
      EveryMergedStore s rt rs imm m
        (DicrStored o (s.latency wa .word true) (s.charge (s.latency wa .word false)) .word))

/-- R340 with R336, for every load and store: a load returns the touched lanes of every register, of DICR with bit 31
computed, and 0 where the map is unused; a store to `DMA_MADR[c]` or `DMA_BCR[c]` stores the touched lanes and does
nothing else, to an unused place nothing; one to `DMA_CHCR[c]` or DPCR stores them and runs the arbiter. What LWL and
LWR merge with under `LOAD_DELAY`, and that they are delayed, is the model's choice (DEDUCED, log entry 8); SWC2's value
is a free value (DESIGN CHOICE, log entry 4). -/
def Obligations.DmaRegisterMap : Prop :=
  ∀ (s : State) (rt rs : RegIdx) (imm : BitVec 16) (o : Nat) (r : Word),
    let ea := effectiveAddress s rs imm
    let wa := alignedWord ea
    let u := s.charge (s.latency wa .word false)
    s.dicr.getLsbD 31 = dmaIrq s.dicr → DmaRegIs s o r →
    (resolve s ea = some (.dma, o) →
      (∃ v : Width → Word, (∀ n, IsLaneRead o n r (v n)) ∧
        EveryLoad s rt rs imm (fun n => s.charge (s.latency ea n false)) v) ∧
      ((s.params.iscDropsStores = true → s.isc = false) →
        EveryStore s rt rs imm fun u n x out =>
          DmaStored o (s.latency ea n true) u n x out ∧ DmaStarted o (s.latency ea n true) u n x out)) ∧
    (resolve s wa = some (.dma, o) → ∃ m, IsLaneRead o .word r m ∧
      EveryMergedLoad s rt rs imm u m ∧
      ((s.params.iscDropsStores = true → s.isc = false) →
        EveryMergedStore s rt rs imm m fun x out =>
          DmaStored o (s.latency wa .word true) u .word x out ∧ DmaStarted o (s.latency wa .word true) u .word x out))

/-- R343, R344: a store to a `DMA_CHCR[c]` or to DPCR stores the touched lanes and runs the arbiter, which does nothing
when no channel is ready and else serves the channel it picks and goes on, until no channel is ready. Serving one takes
the transfer's reply (MADR, BCR, and every RAM byte it names), clears bits 24 and 28 of its CHCR, sets FLAG[c] exactly
when EN[c], recomputes bit 31 of DICR and raises line 3 on its rise. No other byte of RAM, no other channel's registers,
no general register, nothing of HI, LO, COP0 or BIOS changes. The model's choices: the reply is a free value (DESIGN
CHOICE, log entry 4), a list whose last byte for an index counts (DEDUCED, log entry 16), and a core with `N_IRQ ≤ 3`,
which has no line 3, raises nothing (DESIGN CHOICE, log entry 3, after the range of R334). -/
def Obligations.DmaRunsToIdle : Prop :=
  (∀ (s : State) (rt rs : RegIdx) (imm : BitVec 16) (o : Nat),
    let ea := effectiveAddress s rs imm
    s.dicr.getLsbD 31 = dmaIrq s.dicr → (s.params.iscDropsStores = true → s.isc = false) →
    resolve s ea = some (.dma, o) →
    EveryStore s rt rs imm fun u n x out => DmaStarted o (s.latency ea n true) u n x out) ∧
  (∀ s : State,
    ((∀ c, ¬ ChannelReady s c) → dmaService s = s) ∧
    (∀ c, dmaPick s = some c → dmaService s = dmaService (dmaServe s c)) ∧
    (∀ c, ¬ ChannelReady (dmaService s) c) ∧
    ∃ ram dma dicr iStat portLog, dmaService s =
      { s with ram := ram, dma := dma, dicr := dicr, iStat := iStat, portLog := portLog }) ∧
  (∀ (s : State) (c : Channel), Served s (dmaServe s c) c
    (Config.dmaRun (.dmaRun c s.dma[c].madr s.dma[c].bcr s.dma[c].chcr s.ram :: s.portLog)))

/-- R343, the arbiter: a ready channel is picked whenever there is one, the smallest priority value first, among equals
the largest channel. -/
def Obligations.DmaArbitration : Prop :=
  ∀ s : State, (∀ c, dmaPick s = some c → ChannelReady s c ∧ ∀ d, ChannelReady s d →
      (s.dpcr.toNat / 2 ^ (4 * c.val) % 8 < s.dpcr.toNat / 2 ^ (4 * d.val) % 8 ∨
        s.dpcr.toNat / 2 ^ (4 * c.val) % 8 = s.dpcr.toNat / 2 ^ (4 * d.val) % 8 ∧ d.val ≤ c.val)) ∧
    (dmaPick s = none → ∀ d, ¬ ChannelReady s d)

/-! ## Coprocessor, system and reserved instructions (spec/45_coprocessor_system.md) -/

/-- R261, R36, R41: every COP0 register, CAUSE bit by bit with the live composite signal, and every index that is not
implemented. That under `LOAD_DELAY` the next instruction still reads the old `x[rt]` is the model's choice (DEDUCED from
U5, log entry 8; R261 speaks of no coprocessor-load delay). -/
def Obligations.MoveFromCop0 : Prop :=
  (∀ (s : State) (rt : RegIdx),
    (∀ p ∈ [((3 : RegIdx), s.bpc), (5, s.bda), (6, s.jumpdest), (7, s.dcic), (8, s.badvaddr), (9, s.bdam),
        (11, s.bpcm), (12, s.sr), (14, s.epc), (15, s.params.prid)],
      ∃ t, exec (.mfc0 rt p.1) s = .next t ∧ Loaded s t rt p.2) ∧
    (∃ t v, exec (.mfc0 rt 13) s = .next t ∧ Loaded s t rt v ∧
      v.getLsbD 31 = s.cause.bd ∧ (∀ k, k < 2 → v.getLsbD (28 + k) = s.cause.ce.getLsbD k) ∧
      (v.getLsbD 10 = true ↔ ∃ k, k < s.params.nIrq ∧ s.iStat.getLsbD k = true ∧ s.iMask.getLsbD k = true) ∧
      (∀ k, k < 2 → v.getLsbD (8 + k) = s.cause.ip.getLsbD k) ∧
      (∀ k, k < 5 → v.getLsbD (2 + k) = s.cause.excCode.getLsbD k) ∧
      ∀ k, (k < 2 ∨ k = 7 ∨ 11 ≤ k ∧ k < 28 ∨ k = 30) → v.getLsbD k = false) ∧
    (∀ rd : RegIdx, rd ∉ [(3 : RegIdx), 5, 6, 7, 8, 9, 11, 12, 13, 14, 15] →
      (s.params.cop0UnimplFaults = true →
        exec (.mfc0 rt rd) s = .next (afterRaise .reservedInstruction s)) ∧
      (s.params.cop0UnimplFaults = false → ∃ t, exec (.mfc0 rt rd) s = .next t ∧ Loaded s t rt 0))) ∧
  (∀ w : Word, opcodeOf w = 0x10#6 → rsOf w = 0 → decodeWord w = .mfc0 (rtOf w) (rdOf w))

/-- R262, R34, R36 to R41: what each index stores, and the indexes that store nothing. -/
def Obligations.MoveToCop0 : Prop :=
  (∀ (s : State) (rt : RegIdx),
    let v := s.readReg rt
    exec (.mtc0 rt 3) s = .next { s.advanced with bpc := v } ∧
    exec (.mtc0 rt 5) s = .next { s.advanced with bda := v } ∧
    exec (.mtc0 rt 6) s = .next { s.advanced with jumpdest := v } ∧
    exec (.mtc0 rt 7) s = .next { s.advanced with dcic := v } ∧
    exec (.mtc0 rt 9) s = .next { s.advanced with bdam := v } ∧
    exec (.mtc0 rt 11) s = .next { s.advanced with bpcm := v } ∧
    exec (.mtc0 rt 12) s = .next { s.advanced with sr := v } ∧
    (∃ ip : BitVec 2, exec (.mtc0 rt 13) s = .next { s.advanced with cause := { s.cause with ip := ip } } ∧
      ip.getLsbD 0 = v.getLsbD 8 ∧ ip.getLsbD 1 = v.getLsbD 9) ∧
    (∀ rd ∈ [(8 : RegIdx), 14, 15], exec (.mtc0 rt rd) s = .next s.advanced) ∧
    (∀ rd : RegIdx, rd ∉ [(3 : RegIdx), 5, 6, 7, 8, 9, 11, 12, 13, 14, 15] →
      (s.params.cop0UnimplFaults = true →
        exec (.mtc0 rt rd) s = .next (afterRaise .reservedInstruction s)) ∧
      (s.params.cop0UnimplFaults = false → exec (.mtc0 rt rd) s = .next s.advanced))) ∧
  (∀ w : Word, opcodeOf w = 0x10#6 → rsOf w = 4 → decodeWord w = .mtc0 (rtOf w) (rdOf w))

/-- R263: RFE pops SR's stack and changes nothing else; and it gives back the enable and mode pairs that an exception
entry before it pushed. -/
def Obligations.ReturnFromException : Prop :=
  (∀ s : State, ∃ v, exec .rfe s = .next { s.advanced with sr := v } ∧
    ∀ k, k < 32 → v.getLsbD k = if k < 4 then s.sr.getLsbD (k + 2) else s.sr.getLsbD k) ∧
  (∀ (s t : State) (e : Exc), exec .rfe (afterRaise e s) = .next t →
    ∀ k, k < 32 → t.sr.getLsbD k = if k = 4 ∨ k = 5 then s.sr.getLsbD (k - 2) else s.sr.getLsbD k) ∧
  (∀ w : Word, opcodeOf w = 0x10#6 → 16 ≤ (rsOf w).val → functOf w = 0x10#6 → decodeWord w = .rfe)

/-- R264, R265, R276 and R118: SYSCALL, BREAK and every reserved word take their exception, always, and do nothing
else; the words that decode to RESERVED are exactly the reserved encodings, and RESERVED carries the word. -/
def Obligations.AlwaysRaising : Prop :=
  (∀ s : State, exec .syscall s = .next (afterRaise .syscall s) ∧
    exec .breakpoint s = .next (afterRaise .breakpoint s) ∧
    ∀ w, exec (.reserved w) s = .next (afterRaise .reservedInstruction s)) ∧
  (∀ w : Word,
    (opcodeOf w = 0x00#6 → (functOf w = 0x0C#6 → decodeWord w = .syscall) ∧
      (functOf w = 0x0D#6 → decodeWord w = .breakpoint)) ∧
    (reservedWord w = true ↔ decodeWord w = .reserved w) ∧ ∀ v, decodeWord w = .reserved v → v = w)

/-- R266, R267: COP1 and COP3 words, all of them, only complete. -/
def Obligations.CoprocessorNoOps : Prop :=
  (∀ s : State, exec .cop1 s = .next s.advanced ∧ exec .cop3 s = .next s.advanced) ∧
  (∀ w : Word, (opcodeOf w = 0x11#6 → decodeWord w = .cop1) ∧ (opcodeOf w = 0x13#6 → decodeWord w = .cop3))

/-- R268 to R273: each COP2 action reaches the collaborator once, with its register and value; a read delivers the
answer, whatever it is; no other state changes. The answers are free values that depend on the history of requests alone
(DESIGN CHOICE, log entry 4), and that MFC2 and CFC2 are delayed under `LOAD_DELAY` is the model's choice (DEDUCED from
U5, log entry 8). -/
def Obligations.Cop2Port : Prop :=
  (∀ (s : State) (rt rd : RegIdx) (c : BitVec 25),
    (∃ t, exec (.mfc2 rt rd) s = .next t ∧
      Loaded { s with portLog := .cop2ReadData rd :: s.portLog } t rt
        (Config.cop2ReadData (.cop2ReadData rd :: s.portLog))) ∧
    (∃ t, exec (.cfc2 rt rd) s = .next t ∧
      Loaded { s with portLog := .cop2ReadCtrl rd :: s.portLog } t rt
        (Config.cop2ReadCtrl (.cop2ReadCtrl rd :: s.portLog))) ∧
    exec (.mtc2 rt rd) s = .next { s.advanced with portLog := .cop2WriteData rd (s.readReg rt) :: s.portLog } ∧
    exec (.ctc2 rt rd) s = .next { s.advanced with portLog := .cop2WriteCtrl rd (s.readReg rt) :: s.portLog } ∧
    exec (.cop2 c) s = .next { s.advanced with portLog := .cop2Command c :: s.portLog }) ∧
  (∀ w : Word, opcodeOf w = 0x12#6 →
    (rsOf w = 0x00 → decodeWord w = .mfc2 (rtOf w) (rdOf w)) ∧
    (rsOf w = 0x02 → decodeWord w = .cfc2 (rtOf w) (rdOf w)) ∧
    (rsOf w = 0x04 → decodeWord w = .mtc2 (rtOf w) (rdOf w)) ∧
    (rsOf w = 0x06 → decodeWord w = .ctc2 (rtOf w) (rdOf w)) ∧
    (16 ≤ (rsOf w).val → ∃ c : BitVec 25, decodeWord w = .cop2 c ∧ c.toNat = w.toNat % 2 ^ 25))

/-- R274, R275: LWC2 hands the collaborator the word it loads from RAM or BIOS, SWC2 stores to RAM the word the
collaborator answers with; neither touches a general register. -/
def Obligations.Cop2LoadStore : Prop :=
  (∀ (s : State) (rt rs : RegIdx) (imm : BitVec 16) (k : WindowKind) (o : Nat),
    let ea := effectiveAddress s rs imm
    ea.toNat % 4 = 0 → resolve s ea = some (k, o) →
    (isStorage k = true →
      ∃ v, exec (.lwc2 rt rs imm) s = .next
        { (s.charge (s.latency ea .word false)).advanced with portLog := .cop2WriteData rt v :: s.portLog } ∧
        ∀ j, j < 4 → byteOf v j = s.storedByte k (o + j)) ∧
    (k = .ram → Memory.wf Config.ramSize s.ram = true → (s.params.iscDropsStores = true → s.isc = false) →
      ∃ t, exec (.swc2 rt rs imm) s = .next t ∧
        StoredRam ({ s with portLog := .cop2ReadData rt :: s.portLog }.charge (s.latency ea .word true)) t o 4
          (byteOf (Config.cop2ReadData (.cop2ReadData rt :: s.portLog))))) ∧
  (∀ w : Word,
    (opcodeOf w = 0x32#6 → decodeWord w = .lwc2 (rtOf w) (rsOf w) (immOf w)) ∧
    (opcodeOf w = 0x3A#6 → decodeWord w = .swc2 (rtOf w) (rsOf w) (immOf w)))

/-! ## Exceptions and interrupts (spec/60_exceptions.md) -/

/-- R310, R313, R314, R301, R38: what entry saves, what it changes and where it goes, field by field and bit by bit;
nothing else changes. -/
def Obligations.ExceptionEntry : Prop :=
  ∀ (e : Exc) (s : State),
    let t := enterException e s
    t = { s with
      epc := t.epc, cause := t.cause, badvaddr := t.badvaddr, sr := t.sr, pc := t.pc, npc := t.npc, bds := false } ∧
    (s.bds = false → t.epc = s.pc ∧ t.cause.bd = false) ∧
    (s.bds = true → (t.epc.toNat : Int) = (s.pc.toNat - 4 : Int) % 4294967296 ∧ t.cause.bd = true) ∧
    t.cause.ce = 0 ∧ t.cause.ip = s.cause.ip ∧
    (t.cause.excCode.toNat, t.badvaddr) =
      (match e with
      | .interrupt => (0, s.badvaddr)
      | .addressErrorLoad va => (4, va)
      | .addressErrorStore va => (5, va)
      | .busErrorFetch => (6, s.badvaddr)
      | .busErrorData => (7, s.badvaddr)
      | .syscall => (8, s.badvaddr)
      | .breakpoint => (9, s.badvaddr)
      | .reservedInstruction => (10, s.badvaddr)
      | .coprocessorUnusable => (11, s.badvaddr)
      | .overflow => (12, s.badvaddr)) ∧
    (∀ k, k < 32 → t.sr.getLsbD k =
      if k < 2 then false else if k < 6 then s.sr.getLsbD (k - 2) else s.sr.getLsbD k) ∧
    t.pc = (if s.sr.getLsbD 22 then s.params.vecGeneralRom else s.params.vecGeneralRam) ∧ t.npc = t.pc + 4

/-- R319, R333: the interrupt condition in the bits of SR, CAUSE, `I_STAT` and `I_MASK`. -/
def Obligations.InterruptCondition : Prop :=
  ∀ s : State, s.intPending = true ↔
    s.sr.getLsbD 0 = true ∧
      ((∃ k, k < s.params.nIrq ∧ s.iStat.getLsbD k = true ∧ s.iMask.getLsbD k = true) ∧ s.sr.getLsbD 10 = true ∨
        s.cause.ip.getLsbD 0 = true ∧ s.sr.getLsbD 8 = true ∨ s.cause.ip.getLsbD 1 = true ∧ s.sr.getLsbD 9 = true)

/-- R320, R360: a pending interrupt is taken before the fetch, and the first instruction of the handler runs in the
same machine step, which is the step of the state after entry. -/
def Obligations.InterruptTakenBeforeFetch : Prop :=
  ∀ s : State, Runnable s → s.params.wf = true → s.intPending = true →
    step s = step (enterException .interrupt s) ∧ (enterException .interrupt s).intPending = false

/-- R305: an instruction whose address is in no window is not fetched: BusErrorFetch is taken, with EPC its address or
the branch before it, and the step costs `CYCLES_BASE`. -/
def Obligations.FetchFromNowhere : Prop :=
  ∀ s : State, Runnable s → s.intPending = false → resolve s s.pc = none →
    step s = finishStep (afterRaise .busErrorFetch s)

/-- R23, R24, R32, R34, R36 to R38: HI and LO are written by MULT, MULTU, DIV, DIVU, MTHI and MTLO alone. SR, CAUSE,
EPC and BADVADDR change only by an exception entry, by MTC0 or by RFE, and EPC and BADVADDR by entry alone. -/
def Obligations.SpecialRegisterWriters : Prop :=
  ∀ (i : Instr) (s t : State), exec i s = .next t →
    (t.hi ≠ s.hi → i.mnemonic ∈ ["MULT", "MULTU", "DIV", "DIVU", "MTHI"]) ∧
    (t.lo ≠ s.lo → i.mnemonic ∈ ["MULT", "MULTU", "DIV", "DIVU", "MTLO"]) ∧
    ((∃ e, e ≠ .coprocessorUnusable ∧ e ≠ .interrupt ∧ e ≠ .busErrorFetch ∧
      (t.sr, t.cause, t.epc, t.badvaddr, t.pc) =
        ((enterException e s).sr, (enterException e s).cause, (enterException e s).epc,
          (enterException e s).badvaddr, (enterException e s).pc)) ∨
    (t.epc = s.epc ∧ t.badvaddr = s.badvaddr ∧
      (t.sr ≠ s.sr → i.mnemonic = "MTC0" ∨ i.mnemonic = "RFE") ∧
      (t.cause ≠ s.cause → i.mnemonic = "MTC0" ∧
        t.cause = { s.cause with ip := t.cause.ip })))

/-- R21: register 0 reads as 0 in every state and a write to it changes nothing; a write to any other register is what a
later read of it returns and touches no other. In a state that meets the invariant an instruction reads 0 from it too. -/
def Obligations.RegisterZero : Prop :=
  (∀ (s : State) (v : Word), s.gpr 0 = 0 ∧ s.writeReg 0 v = s) ∧
  (∀ (s : State) (i : RegIdx) (v : Word), i ≠ 0 → (s.writeReg i v).gpr i = v ∧
    s.writeReg i v = { s with regs := (s.writeReg i v).regs } ∧ ∀ j, j ≠ i → (s.writeReg i v).gpr j = s.gpr j) ∧
  (∀ s : State, Inv s → s.readReg 0 = 0)

/-! ## The machine step and the timekeeper (spec/60_exceptions.md, spec/10_state.md) -/

/-- A step runs the decoded instruction: when no interrupt is due and the four bytes at PC in RAM or BIOS decode to
`i`, the step is `exec i` in the state charged for the fetch, then the end of the step (R28, R82, R360). The same of the
word a window of the interrupt controller, of the DMA block or of a device answers, the device having been asked. -/
def Obligations.StepRunsDecodedInstruction : Prop :=
  ∀ (s : State) (k : WindowKind) (o : Nat) (i : Instr),
    Runnable s → s.intPending = false → resolve s s.pc = some (k, o) →
    (isStorage k = true ∧
      decodeBytes [s.storedByte k o, s.storedByte k (o + 1), s.storedByte k (o + 2), s.storedByte k (o + 3)] =
        .ok (i, []) ∨
      ∃ w, WindowWord s k o w ∧ decodeBytes [byteOf w 0, byteOf w 1, byteOf w 2, byteOf w 3] = .ok (i, [])) →
    step s = match exec i ((s.afterRead k o .word).charge (s.latency s.pc .word false)) with
      | .next t => finishStep t
      | .fault f => .fault f
      | .refused r => .refused r

/-- R27: a step is a fault for a misaligned address exactly when PC or NPC is no multiple of 4. That it comes before the
interrupt sample and before a negative NEXT is looked for is the model's choice (DEDUCED, log entry 19): R27, R12 and
U14 do not say when. -/
def Obligations.MisalignedPcIsAFault : Prop :=
  ∀ s : State, step s = .fault .misalignedPc ↔ s.pc.toNat % 4 ≠ 0 ∨ s.npc.toNat % 4 ≠ 0

/-- R351 with the default costs: every step that ends in a next state adds exactly `CYCLES_BASE` to CLK, modulo
`2^CLK_BITS`, whatever it ran and whether or not it raised. -/
def Obligations.ClockAdvance : Prop :=
  ∀ s t : State, s.params.latency = [] → step s = .next t →
    t.clk = (s.clk + s.params.cyclesBase) % 2 ^ s.params.clkBits

/-- R354, R355, R356: what ends a step. A pass runs exactly when BURST has reached the quantum. Then the devices of the
list are asked in order, each for the cycles since its last pass, each answer a function of all asked before. The first
negative distance is the fault. With none, each device's NEXT is the distance it reported, CLK is every LAST_SYNC, BURST
is 0, `I_STAT` gains exactly the reported lines below `N_IRQ` (that a line beyond is ignored is log entry 3's choice,
after the range of R334) and only GPU's report ends a frame. -/
def Obligations.EndOfStep : Prop :=
  ∀ s : State,
    let u := s.charge s.params.cyclesBase
    let asked := s.sched.map fun e =>
      PortEvent.catchUp e.device (((u.clk : Int) - e.lastSync) % 2 ^ s.params.clkBits).toNat
    let reply := fun i => Config.catchUp ((asked.take (i + 1)).reverse ++ s.portLog)
    (u.burst < 128 → finishStep s = .next { u with frameDone := false }) ∧
    (128 ≤ u.burst →
      (∀ i e, s.sched[i]? = some e → (reply i).next < 0 → (∀ j, j < i → 0 ≤ (reply j).next) →
        finishStep s = .fault (.negativeNextEvent e.device)) ∧
      ((∀ i, i < s.sched.length → 0 ≤ (reply i).next) → ∃ t, finishStep s = .next t ∧
        t = { u with
          sched := t.sched, iStat := t.iStat, burst := 0, frameDone := t.frameDone
          portLog := asked.reverse ++ s.portLog } ∧
        t.sched.length = s.sched.length ∧
        (∀ i e, s.sched[i]? = some e → t.sched[i]? = some (SchedEntry.mk e.device u.clk (reply i).next)) ∧
        (∀ k, t.iStat.getLsbD k = true ↔ s.iStat.getLsbD k = true ∨
          k < s.params.nIrq ∧ ∃ i, i < s.sched.length ∧ (reply i).raised.getLsbD k = true) ∧
        (t.frameDone = true ↔
          ∃ i e, s.sched[i]? = some e ∧ e.device = .gpu ∧ (reply i).frameComplete = true)))

/-- R49, R47, R7: no step changes a parameter, the BIOS image or the list of devices. -/
def Obligations.ConstantsStay : Prop :=
  ∀ s t : State, step s = .next t →
    t.params = s.params ∧ t.bios = s.bios ∧ t.sched.map SchedEntry.device = s.sched.map SchedEntry.device

/-- Every step keeps the invariant. -/
def Obligations.StepKeepsInvariant : Prop :=
  ∀ s t : State, Inv s → step s = .next t → Inv t

/-- From every state that meets the invariant a step ends in a next state or in the fault of a device that reports a
negative distance: nothing is refused, and no other fault is reached. -/
def Obligations.EveryStepCompletes : Prop :=
  ∀ s : State, Inv s → SafeOutcome (step s)

/-! ## Reset and the host (spec/70_reset_and_hazards.md) -/

/-- The invariant holds of the reset state and of every System a BIOS image constructs, and a later reset, the loading
of a program image and the restoring of a snapshot that meets it keep it. A snapshot with a misaligned PC or NPC, or with
a negative NEXT, is the fault, and a step from it too (R27, R391); of a snapshot that breaks another part of the
invariant R391 says nothing, and nothing is said here. That the misalignment is found first, that a step finds both
before anything else (DEDUCED, log entry 19) and that no delayed load is pending after reset (DESIGN CHOICE, log entry
32) are the model's choices. -/
def Obligations.InvariantAtReset : Prop :=
  Inv State.reset ∧
  (∀ (p : Params) (ds : List Device) (image : List Byte) (s : State), p.wf = true →
    construct p ds image = .ok s → Inv s) ∧
  (∀ s : State, Inv s → Inv (hostReset s)) ∧
  (∀ (h : ImageHeader) (blob : List Byte) (s t : State), Inv s → loadImage h blob s = .ok t → Inv t) ∧
  (∀ s : State, (Inv s → restore s = .next s) ∧
    (aligned4 s.pc = false ∨ aligned4 s.npc = false →
      restore s = .fault .misalignedPc ∧ step s = .fault .misalignedPc) ∧
    (aligned4 s.pc = true → aligned4 s.npc = true → (∃ e ∈ s.sched, e.next < 0) →
      ∃ e ∈ s.sched, e.next < 0 ∧ restore s = .fault (.negativeNextEvent e.device) ∧
        step s = .fault (.negativeNextEvent e.device)))

/-- Has a state every value the table of R48 gives? The entries it leaves to a draw (`x[1]` to `x[31]`, HI, LO, EPC,
BADVADDR, RAM) are not named here: their values are the model's choice (log entries 5 and 6). That `NEXT[d]` is the same
constant of the device at every reset is the model's choice too (DESIGN CHOICE, log entry 11). -/
def HasResetValues (t : State) : Prop :=
  t.gpr 0 = 0 ∧ t.pc = t.params.vecReset ∧ t.npc = t.params.vecReset + 4 ∧ t.bds = false ∧ t.sr = 0x00400000#32 ∧
  t.cause = ⟨false, 0, 0, 0⟩ ∧ t.bpc = 0 ∧ t.bda = 0 ∧ t.jumpdest = 0 ∧ t.dcic = 0 ∧ t.bdam = 0 ∧ t.bpcm = 0 ∧
  t.iStat = 0 ∧ t.iMask = 0 ∧ (∀ c : Channel, t.dma[c] = ⟨0, 0, 0⟩) ∧ t.dpcr = 0x07654321#32 ∧ t.dicr = 0 ∧
  t.clk = 0 ∧ t.burst = 0 ∧ ∀ e ∈ t.sched, e.lastSync = 0 ∧ e.next = Config.resetNext e.device

/-- R380, R388: an image of another size constructs nothing; an image of the right size constructs a System with the
reset values and the image in BIOS; and any later reset gives the reset values again and keeps BIOS, the parameters
and the devices. That a device reports the same `NEXT[d]` from each reset is the model's choice (log entry 11). -/
def Obligations.ResetValues : Prop :=
  (∀ (p : Params) (ds : List Device) (image : List Byte),
    (image.length ≠ 524288 → construct p ds image = .error .biosSize) ∧
    (image.length = 524288 → ∃ s, construct p ds image = .ok s ∧ HasResetValues s ∧ s.params = p ∧
      s.sched.map SchedEntry.device = ds ∧ ∀ j, j < 524288 → image[j]? = some (s.bios.get j))) ∧
  (∀ s : State, HasResetValues (hostReset s) ∧ (hostReset s).bios = s.bios ∧ (hostReset s).params = s.params ∧
    (hostReset s).sched.map SchedEntry.device = s.sched.map SchedEntry.device)

/-- R381: with the default parameters the first step after construction fetches the image's first four bytes, and runs
the instruction they decode to. -/
def Obligations.FirstInstruction : Prop :=
  ∀ (image : List Byte) (s : State) (b0 b1 b2 b3 : Byte),
    construct Params.default Config.defaultDevices image = .ok s →
    image.take 4 = [b0, b1, b2, b3] →
    s.intPending = false ∧ fetch s = .done (wordOfBytes b0 b1 b2 b3) s ∧
    step s = match exec (decodeWord (wordOfBytes b0 b1 b2 b3)) s with
      | .next t => finishStep t
      | .fault f => .fault f
      | .refused r => .refused r

/-- R389: the loader refuses what the rule refuses and else copies the blob to the masked destination and sets the
registers the rule names, and nothing else. That under `LOAD_DELAY` a load still pending stays pending, and what is then
read from a register the loader set, is the model's choice (DESIGN CHOICE, log entry 33). -/
def Obligations.ImageLoader : Prop :=
  ∀ (h : ImageHeader) (blob : List Byte) (s : State),
    let base := h.dest.toNat % 0x20000000
    (0x800000 ≤ base ∨ 0x200000 < base % 0x200000 + h.size ∨ blob.length < h.size ∨ h.pc0.toNat % 4 ≠ 0 →
      ∃ e, loadImage h blob s = .error e) ∧
    (base < 0x800000 → base % 0x200000 + h.size ≤ 0x200000 → h.size ≤ blob.length → h.pc0.toNat % 4 = 0 →
      Memory.wf Config.ramSize s.ram = true →
      ∃ t, loadImage h blob s = .ok t ∧
        t = { s with ram := t.ram, regs := t.regs, pc := h.pc0, npc := h.pc0 + 4, bds := false } ∧
        (∀ j, j < h.size → some (t.ram.get (base % 0x200000 + j)) = blob[j]?) ∧
        (∀ q, (q < base % 0x200000 ∨ base % 0x200000 + h.size ≤ q) → t.ram.get q = s.ram.get q) ∧
        t.gpr 28 = h.gp0 ∧
        (h.spBase ≠ 0 → t.gpr 29 = h.spBase + h.spOff ∧ t.gpr 30 = h.spBase + h.spOff) ∧
        (∀ j, j ≠ 28 → (h.spBase = 0 ∨ j ≠ 29 ∧ j ≠ 30) → t.gpr j = s.gpr j))
end

