-- ==== Sys2Proof/Laws/Decode.lean ====
section
/-! SUPPORT. The fields of an encoded word, one lemma per field per format, which the round trip cites. -/

namespace Sys2Proof

theorem getLsbD_place {n : Nat} (lo : Nat) (v : BitVec n) (i : Nat) :
    (place lo v).getLsbD i = (decide (i < 32) && !decide (i < lo) && v.getLsbD (i - lo)) := by
  unfold place
  rw [BitVec.getLsbD_shiftLeft, BitVec.getLsbD_setWidth]
  by_cases h1 : i < 32
  · simp [h1, show i - lo < 32 by omega]
  · simp [h1]

theorem getElem_place {n : Nat} (lo : Nat) (v : BitVec n) (i : Nat) (h : i < 32) :
    (place lo v)[i] = (!decide (i < lo) && v.getLsbD (i - lo)) := by
  rw [← BitVec.getLsbD_eq_getElem, getLsbD_place]
  simp [h]

variable (op fn : BitVec 6) (rs rt rd : RegIdx) (sh : BitVec 5) (imm : BitVec 16) (tg : BitVec 26)

@[simp] theorem toFin_regBits (r : RegIdx) : (regBits r).toFin = r := rfl

@[simp] theorem opcodeOf_encodeR : opcodeOf (encodeR op rs rt rd sh fn) = op := by
  apply BitVec.eq_of_getLsbD_eq
  intro i hi
  interval_cases i <;> simp [opcodeOf, encodeR, getElem_place]

@[simp] theorem rsOf_encodeR : rsOf (encodeR op rs rt rd sh fn) = rs := by
  suffices h : (encodeR op rs rt rd sh fn).extractLsb' 21 5 = regBits rs by rw [rsOf, h, toFin_regBits]
  apply BitVec.eq_of_getLsbD_eq
  intro i hi
  interval_cases i <;> simp [encodeR, getElem_place]

@[simp] theorem rtOf_encodeR : rtOf (encodeR op rs rt rd sh fn) = rt := by
  suffices h : (encodeR op rs rt rd sh fn).extractLsb' 16 5 = regBits rt by rw [rtOf, h, toFin_regBits]
  apply BitVec.eq_of_getLsbD_eq
  intro i hi
  interval_cases i <;> simp [encodeR, getElem_place]

@[simp] theorem rdOf_encodeR : rdOf (encodeR op rs rt rd sh fn) = rd := by
  suffices h : (encodeR op rs rt rd sh fn).extractLsb' 11 5 = regBits rd by rw [rdOf, h, toFin_regBits]
  apply BitVec.eq_of_getLsbD_eq
  intro i hi
  interval_cases i <;> simp [encodeR, getElem_place]

@[simp] theorem shamtOf_encodeR : shamtOf (encodeR op rs rt rd sh fn) = sh := by
  apply BitVec.eq_of_getLsbD_eq
  intro i hi
  interval_cases i <;> simp [shamtOf, encodeR, getElem_place]

@[simp] theorem functOf_encodeR : functOf (encodeR op rs rt rd sh fn) = fn := by
  apply BitVec.eq_of_getLsbD_eq
  intro i hi
  interval_cases i <;> simp [functOf, encodeR, getElem_place]

@[simp] theorem opcodeOf_encodeI : opcodeOf (encodeI op rs rt imm) = op := by
  apply BitVec.eq_of_getLsbD_eq
  intro i hi
  interval_cases i <;> simp [opcodeOf, encodeI, getElem_place]

@[simp] theorem rsOf_encodeI : rsOf (encodeI op rs rt imm) = rs := by
  suffices h : (encodeI op rs rt imm).extractLsb' 21 5 = regBits rs by rw [rsOf, h, toFin_regBits]
  apply BitVec.eq_of_getLsbD_eq
  intro i hi
  interval_cases i <;> simp [encodeI, getElem_place]

@[simp] theorem rtOf_encodeI : rtOf (encodeI op rs rt imm) = rt := by
  suffices h : (encodeI op rs rt imm).extractLsb' 16 5 = regBits rt by rw [rtOf, h, toFin_regBits]
  apply BitVec.eq_of_getLsbD_eq
  intro i hi
  interval_cases i <;> simp [encodeI, getElem_place]

@[simp] theorem immOf_encodeI : immOf (encodeI op rs rt imm) = imm := by
  apply BitVec.eq_of_getLsbD_eq
  intro i hi
  interval_cases i <;> simp [immOf, encodeI, getElem_place]

@[simp] theorem opcodeOf_encodeJ : opcodeOf (encodeJ op tg) = op := by
  apply BitVec.eq_of_getLsbD_eq
  intro i hi
  interval_cases i <;> simp [opcodeOf, encodeJ, getElem_place]

@[simp] theorem targetOf_encodeJ : targetOf (encodeJ op tg) = tg := by
  apply BitVec.eq_of_getLsbD_eq
  intro i hi
  interval_cases i <;> simp [targetOf, encodeJ, getElem_place]

/-- The word of an encoded instruction, read back from its four bytes (R61, R62). -/
@[simp] theorem wordOfBytes_bytes (w : Word) :
    wordOfBytes (w.extractLsb' 0 8) (w.extractLsb' 8 8) (w.extractLsb' 16 8) (w.extractLsb' 24 8) = w := by
  apply BitVec.eq_of_getLsbD_eq
  intro i hi
  interval_cases i <;> simp [wordOfBytes, getElem_place]

/-! ## Fields as numbers, as Sys2Proof/WellFormed.lean names them -/

theorem opcodeOf_toNat (w : Word) : (opcodeOf w).toNat = w.toNat / 2 ^ 26 := by
  have := w.isLt
  simp only [opcodeOf, BitVec.extractLsb'_toNat, Nat.shiftRight_eq_div_pow]
  omega

theorem functOf_toNat (w : Word) : (functOf w).toNat = w.toNat % 64 := by
  simp [functOf]

theorem rsOf_val (w : Word) : (rsOf w).val = w.toNat / 2 ^ 21 % 32 := by
  simp [rsOf, Nat.shiftRight_eq_div_pow]

theorem rtOf_val (w : Word) : (rtOf w).val = w.toNat / 2 ^ 16 % 32 := by
  simp [rtOf, Nat.shiftRight_eq_div_pow]

/-- Bit 25 is the top bit of `rs`. -/
theorem bit25 (w : Word) : w.getLsbD 25 = decide (16 ≤ (rsOf w).val) := by
  have h : w.getLsbD 25 = (regBits (rsOf w)).getLsbD 4 := by
    show _ = (w.extractLsb' 21 5).getLsbD 4
    simp
  rw [h]
  generalize rsOf w = r
  revert r
  decide

/-- The word of a COP2 command (spec/45_coprocessor_system.md R273) has bit 25 set and the command below it. -/
theorem bit25_encodeCop2 (c : BitVec 25) : (encode (.cop2 c)).getLsbD 25 = true := by
  simp [encode, encodeJ, getElem_place]

theorem commandOf_encodeCop2 (c : BitVec 25) : commandOf (encode (.cop2 c)) = c := by
  apply BitVec.eq_of_getLsbD_eq
  intro i hi
  interval_cases i <;> simp [commandOf, encode, encodeJ, getElem_place]

end Sys2Proof
end

