-- ==== Sys2Proof/Laws/State.lean ====
section
/-! SUPPORT. One lemma per field per update of the state, so that no proof unfolds a record update. -/

namespace Sys2Proof.Machine

variable (s : State)

/-! ## `tell` -/

@[simp] theorem tell_params (e : PortEvent) : (s.tell e).params = s.params := rfl
@[simp] theorem tell_regs (e : PortEvent) : (s.tell e).regs = s.regs := rfl
@[simp] theorem tell_stale (e : PortEvent) : (s.tell e).stale = s.stale := rfl
@[simp] theorem tell_hi (e : PortEvent) : (s.tell e).hi = s.hi := rfl
@[simp] theorem tell_lo (e : PortEvent) : (s.tell e).lo = s.lo := rfl
@[simp] theorem tell_pc (e : PortEvent) : (s.tell e).pc = s.pc := rfl
@[simp] theorem tell_npc (e : PortEvent) : (s.tell e).npc = s.npc := rfl
@[simp] theorem tell_bds (e : PortEvent) : (s.tell e).bds = s.bds := rfl
@[simp] theorem tell_sr (e : PortEvent) : (s.tell e).sr = s.sr := rfl
@[simp] theorem tell_cause (e : PortEvent) : (s.tell e).cause = s.cause := rfl
@[simp] theorem tell_epc (e : PortEvent) : (s.tell e).epc = s.epc := rfl
@[simp] theorem tell_badvaddr (e : PortEvent) : (s.tell e).badvaddr = s.badvaddr := rfl
@[simp] theorem tell_bpc (e : PortEvent) : (s.tell e).bpc = s.bpc := rfl
@[simp] theorem tell_bda (e : PortEvent) : (s.tell e).bda = s.bda := rfl
@[simp] theorem tell_jumpdest (e : PortEvent) : (s.tell e).jumpdest = s.jumpdest := rfl
@[simp] theorem tell_dcic (e : PortEvent) : (s.tell e).dcic = s.dcic := rfl
@[simp] theorem tell_bdam (e : PortEvent) : (s.tell e).bdam = s.bdam := rfl
@[simp] theorem tell_bpcm (e : PortEvent) : (s.tell e).bpcm = s.bpcm := rfl
@[simp] theorem tell_iStat (e : PortEvent) : (s.tell e).iStat = s.iStat := rfl
@[simp] theorem tell_iMask (e : PortEvent) : (s.tell e).iMask = s.iMask := rfl
@[simp] theorem tell_dma (e : PortEvent) : (s.tell e).dma = s.dma := rfl
@[simp] theorem tell_dpcr (e : PortEvent) : (s.tell e).dpcr = s.dpcr := rfl
@[simp] theorem tell_dicr (e : PortEvent) : (s.tell e).dicr = s.dicr := rfl
@[simp] theorem tell_clk (e : PortEvent) : (s.tell e).clk = s.clk := rfl
@[simp] theorem tell_burst (e : PortEvent) : (s.tell e).burst = s.burst := rfl
@[simp] theorem tell_sched (e : PortEvent) : (s.tell e).sched = s.sched := rfl
@[simp] theorem tell_frameDone (e : PortEvent) : (s.tell e).frameDone = s.frameDone := rfl
@[simp] theorem tell_ram (e : PortEvent) : (s.tell e).ram = s.ram := rfl
@[simp] theorem tell_bios (e : PortEvent) : (s.tell e).bios = s.bios := rfl
@[simp] theorem tell_portLog (e : PortEvent) : (s.tell e).portLog = e :: s.portLog := rfl

/-! ## `raiseLines` -/

@[simp] theorem raiseLines_params (l : IrqLines) : (s.raiseLines l).params = s.params := rfl
@[simp] theorem raiseLines_regs (l : IrqLines) : (s.raiseLines l).regs = s.regs := rfl
@[simp] theorem raiseLines_stale (l : IrqLines) : (s.raiseLines l).stale = s.stale := rfl
@[simp] theorem raiseLines_hi (l : IrqLines) : (s.raiseLines l).hi = s.hi := rfl
@[simp] theorem raiseLines_lo (l : IrqLines) : (s.raiseLines l).lo = s.lo := rfl
@[simp] theorem raiseLines_pc (l : IrqLines) : (s.raiseLines l).pc = s.pc := rfl
@[simp] theorem raiseLines_npc (l : IrqLines) : (s.raiseLines l).npc = s.npc := rfl
@[simp] theorem raiseLines_bds (l : IrqLines) : (s.raiseLines l).bds = s.bds := rfl
@[simp] theorem raiseLines_sr (l : IrqLines) : (s.raiseLines l).sr = s.sr := rfl
@[simp] theorem raiseLines_cause (l : IrqLines) : (s.raiseLines l).cause = s.cause := rfl
@[simp] theorem raiseLines_epc (l : IrqLines) : (s.raiseLines l).epc = s.epc := rfl
@[simp] theorem raiseLines_badvaddr (l : IrqLines) : (s.raiseLines l).badvaddr = s.badvaddr := rfl
@[simp] theorem raiseLines_bpc (l : IrqLines) : (s.raiseLines l).bpc = s.bpc := rfl
@[simp] theorem raiseLines_bda (l : IrqLines) : (s.raiseLines l).bda = s.bda := rfl
@[simp] theorem raiseLines_jumpdest (l : IrqLines) : (s.raiseLines l).jumpdest = s.jumpdest := rfl
@[simp] theorem raiseLines_dcic (l : IrqLines) : (s.raiseLines l).dcic = s.dcic := rfl
@[simp] theorem raiseLines_bdam (l : IrqLines) : (s.raiseLines l).bdam = s.bdam := rfl
@[simp] theorem raiseLines_bpcm (l : IrqLines) : (s.raiseLines l).bpcm = s.bpcm := rfl
@[simp] theorem raiseLines_iStat (l : IrqLines) : (s.raiseLines l).iStat = s.iStat ||| (l &&& s.lineMask) := rfl
@[simp] theorem raiseLines_iMask (l : IrqLines) : (s.raiseLines l).iMask = s.iMask := rfl
@[simp] theorem raiseLines_dma (l : IrqLines) : (s.raiseLines l).dma = s.dma := rfl
@[simp] theorem raiseLines_dpcr (l : IrqLines) : (s.raiseLines l).dpcr = s.dpcr := rfl
@[simp] theorem raiseLines_dicr (l : IrqLines) : (s.raiseLines l).dicr = s.dicr := rfl
@[simp] theorem raiseLines_clk (l : IrqLines) : (s.raiseLines l).clk = s.clk := rfl
@[simp] theorem raiseLines_burst (l : IrqLines) : (s.raiseLines l).burst = s.burst := rfl
@[simp] theorem raiseLines_sched (l : IrqLines) : (s.raiseLines l).sched = s.sched := rfl
@[simp] theorem raiseLines_frameDone (l : IrqLines) : (s.raiseLines l).frameDone = s.frameDone := rfl
@[simp] theorem raiseLines_ram (l : IrqLines) : (s.raiseLines l).ram = s.ram := rfl
@[simp] theorem raiseLines_bios (l : IrqLines) : (s.raiseLines l).bios = s.bios := rfl
@[simp] theorem raiseLines_portLog (l : IrqLines) : (s.raiseLines l).portLog = s.portLog := rfl

/-! ## `charge` -/

@[simp] theorem charge_params (n : Nat) : (s.charge n).params = s.params := rfl
@[simp] theorem charge_regs (n : Nat) : (s.charge n).regs = s.regs := rfl
@[simp] theorem charge_stale (n : Nat) : (s.charge n).stale = s.stale := rfl
@[simp] theorem charge_hi (n : Nat) : (s.charge n).hi = s.hi := rfl
@[simp] theorem charge_lo (n : Nat) : (s.charge n).lo = s.lo := rfl
@[simp] theorem charge_pc (n : Nat) : (s.charge n).pc = s.pc := rfl
@[simp] theorem charge_npc (n : Nat) : (s.charge n).npc = s.npc := rfl
@[simp] theorem charge_bds (n : Nat) : (s.charge n).bds = s.bds := rfl
@[simp] theorem charge_sr (n : Nat) : (s.charge n).sr = s.sr := rfl
@[simp] theorem charge_cause (n : Nat) : (s.charge n).cause = s.cause := rfl
@[simp] theorem charge_epc (n : Nat) : (s.charge n).epc = s.epc := rfl
@[simp] theorem charge_badvaddr (n : Nat) : (s.charge n).badvaddr = s.badvaddr := rfl
@[simp] theorem charge_bpc (n : Nat) : (s.charge n).bpc = s.bpc := rfl
@[simp] theorem charge_bda (n : Nat) : (s.charge n).bda = s.bda := rfl
@[simp] theorem charge_jumpdest (n : Nat) : (s.charge n).jumpdest = s.jumpdest := rfl
@[simp] theorem charge_dcic (n : Nat) : (s.charge n).dcic = s.dcic := rfl
@[simp] theorem charge_bdam (n : Nat) : (s.charge n).bdam = s.bdam := rfl
@[simp] theorem charge_bpcm (n : Nat) : (s.charge n).bpcm = s.bpcm := rfl
@[simp] theorem charge_iStat (n : Nat) : (s.charge n).iStat = s.iStat := rfl
@[simp] theorem charge_iMask (n : Nat) : (s.charge n).iMask = s.iMask := rfl
@[simp] theorem charge_dma (n : Nat) : (s.charge n).dma = s.dma := rfl
@[simp] theorem charge_dpcr (n : Nat) : (s.charge n).dpcr = s.dpcr := rfl
@[simp] theorem charge_dicr (n : Nat) : (s.charge n).dicr = s.dicr := rfl
@[simp] theorem charge_clk (n : Nat) : (s.charge n).clk = (s.clk + n) % 2 ^ s.params.clkBits := rfl
@[simp] theorem charge_burst (n : Nat) : (s.charge n).burst = (s.burst + n) % 2 ^ s.params.clkBits := rfl
@[simp] theorem charge_sched (n : Nat) : (s.charge n).sched = s.sched := rfl
@[simp] theorem charge_frameDone (n : Nat) : (s.charge n).frameDone = s.frameDone := rfl
@[simp] theorem charge_ram (n : Nat) : (s.charge n).ram = s.ram := rfl
@[simp] theorem charge_bios (n : Nat) : (s.charge n).bios = s.bios := rfl
@[simp] theorem charge_portLog (n : Nat) : (s.charge n).portLog = s.portLog := rfl

/-! ## `setNext` -/

@[simp] theorem setNext_params (d : Device) (n : Int) : (s.setNext d n).params = s.params := rfl
@[simp] theorem setNext_regs (d : Device) (n : Int) : (s.setNext d n).regs = s.regs := rfl
@[simp] theorem setNext_stale (d : Device) (n : Int) : (s.setNext d n).stale = s.stale := rfl
@[simp] theorem setNext_hi (d : Device) (n : Int) : (s.setNext d n).hi = s.hi := rfl
@[simp] theorem setNext_lo (d : Device) (n : Int) : (s.setNext d n).lo = s.lo := rfl
@[simp] theorem setNext_pc (d : Device) (n : Int) : (s.setNext d n).pc = s.pc := rfl
@[simp] theorem setNext_npc (d : Device) (n : Int) : (s.setNext d n).npc = s.npc := rfl
@[simp] theorem setNext_bds (d : Device) (n : Int) : (s.setNext d n).bds = s.bds := rfl
@[simp] theorem setNext_sr (d : Device) (n : Int) : (s.setNext d n).sr = s.sr := rfl
@[simp] theorem setNext_cause (d : Device) (n : Int) : (s.setNext d n).cause = s.cause := rfl
@[simp] theorem setNext_epc (d : Device) (n : Int) : (s.setNext d n).epc = s.epc := rfl
@[simp] theorem setNext_badvaddr (d : Device) (n : Int) : (s.setNext d n).badvaddr = s.badvaddr := rfl
@[simp] theorem setNext_bpc (d : Device) (n : Int) : (s.setNext d n).bpc = s.bpc := rfl
@[simp] theorem setNext_bda (d : Device) (n : Int) : (s.setNext d n).bda = s.bda := rfl
@[simp] theorem setNext_jumpdest (d : Device) (n : Int) : (s.setNext d n).jumpdest = s.jumpdest := rfl
@[simp] theorem setNext_dcic (d : Device) (n : Int) : (s.setNext d n).dcic = s.dcic := rfl
@[simp] theorem setNext_bdam (d : Device) (n : Int) : (s.setNext d n).bdam = s.bdam := rfl
@[simp] theorem setNext_bpcm (d : Device) (n : Int) : (s.setNext d n).bpcm = s.bpcm := rfl
@[simp] theorem setNext_iStat (d : Device) (n : Int) : (s.setNext d n).iStat = s.iStat := rfl
@[simp] theorem setNext_iMask (d : Device) (n : Int) : (s.setNext d n).iMask = s.iMask := rfl
@[simp] theorem setNext_dma (d : Device) (n : Int) : (s.setNext d n).dma = s.dma := rfl
@[simp] theorem setNext_dpcr (d : Device) (n : Int) : (s.setNext d n).dpcr = s.dpcr := rfl
@[simp] theorem setNext_dicr (d : Device) (n : Int) : (s.setNext d n).dicr = s.dicr := rfl
@[simp] theorem setNext_clk (d : Device) (n : Int) : (s.setNext d n).clk = s.clk := rfl
@[simp] theorem setNext_burst (d : Device) (n : Int) : (s.setNext d n).burst = s.burst := rfl
@[simp] theorem setNext_sched (d : Device) (n : Int) : (s.setNext d n).sched = s.sched.map fun e => if e.device = d then { e with next := n } else e := rfl
@[simp] theorem setNext_frameDone (d : Device) (n : Int) : (s.setNext d n).frameDone = s.frameDone := rfl
@[simp] theorem setNext_ram (d : Device) (n : Int) : (s.setNext d n).ram = s.ram := rfl
@[simp] theorem setNext_bios (d : Device) (n : Int) : (s.setNext d n).bios = s.bios := rfl
@[simp] theorem setNext_portLog (d : Device) (n : Int) : (s.setNext d n).portLog = s.portLog := rfl

/-! ## `commit` -/

@[simp] theorem commit_params (n : Word) (c : Bool) : (commit s n c).params = s.params := rfl
@[simp] theorem commit_regs (n : Word) (c : Bool) : (commit s n c).regs = s.regs := rfl
@[simp] theorem commit_stale (n : Word) (c : Bool) : (commit s n c).stale = none := rfl
@[simp] theorem commit_hi (n : Word) (c : Bool) : (commit s n c).hi = s.hi := rfl
@[simp] theorem commit_lo (n : Word) (c : Bool) : (commit s n c).lo = s.lo := rfl
@[simp] theorem commit_pc (n : Word) (c : Bool) : (commit s n c).pc = s.npc := rfl
@[simp] theorem commit_npc (n : Word) (c : Bool) : (commit s n c).npc = n := rfl
@[simp] theorem commit_bds (n : Word) (c : Bool) : (commit s n c).bds = c := rfl
@[simp] theorem commit_sr (n : Word) (c : Bool) : (commit s n c).sr = s.sr := rfl
@[simp] theorem commit_cause (n : Word) (c : Bool) : (commit s n c).cause = s.cause := rfl
@[simp] theorem commit_epc (n : Word) (c : Bool) : (commit s n c).epc = s.epc := rfl
@[simp] theorem commit_badvaddr (n : Word) (c : Bool) : (commit s n c).badvaddr = s.badvaddr := rfl
@[simp] theorem commit_bpc (n : Word) (c : Bool) : (commit s n c).bpc = s.bpc := rfl
@[simp] theorem commit_bda (n : Word) (c : Bool) : (commit s n c).bda = s.bda := rfl
@[simp] theorem commit_jumpdest (n : Word) (c : Bool) : (commit s n c).jumpdest = s.jumpdest := rfl
@[simp] theorem commit_dcic (n : Word) (c : Bool) : (commit s n c).dcic = s.dcic := rfl
@[simp] theorem commit_bdam (n : Word) (c : Bool) : (commit s n c).bdam = s.bdam := rfl
@[simp] theorem commit_bpcm (n : Word) (c : Bool) : (commit s n c).bpcm = s.bpcm := rfl
@[simp] theorem commit_iStat (n : Word) (c : Bool) : (commit s n c).iStat = s.iStat := rfl
@[simp] theorem commit_iMask (n : Word) (c : Bool) : (commit s n c).iMask = s.iMask := rfl
@[simp] theorem commit_dma (n : Word) (c : Bool) : (commit s n c).dma = s.dma := rfl
@[simp] theorem commit_dpcr (n : Word) (c : Bool) : (commit s n c).dpcr = s.dpcr := rfl
@[simp] theorem commit_dicr (n : Word) (c : Bool) : (commit s n c).dicr = s.dicr := rfl
@[simp] theorem commit_clk (n : Word) (c : Bool) : (commit s n c).clk = s.clk := rfl
@[simp] theorem commit_burst (n : Word) (c : Bool) : (commit s n c).burst = s.burst := rfl
@[simp] theorem commit_sched (n : Word) (c : Bool) : (commit s n c).sched = s.sched := rfl
@[simp] theorem commit_frameDone (n : Word) (c : Bool) : (commit s n c).frameDone = s.frameDone := rfl
@[simp] theorem commit_ram (n : Word) (c : Bool) : (commit s n c).ram = s.ram := rfl
@[simp] theorem commit_bios (n : Word) (c : Bool) : (commit s n c).bios = s.bios := rfl
@[simp] theorem commit_portLog (n : Word) (c : Bool) : (commit s n c).portLog = s.portLog := rfl

/-! ## `enterException` -/

@[simp] theorem enterException_params (e : Exc) : (enterException e s).params = s.params := rfl
@[simp] theorem enterException_regs (e : Exc) : (enterException e s).regs = s.regs := rfl
@[simp] theorem enterException_stale (e : Exc) : (enterException e s).stale = s.stale := rfl
@[simp] theorem enterException_hi (e : Exc) : (enterException e s).hi = s.hi := rfl
@[simp] theorem enterException_lo (e : Exc) : (enterException e s).lo = s.lo := rfl
@[simp] theorem enterException_pc (e : Exc) : (enterException e s).pc = exceptionVector s := rfl
@[simp] theorem enterException_npc (e : Exc) : (enterException e s).npc = exceptionVector s + 4 := rfl
@[simp] theorem enterException_bds (e : Exc) : (enterException e s).bds = false := rfl
@[simp] theorem enterException_sr (e : Exc) : (enterException e s).sr = srPush s.sr := rfl
@[simp] theorem enterException_cause (e : Exc) : (enterException e s).cause = { s.cause with bd := s.bds, excCode := e.code, ce := 0 } := rfl
@[simp] theorem enterException_epc (e : Exc) : (enterException e s).epc = restartAddress s := rfl
@[simp] theorem enterException_badvaddr (e : Exc) : (enterException e s).badvaddr = e.badAddress.getD s.badvaddr := rfl
@[simp] theorem enterException_bpc (e : Exc) : (enterException e s).bpc = s.bpc := rfl
@[simp] theorem enterException_bda (e : Exc) : (enterException e s).bda = s.bda := rfl
@[simp] theorem enterException_jumpdest (e : Exc) : (enterException e s).jumpdest = s.jumpdest := rfl
@[simp] theorem enterException_dcic (e : Exc) : (enterException e s).dcic = s.dcic := rfl
@[simp] theorem enterException_bdam (e : Exc) : (enterException e s).bdam = s.bdam := rfl
@[simp] theorem enterException_bpcm (e : Exc) : (enterException e s).bpcm = s.bpcm := rfl
@[simp] theorem enterException_iStat (e : Exc) : (enterException e s).iStat = s.iStat := rfl
@[simp] theorem enterException_iMask (e : Exc) : (enterException e s).iMask = s.iMask := rfl
@[simp] theorem enterException_dma (e : Exc) : (enterException e s).dma = s.dma := rfl
@[simp] theorem enterException_dpcr (e : Exc) : (enterException e s).dpcr = s.dpcr := rfl
@[simp] theorem enterException_dicr (e : Exc) : (enterException e s).dicr = s.dicr := rfl
@[simp] theorem enterException_clk (e : Exc) : (enterException e s).clk = s.clk := rfl
@[simp] theorem enterException_burst (e : Exc) : (enterException e s).burst = s.burst := rfl
@[simp] theorem enterException_sched (e : Exc) : (enterException e s).sched = s.sched := rfl
@[simp] theorem enterException_frameDone (e : Exc) : (enterException e s).frameDone = s.frameDone := rfl
@[simp] theorem enterException_ram (e : Exc) : (enterException e s).ram = s.ram := rfl
@[simp] theorem enterException_bios (e : Exc) : (enterException e s).bios = s.bios := rfl
@[simp] theorem enterException_portLog (e : Exc) : (enterException e s).portLog = s.portLog := rfl

/-! ## `returnFromException` -/

@[simp] theorem returnFromException_params : (returnFromException s).params = s.params := rfl
@[simp] theorem returnFromException_regs : (returnFromException s).regs = s.regs := rfl
@[simp] theorem returnFromException_stale : (returnFromException s).stale = s.stale := rfl
@[simp] theorem returnFromException_hi : (returnFromException s).hi = s.hi := rfl
@[simp] theorem returnFromException_lo : (returnFromException s).lo = s.lo := rfl
@[simp] theorem returnFromException_pc : (returnFromException s).pc = s.pc := rfl
@[simp] theorem returnFromException_npc : (returnFromException s).npc = s.npc := rfl
@[simp] theorem returnFromException_bds : (returnFromException s).bds = s.bds := rfl
@[simp] theorem returnFromException_sr : (returnFromException s).sr = srPop s.sr := rfl
@[simp] theorem returnFromException_cause : (returnFromException s).cause = s.cause := rfl
@[simp] theorem returnFromException_epc : (returnFromException s).epc = s.epc := rfl
@[simp] theorem returnFromException_badvaddr : (returnFromException s).badvaddr = s.badvaddr := rfl
@[simp] theorem returnFromException_bpc : (returnFromException s).bpc = s.bpc := rfl
@[simp] theorem returnFromException_bda : (returnFromException s).bda = s.bda := rfl
@[simp] theorem returnFromException_jumpdest : (returnFromException s).jumpdest = s.jumpdest := rfl
@[simp] theorem returnFromException_dcic : (returnFromException s).dcic = s.dcic := rfl
@[simp] theorem returnFromException_bdam : (returnFromException s).bdam = s.bdam := rfl
@[simp] theorem returnFromException_bpcm : (returnFromException s).bpcm = s.bpcm := rfl
@[simp] theorem returnFromException_iStat : (returnFromException s).iStat = s.iStat := rfl
@[simp] theorem returnFromException_iMask : (returnFromException s).iMask = s.iMask := rfl
@[simp] theorem returnFromException_dma : (returnFromException s).dma = s.dma := rfl
@[simp] theorem returnFromException_dpcr : (returnFromException s).dpcr = s.dpcr := rfl
@[simp] theorem returnFromException_dicr : (returnFromException s).dicr = s.dicr := rfl
@[simp] theorem returnFromException_clk : (returnFromException s).clk = s.clk := rfl
@[simp] theorem returnFromException_burst : (returnFromException s).burst = s.burst := rfl
@[simp] theorem returnFromException_sched : (returnFromException s).sched = s.sched := rfl
@[simp] theorem returnFromException_frameDone : (returnFromException s).frameDone = s.frameDone := rfl
@[simp] theorem returnFromException_ram : (returnFromException s).ram = s.ram := rfl
@[simp] theorem returnFromException_bios : (returnFromException s).bios = s.bios := rfl
@[simp] theorem returnFromException_portLog : (returnFromException s).portLog = s.portLog := rfl

/-! ## `writeReg` -/

@[simp] theorem writeReg_params (i : RegIdx) (v : Word) : (s.writeReg i v).params = s.params := by unfold State.writeReg; split <;> rfl
@[simp] theorem writeReg_stale (i : RegIdx) (v : Word) : (s.writeReg i v).stale = s.stale := by unfold State.writeReg; split <;> rfl
@[simp] theorem writeReg_hi (i : RegIdx) (v : Word) : (s.writeReg i v).hi = s.hi := by unfold State.writeReg; split <;> rfl
@[simp] theorem writeReg_lo (i : RegIdx) (v : Word) : (s.writeReg i v).lo = s.lo := by unfold State.writeReg; split <;> rfl
@[simp] theorem writeReg_pc (i : RegIdx) (v : Word) : (s.writeReg i v).pc = s.pc := by unfold State.writeReg; split <;> rfl
@[simp] theorem writeReg_npc (i : RegIdx) (v : Word) : (s.writeReg i v).npc = s.npc := by unfold State.writeReg; split <;> rfl
@[simp] theorem writeReg_bds (i : RegIdx) (v : Word) : (s.writeReg i v).bds = s.bds := by unfold State.writeReg; split <;> rfl
@[simp] theorem writeReg_sr (i : RegIdx) (v : Word) : (s.writeReg i v).sr = s.sr := by unfold State.writeReg; split <;> rfl
@[simp] theorem writeReg_cause (i : RegIdx) (v : Word) : (s.writeReg i v).cause = s.cause := by unfold State.writeReg; split <;> rfl
@[simp] theorem writeReg_epc (i : RegIdx) (v : Word) : (s.writeReg i v).epc = s.epc := by unfold State.writeReg; split <;> rfl
@[simp] theorem writeReg_badvaddr (i : RegIdx) (v : Word) : (s.writeReg i v).badvaddr = s.badvaddr := by unfold State.writeReg; split <;> rfl
@[simp] theorem writeReg_bpc (i : RegIdx) (v : Word) : (s.writeReg i v).bpc = s.bpc := by unfold State.writeReg; split <;> rfl
@[simp] theorem writeReg_bda (i : RegIdx) (v : Word) : (s.writeReg i v).bda = s.bda := by unfold State.writeReg; split <;> rfl
@[simp] theorem writeReg_jumpdest (i : RegIdx) (v : Word) : (s.writeReg i v).jumpdest = s.jumpdest := by unfold State.writeReg; split <;> rfl
@[simp] theorem writeReg_dcic (i : RegIdx) (v : Word) : (s.writeReg i v).dcic = s.dcic := by unfold State.writeReg; split <;> rfl
@[simp] theorem writeReg_bdam (i : RegIdx) (v : Word) : (s.writeReg i v).bdam = s.bdam := by unfold State.writeReg; split <;> rfl
@[simp] theorem writeReg_bpcm (i : RegIdx) (v : Word) : (s.writeReg i v).bpcm = s.bpcm := by unfold State.writeReg; split <;> rfl
@[simp] theorem writeReg_iStat (i : RegIdx) (v : Word) : (s.writeReg i v).iStat = s.iStat := by unfold State.writeReg; split <;> rfl
@[simp] theorem writeReg_iMask (i : RegIdx) (v : Word) : (s.writeReg i v).iMask = s.iMask := by unfold State.writeReg; split <;> rfl
@[simp] theorem writeReg_dma (i : RegIdx) (v : Word) : (s.writeReg i v).dma = s.dma := by unfold State.writeReg; split <;> rfl
@[simp] theorem writeReg_dpcr (i : RegIdx) (v : Word) : (s.writeReg i v).dpcr = s.dpcr := by unfold State.writeReg; split <;> rfl
@[simp] theorem writeReg_dicr (i : RegIdx) (v : Word) : (s.writeReg i v).dicr = s.dicr := by unfold State.writeReg; split <;> rfl
@[simp] theorem writeReg_clk (i : RegIdx) (v : Word) : (s.writeReg i v).clk = s.clk := by unfold State.writeReg; split <;> rfl
@[simp] theorem writeReg_burst (i : RegIdx) (v : Word) : (s.writeReg i v).burst = s.burst := by unfold State.writeReg; split <;> rfl
@[simp] theorem writeReg_sched (i : RegIdx) (v : Word) : (s.writeReg i v).sched = s.sched := by unfold State.writeReg; split <;> rfl
@[simp] theorem writeReg_frameDone (i : RegIdx) (v : Word) : (s.writeReg i v).frameDone = s.frameDone := by unfold State.writeReg; split <;> rfl
@[simp] theorem writeReg_ram (i : RegIdx) (v : Word) : (s.writeReg i v).ram = s.ram := by unfold State.writeReg; split <;> rfl
@[simp] theorem writeReg_bios (i : RegIdx) (v : Word) : (s.writeReg i v).bios = s.bios := by unfold State.writeReg; split <;> rfl
@[simp] theorem writeReg_portLog (i : RegIdx) (v : Word) : (s.writeReg i v).portLog = s.portLog := by unfold State.writeReg; split <;> rfl

/-! ## The lines of the core (spec/60_exceptions.md R330) -/

/-- The mask of the lines depends on the parameters alone. -/
theorem lineMask_congr {s t : State} (h : t.params = s.params) : t.lineMask = s.lineMask := by
  unfold State.lineMask
  rw [h]

theorem getLsbD_lineMask (k : Nat) : s.lineMask.getLsbD k = (decide (k < 32) && decide (k < s.params.nIrq)) := by
  unfold State.lineMask
  rw [BitVec.getLsbD_ofNat, Nat.testBit_two_pow_sub_one]

/-- What stays within the lines. -/
theorem and_lineMask_idem (l : IrqLines) : l &&& s.lineMask &&& s.lineMask = l &&& s.lineMask := by
  rw [BitVec.and_assoc, BitVec.and_self]

theorem and_lineMask_or {a b : IrqLines} (ha : a &&& s.lineMask = a) (hb : b &&& s.lineMask = b) :
    (a ||| b) &&& s.lineMask = a ||| b := by
  rw [BitVec.and_or_distrib_right, ha, hb]

theorem and_lineMask_and {a : IrqLines} (ha : a &&& s.lineMask = a) (b : IrqLines) :
    a &&& b &&& s.lineMask = a &&& b := by
  rw [BitVec.and_assoc, BitVec.and_comm b, ← BitVec.and_assoc, ha]

/-- The composite signal in the bits of `I_STAT` and `I_MASK` (spec/60_exceptions.md R333). -/
theorem composite_iff : s.composite = true ↔
    ∃ k, k < s.params.nIrq ∧ s.iStat.getLsbD k = true ∧ s.iMask.getLsbD k = true := by
  have hb : ∀ k, (s.iStat &&& s.iMask &&& s.lineMask).getLsbD k = true ↔
      k < s.params.nIrq ∧ s.iStat.getLsbD k = true ∧ s.iMask.getLsbD k = true := by
    intro k
    rw [BitVec.getLsbD_and, BitVec.getLsbD_and, getLsbD_lineMask]
    simp only [Bool.and_eq_true, decide_eq_true_eq]
    constructor
    · rintro ⟨⟨h1, h2⟩, _, h3⟩
      exact ⟨h3, h1, h2⟩
    · rintro ⟨h3, h1, h2⟩
      exact ⟨⟨h1, h2⟩, BitVec.lt_of_getLsbD h1, h3⟩
  unfold State.composite
  rw [bne_iff_ne]
  constructor
  · intro h
    by_contra hn
    apply h
    apply BitVec.eq_of_getLsbD_eq
    intro i _
    refine Eq.trans ?_ BitVec.getLsbD_zero.symm
    rw [← Bool.not_eq_true, hb]
    exact fun hc => hn ⟨i, hc⟩
  · rintro ⟨k, hk⟩ h
    have := (hb k).mpr hk
    rw [h] at this
    simp at this

end Sys2Proof.Machine
end

