-- ==== Sys2Proof/Laws/Memory.lean ====
section
/-! SUPPORT. The canonical form of a memory and its basic laws: every operation keeps the form, a read after a write
to the same index gives the byte written, a write leaves every other index alone. -/

namespace Sys2Proof.Machine

theorem Memory.wfFrom_mono {lo lo' : Nat} (h : lo' ≤ lo) :
    ∀ {m : Memory}, Memory.wfFrom lo m = true → Memory.wfFrom lo' m = true
  | [], _ => rfl
  | (k, b) :: m, hm => by
    simp only [Memory.wfFrom, Bool.and_eq_true, decide_eq_true_eq] at hm ⊢
    exact ⟨⟨by omega, hm.1.2⟩, hm.2⟩

theorem Memory.wfFrom_put {lo a : Nat} {b : Byte} {m : Memory} (ha : lo ≤ a)
    (hm : Memory.wfFrom (a + 1) m = true) : Memory.wfFrom lo (Memory.put a b m) = true := by
  unfold Memory.put
  split
  · exact Memory.wfFrom_mono (by omega) hm
  · next hb => simp [Memory.wfFrom, ha, hb, hm]

theorem Memory.wfFrom_set {lo a : Nat} {b : Byte} (ha : lo ≤ a) :
    ∀ {m : Memory}, Memory.wfFrom lo m = true → Memory.wfFrom lo (Memory.set m a b) = true := by
  intro m
  induction m generalizing lo with
  | nil => intro _; exact Memory.wfFrom_put ha rfl
  | cons c m ih =>
    obtain ⟨k, d⟩ := c
    intro hm
    have hm' := hm
    simp only [Memory.wfFrom, Bool.and_eq_true, decide_eq_true_eq] at hm
    simp only [Memory.set]
    split
    · next h => subst h; exact Memory.wfFrom_put ha hm.2
    · split
      · next h =>
        refine Memory.wfFrom_put ha ?_
        simp only [Memory.wfFrom, Bool.and_eq_true, decide_eq_true_eq]
        exact ⟨⟨by omega, hm.1.2⟩, hm.2⟩
      · simp only [Memory.wfFrom, Bool.and_eq_true, decide_eq_true_eq]
        exact ⟨hm.1, ih (by omega) hm.2⟩

theorem Memory.get_below {lo a : Nat} (ha : a < lo) :
    ∀ {m : Memory}, Memory.wfFrom lo m = true → Memory.get m a = Memory.blank
  | [], _ => rfl
  | (k, b) :: m, hm => by
    simp only [Memory.wfFrom, Bool.and_eq_true, decide_eq_true_eq] at hm
    simp only [Memory.get]
    rw [if_neg (by omega), if_pos (by omega)]

theorem Memory.get_put {lo a a' : Nat} {b : Byte} {m : Memory} (hlo : a < lo)
    (hm : Memory.wfFrom lo m = true) :
    Memory.get (Memory.put a b m) a' = if a' = a then b else Memory.get m a' := by
  unfold Memory.put
  split
  · next hb =>
    split
    · next h => subst h; rw [Memory.get_below hlo hm, hb]
    · rfl
  · simp only [Memory.get]
    split
    · rfl
    · split
      · next h => exact (Memory.get_below (by omega) hm).symm
      · rfl

/-- Read after write, one byte. -/
theorem Memory.get_set {a a' : Nat} {b : Byte} {lo : Nat} {m : Memory} (hm : Memory.wfFrom lo m = true) :
    Memory.get (Memory.set m a b) a' = if a' = a then b else Memory.get m a' := by
  induction m generalizing lo with
  | nil => exact Memory.get_put (lo := a + 1) (by omega) rfl
  | cons c m ih =>
    obtain ⟨k, d⟩ := c
    have hm' := hm
    simp only [Memory.wfFrom, Bool.and_eq_true, decide_eq_true_eq] at hm
    simp only [Memory.set]
    split
    · next h =>
      subst h
      rw [Memory.get_put (by omega) hm.2]
      by_cases h' : a' = a
      · simp [h']
      · simp only [if_neg h', Memory.get]
        split
        · next h'' => exact Memory.get_below (by omega) hm.2
        · rfl
    · next hk =>
      split
      · next h =>
        have hw : Memory.wfFrom k ((k, d) :: m) = true := by
          simp only [Memory.wfFrom, Bool.and_eq_true, decide_eq_true_eq]; exact ⟨⟨by omega, hm.1.2⟩, hm.2⟩
        exact Memory.get_put h hw
      · next h =>
        simp only [Memory.get, ih hm.2]
        by_cases h1 : a' = k
        · subst h1; simp [Ne.symm hk]
        · by_cases h2 : a' = a
          · subst h2; simp [hk, h]
          · simp [h1, h2]

theorem Memory.all_put {P : Host.Cell → Bool} {a : Nat} {b : Byte} {m : Memory} (ha : P (a, b) = true)
    (hm : m.all P = true) : (Memory.put a b m).all P = true := by
  unfold Memory.put
  split
  · exact hm
  · rw [List.all_cons, ha, hm]; rfl

theorem Memory.all_set {P : Host.Cell → Bool} {a : Nat} {b : Byte} (ha : P (a, b) = true) :
    ∀ {m : Memory}, m.all P = true → (Memory.set m a b).all P = true
  | [], _ => Memory.all_put ha rfl
  | (k, c) :: m, hm => by
    have h := hm
    simp only [List.all_cons, Bool.and_eq_true] at h
    simp only [Memory.set]
    split
    · exact Memory.all_put ha h.2
    · split
      · exact Memory.all_put ha hm
      · simp only [List.all_cons, Bool.and_eq_true]
        exact ⟨h.1, Memory.all_set ha h.2⟩

theorem Memory.wf_from {size : Nat} {m : Memory} (h : Memory.wf size m = true) : Memory.wfFrom 0 m = true := by
  simp only [Memory.wf, Bool.and_eq_true] at h
  exact h.1

/-- A write inside the array keeps the canonical form. -/
theorem Memory.wf_set {size a : Nat} {b : Byte} {m : Memory} (ha : a < size) (h : Memory.wf size m = true) :
    Memory.wf size (Memory.set m a b) = true := by
  simp only [Memory.wf, Bool.and_eq_true] at h ⊢
  exact ⟨Memory.wfFrom_set (Nat.zero_le a) h.1, Memory.all_set (by simpa using ha) h.2⟩

theorem Memory.wf_writeLE {size o : Nat} {v : Word} {n : Width} {m : Memory} (hs : 0 < size)
    (h : Memory.wf size m = true) : Memory.wf size (Memory.writeLE m size o v n) = true := by
  have hl : ∀ k, k % size < size := fun k => Nat.mod_lt k hs
  cases n
  · exact Memory.wf_set (hl _) h
  · exact Memory.wf_set (hl _) (Memory.wf_set (hl _) h)
  · exact Memory.wf_set (hl _) (Memory.wf_set (hl _) (Memory.wf_set (hl _) (Memory.wf_set (hl _) h)))

theorem Memory.wf_setAll {size : Nat} (hs : 0 < size) (cs : List Host.Cell) :
    ∀ {m : Memory}, Memory.wf size m = true → Memory.wf size (Memory.setAll size cs m) = true := by
  induction cs with
  | nil => intro m h; exact h
  | cons c cs ih => intro m h; exact ih (Memory.wf_set (Nat.mod_lt _ hs) h)

/-- What an index reads as after bytes are written one after another: the last one for it, else what it read as. -/
theorem Memory.get_setAll {size : Nat} (cs : List Host.Cell) (p : Nat) :
    ∀ {m : Memory}, Memory.wfFrom 0 m = true → (Memory.setAll size cs m).get p =
      (((cs.filter fun q => q.1 % size == p).getLast?).map Prod.snd).getD (m.get p) := by
  induction cs with
  | nil => intro m _; rfl
  | cons c cs ih =>
    obtain ⟨a, b⟩ := c
    intro m hm
    have h1 := ih (Memory.wfFrom_set (a := a % size) (b := b) (Nat.zero_le _) hm)
    rw [Memory.get_set hm] at h1
    refine h1.trans ?_
    by_cases h : a % size = p
    · rw [List.filter_cons_of_pos (by simpa using h), if_pos h.symm, List.getLast?_cons]
      cases (cs.filter fun q => q.1 % size == p).getLast? <;> rfl
    · rw [List.filter_cons_of_neg (by simpa using h), if_neg (Ne.symm h)]

theorem Memory.wf_load {size : Nat} (bs : List Byte) :
    ∀ {a : Nat} {m : Memory}, a + bs.length ≤ size → Memory.wf size m = true →
      Memory.wf size (Memory.load bs a m) = true := by
  induction bs with
  | nil => intro a m _ h; exact h
  | cons b bs ih =>
    intro a m hl h
    simp only [List.length_cons] at hl
    exact ih (by omega) (Memory.wf_set (by omega) h)

/-- What an index reads as after a list of bytes is laid out. -/
theorem Memory.get_load (bs : List Byte) : ∀ {a p : Nat} {m : Memory}, Memory.wfFrom 0 m = true →
    Memory.get (Memory.load bs a m) p = if a ≤ p then (bs[p - a]?).getD (Memory.get m p) else Memory.get m p := by
  induction bs with
  | nil => intro a p m _; simp [Memory.load]
  | cons b bs ih =>
    intro a p m hm
    unfold Memory.load
    rw [ih (Memory.wfFrom_set (Nat.zero_le _) hm), Memory.get_set hm]
    by_cases h1 : a + 1 ≤ p
    · have e : p - a = (p - (a + 1)) + 1 := by omega
      rw [if_pos h1, if_neg (show ¬ p = a by omega), if_pos (show a ≤ p by omega), e]
      simp
    · by_cases h2 : p = a
      · subst h2
        simp
      · rw [if_neg h1, if_neg h2, if_neg (by omega)]

/-- The indexes an `n`-byte access at offset `o` touches. -/
def Memory.touched (size o : Nat) (n : Width) : List Nat := (List.range n.bytes).map fun i => (o + i) % size

/-- A little-endian write leaves every index it does not touch alone. -/
theorem Memory.get_writeLE_other {size o k lo : Nat} {v : Word} {n : Width} {m : Memory}
    (hm : Memory.wfFrom lo m = true) (h0 : lo = 0) (hk : ∀ i, i < n.bytes → k ≠ (o + i) % size) :
    Memory.get (Memory.writeLE m size o v n) k = Memory.get m k := by
  subst h0
  have hw : ∀ {m : Memory} {a : Nat} {b : Byte}, Memory.wfFrom 0 m = true → Memory.wfFrom 0 (m.set a b) = true :=
    fun h => Memory.wfFrom_set (Nat.zero_le _) h
  cases n
  · have h0 := hk 0 (by decide)
    simp only [Nat.add_zero] at h0
    simp only [Memory.writeLE, Memory.get_set hm, if_neg h0]
  · have h0 := hk 0 (by decide)
    have h1 := hk 1 (by decide)
    simp only [Nat.add_zero] at h0
    simp only [Memory.writeLE, Memory.get_set (hw hm), Memory.get_set hm, if_neg h0, if_neg h1]
  · have h0 := hk 0 (by decide)
    have h1 := hk 1 (by decide)
    have h2 := hk 2 (by decide)
    have h3 := hk 3 (by decide)
    simp only [Nat.add_zero] at h0
    simp only [Memory.writeLE, Memory.get_set (hw (hw (hw hm))), Memory.get_set (hw (hw hm)),
      Memory.get_set (hw hm), Memory.get_set hm, if_neg h0, if_neg h1, if_neg h2, if_neg h3]

theorem Memory.mod_ne {size o a b : Nat} (hs : 4 ≤ size) (ha : a < 4) (hb : b < 4) (hab : a ≠ b) :
    (o + a) % size ≠ (o + b) % size := by
  intro h
  have h2 := Nat.ModEq.add_left_cancel' o (show (o + a) ≡ (o + b) [MOD size] from h)
  rw [Nat.ModEq, Nat.mod_eq_of_lt (by omega), Nat.mod_eq_of_lt (by omega)] at h2
  exact hab h2

theorem Memory.mod_ne_zero {size o b : Nat} (hs : 4 ≤ size) (hb : b < 4) (h : 0 ≠ b) : o % size ≠ (o + b) % size :=
  Memory.mod_ne (a := 0) hs (by omega) hb h

/-- A little-endian write puts bits `8i+7:8i` of the value at offset `o + i` (spec/20_memory.md R62). -/
theorem Memory.get_writeLE_touched {size o i : Nat} {v : Word} {n : Width} {m : Memory} (hs : 4 ≤ size)
    (hm : Memory.wfFrom 0 m = true) (hi : i < n.bytes) :
    Memory.get (Memory.writeLE m size o v n) ((o + i) % size) = v.extractLsb' (8 * i) 8 := by
  have hw : ∀ {m : Memory} {a : Nat} {b : Byte}, Memory.wfFrom 0 m = true → Memory.wfFrom 0 (m.set a b) = true :=
    fun h => Memory.wfFrom_set (Nat.zero_le _) h
  cases n <;> simp only [Width.bytes] at hi
  · obtain rfl : i = 0 := by omega
    simp [Memory.writeLE, Memory.get_set hm]
  · simp only [Memory.writeLE, Memory.get_set (hw hm), Memory.get_set hm]
    interval_cases i <;> simp (disch := omega) [Memory.mod_ne_zero hs]
  · simp only [Memory.writeLE, Memory.get_set (hw (hw (hw hm))), Memory.get_set (hw (hw hm)),
      Memory.get_set (hw hm), Memory.get_set hm]
    interval_cases i <;> simp (disch := omega) [Memory.mod_ne hs, Memory.mod_ne_zero hs]

/-- A little-endian read gives the byte at offset `o + i` in bits `8i+7:8i` (R62). -/
theorem Memory.byte_readLE {size o i : Nat} {n : Width} {m : Memory} (hi : i < n.bytes) :
    (Memory.readLE m size o n).extractLsb' (8 * i) 8 = Memory.get m ((o + i) % size) := by
  apply BitVec.eq_of_getLsbD_eq
  intro k hk
  cases n <;> simp only [Width.bytes] at hi <;> interval_cases i <;> interval_cases k <;>
    simp [Memory.readLE, getElem_place]

/-- The bits above those read are 0 (R80). -/
theorem Memory.high_readLE {size o i : Nat} {n : Width} {m : Memory} (hi : 8 * n.bytes ≤ i) :
    (Memory.readLE m size o n).getLsbD i = false := by
  cases n <;> simp only [Width.bytes] at hi <;>
    simp (disch := omega) [Memory.readLE, getLsbD_place, BitVec.getLsbD_of_ge]

/-- Two values of `n` bytes that agree byte by byte. -/
theorem eq_of_bytes {n : Width} {a b : Word} (ha : ∀ i, 8 * n.bytes ≤ i → a.getLsbD i = false)
    (hb : ∀ i, 8 * n.bytes ≤ i → b.getLsbD i = false)
    (h : ∀ i, i < n.bytes → a.extractLsb' (8 * i) 8 = b.extractLsb' (8 * i) 8) : a = b := by
  apply BitVec.eq_of_getLsbD_eq
  intro i _
  by_cases hi : 8 * n.bytes ≤ i
  · rw [ha i hi, hb i hi]
  · have := congrArg (fun v : Byte => v.getLsbD (i % 8)) (h (i / 8) (by omega))
    simp only [BitVec.getLsbD_extractLsb', show i % 8 < 8 by omega, decide_true, Bool.true_and,
      show 8 * (i / 8) + i % 8 = i by omega] at this
    exact this

theorem getLsbD_truncTo (n : Width) (v : Word) (i : Nat) :
    (truncTo n v).getLsbD i = (decide (i < 8 * n.bytes) && v.getLsbD i) := by
  by_cases h : i < 32
  · cases n <;> interval_cases i <;> simp [truncTo, Width.bytes]
  · rw [BitVec.getLsbD_of_ge _ _ (by omega), BitVec.getLsbD_of_ge v _ (by omega), Bool.and_false]

theorem byte_truncTo {n : Width} {v : Word} {i : Nat} (hi : i < n.bytes) :
    (truncTo n v).extractLsb' (8 * i) 8 = v.extractLsb' (8 * i) 8 := by
  apply BitVec.eq_of_getLsbD_eq
  intro k hk
  simp only [BitVec.getLsbD_extractLsb', hk, decide_true, Bool.true_and, getLsbD_truncTo]
  simp; omega

/-- Read after write: the low bytes of the value (R62, R78). -/
theorem Memory.readLE_writeLE {size o : Nat} {v : Word} {n : Width} {m : Memory} (hs : 4 ≤ size)
    (hm : Memory.wfFrom 0 m = true) : Memory.readLE (Memory.writeLE m size o v n) size o n = truncTo n v := by
  refine eq_of_bytes (n := n) (fun i hi => Memory.high_readLE hi) (fun i hi => ?_) fun i hi => ?_
  · rw [getLsbD_truncTo]; simp; omega
  · rw [Memory.byte_readLE hi, Memory.get_writeLE_touched hs hm hi, byte_truncTo hi]

/-- A read depends only on the bytes it touches. -/
theorem Memory.readLE_congr {size o p : Nat} {n : Width} {m : Memory} (h : ∀ i, (o + i) % size = (p + i) % size) :
    Memory.readLE m size o n = Memory.readLE m size p n := by
  refine eq_of_bytes (n := n) (fun i hi => Memory.high_readLE hi) (fun i hi => Memory.high_readLE hi) fun i hi => ?_
  rw [Memory.byte_readLE hi, Memory.byte_readLE hi, h]

end Sys2Proof.Machine
end

