-- ==== Sys2Proof/Laws/Dma.lean ====
section
/-! SUPPORT. The DMA block: what its operations change, that bit 31 of DICR is the composite interrupt after each of
them (spec/60_exceptions.md R342), and that its loop leaves no channel ready (R343). -/

namespace Sys2Proof.Machine

/-! ## What the block's operations can change -/

/-- Nothing but RAM, the DMA registers, DICR, `I_STAT` and the collaborators' history differs. -/
def DmaFrame (s t : State) : Prop :=
  t = { s with ram := t.ram, dma := t.dma, dicr := t.dicr, iStat := t.iStat, portLog := t.portLog }

theorem DmaFrame.refl (s : State) : DmaFrame s s := rfl

theorem DmaFrame.trans {s t u : State} (h : DmaFrame s t) (h' : DmaFrame t u) : DmaFrame s u := by
  unfold DmaFrame at *
  rw [h'] ; rw [h]

theorem dmaRecompute_frame (s : State) : DmaFrame s (dmaRecompute s) := rfl

theorem dmaComplete_frame (s : State) (c : Channel) : DmaFrame s (dmaComplete s c) := by
  unfold dmaComplete
  refine DmaFrame.trans ?_ (dmaRecompute_frame _)
  split <;> rfl

theorem dmaRun_frame (s : State) (c : Channel) : DmaFrame s (dmaRun s c) := rfl

theorem dmaServe_frame (s : State) (c : Channel) : DmaFrame s (dmaServe s c) := by
  unfold dmaServe
  exact DmaFrame.trans (dmaRun_frame s c) (DmaFrame.trans (by rfl) (dmaComplete_frame _ c))

theorem dmaLoop_frame (fuel : Nat) : ∀ s : State, DmaFrame s (dmaLoop fuel s) := by
  induction fuel with
  | zero => exact fun s => rfl
  | succ n ih =>
    intro s
    unfold dmaLoop
    split
    · rfl
    · next c _ => exact (dmaServe_frame s c).trans (ih _)

theorem dmaService_frame (s : State) : DmaFrame s (dmaService s) := dmaLoop_frame _ s

/-- Nothing but RAM, the DMA registers, DPCR, DICR, `I_STAT` and the collaborators' history differs. -/
def DmaWriteFrame (s t : State) : Prop :=
  t = { s with
    ram := t.ram, dma := t.dma, dpcr := t.dpcr, dicr := t.dicr, iStat := t.iStat, portLog := t.portLog }

theorem DmaWriteFrame.trans {s t u : State} (h : DmaWriteFrame s t) (h' : DmaFrame t u) : DmaWriteFrame s u := by
  unfold DmaWriteFrame DmaFrame at *
  rw [h']; rw [h]

theorem dmaRegWrite_frame (s : State) (o : Nat) (n : Width) (v : Word) : DmaWriteFrame s (dmaRegWrite s o n v) := by
  unfold dmaRegWrite
  split
  · rfl
  · rfl
  · exact DmaWriteFrame.trans (by rfl) (dmaService_frame _)
  · exact DmaWriteFrame.trans (by rfl) (dmaService_frame _)
  · rfl
  · rfl

theorem dmaWrite_frame (s : State) (o : Nat) (n : Width) (v : Word) : DmaWriteFrame s (dmaWrite s o n v) :=
  (dmaRegWrite_frame s o n v).trans (dmaRecompute_frame _)

/-! ## `DmaRecompute()` -/

@[simp] theorem dmaRecompute_dicr (s : State) : (dmaRecompute s).dicr = dicrRefreshed s.dicr := rfl

@[simp] theorem dmaRecompute_dma (s : State) : (dmaRecompute s).dma = s.dma := rfl

@[simp] theorem dmaRecompute_ram (s : State) : (dmaRecompute s).ram = s.ram := rfl

theorem dmaRecompute_iStat (s : State) : (dmaRecompute s).iStat =
    s.iStat ||| ((if dmaIrq s.dicr && !s.dicr.getLsbD 31 then 0x008#32 else 0) &&& s.lineMask) := rfl

/-- Line 3 is raised exactly on a 0 to 1 transition of bit 31 (R348), in a core that has it. -/
theorem bit_dmaRecompute_iStat (s : State) (k : Nat) : (dmaRecompute s).iStat.getLsbD k = true ↔
    s.iStat.getLsbD k = true ∨ k = 3 ∧ 3 < s.params.nIrq ∧ dmaIrq s.dicr = true ∧ s.dicr.getLsbD 31 = false := by
  have h8 : (0x008#32).getLsbD k = decide (k = 3) := by
    by_cases hk : k < 32
    · interval_cases k <;> rfl
    · rw [BitVec.getLsbD_of_ge _ _ (by omega), decide_eq_false (by omega)]
  rw [dmaRecompute_iStat, BitVec.getLsbD_or, BitVec.getLsbD_and, getLsbD_lineMask]
  by_cases h3 : k = 3
  · subst h3
    cases dmaIrq s.dicr <;> cases s.dicr.getLsbD 31 <;> simp
  · cases dmaIrq s.dicr <;> cases s.dicr.getLsbD 31 <;> simp [h8, h3]

/-- Bits other than 31 are kept. -/
theorem getLsbD_dicrRefreshed {d : Word} {i : Nat} (h : i < 31) :
    (dicrRefreshed d).getLsbD i = d.getLsbD i := by
  unfold dicrRefreshed place
  rw [BitVec.getLsbD_or, BitVec.getLsbD_and, BitVec.getLsbD_shiftLeft]
  interval_cases i <;> simp

theorem bit31_dicrRefreshed (d : Word) : (dicrRefreshed d).getLsbD 31 = dmaIrq d := by
  unfold dicrRefreshed place
  simp

theorem dmaIrq_congr {d e : Word} (h : ∀ i, i < 31 → d.getLsbD i = e.getLsbD i) : dmaIrq d = dmaIrq e := by
  have hx : ∀ k, k + 7 ≤ 31 → d.extractLsb' k 7 = e.extractLsb' k 7 := by
    intro k hk
    apply BitVec.eq_of_getLsbD_eq
    intro i hi
    simp only [BitVec.getLsbD_extractLsb', hi, decide_true, Bool.true_and]
    exact h _ (by omega)
  unfold dmaIrq
  rw [h 15 (by omega), h 23 (by omega), hx 16 (by omega), hx 24 (by omega)]

@[simp] theorem dmaIrq_dicrRefreshed (d : Word) : dmaIrq (dicrRefreshed d) = dmaIrq d :=
  dmaIrq_congr fun _ hi => getLsbD_dicrRefreshed hi

/-- After `DmaRecompute()` bit 31 of DICR is the composite interrupt (R342). -/
theorem dicr_irq_dmaRecompute (s : State) :
    (dmaRecompute s).dicr.getLsbD 31 = dmaIrq (dmaRecompute s).dicr := by
  rw [dmaRecompute_dicr, bit31_dicrRefreshed, dmaIrq_dicrRefreshed]

/-- DICR bits 14:6 (R341) in terms of its bits. -/
theorem dicr_zero_iff (d : Word) : d.extractLsb' 6 9 = 0 ↔ ∀ i, 6 ≤ i → i < 15 → d.getLsbD i = false := by
  constructor
  · intro h i h1 h2
    have h3 := congrArg (fun v : BitVec 9 => v.getLsbD (i - 6)) h
    simp only [BitVec.getLsbD_extractLsb'] at h3
    have : 6 + (i - 6) = i := by omega
    simpa [this, show i - 6 < 9 by omega] using h3
  · intro h
    apply BitVec.eq_of_getLsbD_eq
    intro i hi
    simp only [BitVec.getLsbD_extractLsb', hi, decide_true, Bool.true_and, BitVec.ofNat_eq_ofNat,
      BitVec.getLsbD_zero]
    exact h _ (by omega) (by omega)

theorem dicr_zero_dicrRefreshed {d : Word} (h : d.extractLsb' 6 9 = 0) : (dicrRefreshed d).extractLsb' 6 9 = 0 := by
  rw [dicr_zero_iff] at *
  intro i h1 h2
  rw [getLsbD_dicrRefreshed (by omega)]
  exact h i h1 h2

/-- A guest write keeps bits 14:6 at 0 (R345). -/
theorem dicr_zero_dicrWrite (n : Width) (o : Nat) {d : Word} (v : Word) (_h : d.extractLsb' 6 9 = 0) :
    (dicrWrite n o d v).extractLsb' 6 9 = 0 := by
  rw [dicr_zero_iff]
  intro i h1 h2
  unfold dicrWrite dicrStored dicrFlags
  simp only [BitVec.getLsbD_or, BitVec.getLsbD_and]
  interval_cases i <;> simp

theorem dicr_zero_setFlag {d : Word} (c : Channel) (h : d.extractLsb' 6 9 = 0) :
    (d ||| (1#32 <<< (24 + c.val))).extractLsb' 6 9 = 0 := by
  rw [dicr_zero_iff] at *
  intro i h1 h2
  rw [BitVec.getLsbD_or, h i h1 h2, BitVec.getLsbD_shiftLeft]
  simp [show i < 24 + c.val by omega]

/-! ## Invariants of the block -/

/-- The part of `ExecInv` the block's operations may touch, without idleness. -/
structure DmaInv (s : State) : Prop where
  dicr_irq : s.dicr.getLsbD 31 = dmaIrq s.dicr
  dicr_zero : s.dicr.extractLsb' 6 9 = 0
  ram_wf : Memory.wf Config.ramSize s.ram = true
  stat_width : s.iStat &&& s.lineMask = s.iStat
  dma_width : ∀ c : Channel, s.params.nDma ≤ c.val → s.dma[c] = ⟨0, 0, 0⟩

/-- `DmaInv` but for bit 31 of DICR, which `DmaRecompute()` sets right. -/
structure DmaPreInv (s : State) : Prop where
  dicr_zero : s.dicr.extractLsb' 6 9 = 0
  ram_wf : Memory.wf Config.ramSize s.ram = true
  stat_width : s.iStat &&& s.lineMask = s.iStat
  dma_width : ∀ c : Channel, s.params.nDma ≤ c.val → s.dma[c] = ⟨0, 0, 0⟩

theorem DmaInv.pre {s : State} (h : DmaInv s) : DmaPreInv s := { h with }

theorem DmaPreInv.recompute {s : State} (h : DmaPreInv s) : DmaInv (dmaRecompute s) where
  dicr_irq := dicr_irq_dmaRecompute s
  dicr_zero := by rw [dmaRecompute_dicr]; exact dicr_zero_dicrRefreshed h.dicr_zero
  ram_wf := h.ram_wf
  stat_width := and_lineMask_or s h.stat_width (and_lineMask_idem s _)
  dma_width := h.dma_width

/-- Writing one channel the core has. -/
theorem DmaPreInv.setDma {s : State} (h : DmaPreInv s) {c : Channel} (hc : c.val < s.params.nDma) (r : DmaChannel) :
    DmaPreInv { s with dma := s.dma.set c r } where
  dicr_zero := h.dicr_zero
  ram_wf := h.ram_wf
  stat_width := h.stat_width
  dma_width d hd := by
    have hne : (c : ℕ) ≠ (d : ℕ) := fun he => by
      have hd : s.params.nDma ≤ d.val := hd
      omega
    have := h.dma_width d hd
    simpa [hne] using this

theorem DmaPreInv.complete {s : State} (h : DmaPreInv s) (c : Channel) : DmaInv (dmaComplete s c) := by
  unfold dmaComplete
  split
  · exact DmaPreInv.recompute { h with dicr_zero := dicr_zero_setFlag c h.dicr_zero }
  · exact h.recompute

theorem dmaServe_inv {s : State} {c : Channel} (hc : c.val < s.params.nDma) (h : DmaInv s) : DmaInv (dmaServe s c) := by
  have hr : DmaPreInv (dmaRun s c) :=
    (DmaPreInv.setDma (s := { s with ram := (dmaRun s c).ram, portLog := (dmaRun s c).portLog })
      { h.pre with ram_wf := Memory.wf_setAll (by decide) _ h.ram_wf } hc _)
  exact (hr.setDma hc _).complete c

/-! ## The loop ends with no channel ready (R343) -/

@[simp] theorem dmaComplete_dma (s : State) (c : Channel) : (dmaComplete s c).dma = s.dma := by
  unfold dmaComplete
  rw [dmaRecompute_dma]
  split <;> rfl

theorem dpcr_of_frame {s t : State} (h : DmaFrame s t) : t.dpcr = s.dpcr := by rw [h]

theorem params_of_frame {s t : State} (h : DmaFrame s t) : t.params = s.params := by rw [h]

/-- Serving a channel makes it not ready. -/
theorem dmaReady_served (s : State) (c : Channel) : dmaReady (dmaServe s c) c = false := by
  have h : (dmaServe s c).dma[c].chcr.getLsbD 24 = false := by
    unfold dmaServe
    simp [dmaComplete_dma]
  simp only [dmaReady, h, Bool.false_and, Bool.and_false]

/-- Serving a channel leaves every other channel's readiness alone. -/
theorem dmaReady_other (s : State) {c d : Channel} (h : d ≠ c) : dmaReady (dmaServe s c) d = dmaReady s d := by
  have hne : (c : ℕ) ≠ (d : ℕ) := fun h' => h (Fin.ext h'.symm)
  have hd : (dmaServe s c).dma[d] = s.dma[d] := by
    unfold dmaServe dmaRun
    simp [dmaComplete_dma, hne]
  unfold dmaReady
  rw [hd, dpcr_of_frame (dmaServe_frame s c), params_of_frame (dmaServe_frame s c)]

theorem mem_channels (c : Channel) : c ∈ channels := by
  revert c
  decide

theorem channels_nodup : channels.Nodup := by decide

theorem foldl_dmaBetter_mem (s : State) (l : List Channel) :
    ∀ b : Channel, ∃ c, l.foldl (dmaBetter s) (some b) = some c ∧ (c = b ∨ c ∈ l) := by
  induction l with
  | nil => exact fun b => ⟨b, rfl, .inl rfl⟩
  | cons d l ih =>
    intro b
    simp only [List.foldl_cons, dmaBetter]
    split
    · obtain ⟨c, hc, h | h⟩ := ih d
      · exact ⟨c, hc, .inr (by simp [h])⟩
      · exact ⟨c, hc, .inr (by simp [h])⟩
    · obtain ⟨c, hc, h | h⟩ := ih b
      · exact ⟨c, hc, .inl h⟩
      · exact ⟨c, hc, .inr (by simp [h])⟩

/-- The channel picked is ready. -/
theorem dmaReady_of_pick {s : State} {c : Channel} (h : dmaPick s = some c) : dmaReady s c = true := by
  unfold dmaPick at h
  cases hl : channels.filter (dmaReady s) with
  | nil => rw [hl] at h; cases h
  | cons b l =>
    rw [hl] at h
    obtain ⟨c', hc', hm⟩ := foldl_dmaBetter_mem s l b
    have h' : l.foldl (dmaBetter s) (some b) = some c := h
    rw [hc'] at h'
    cases h'
    have : c ∈ channels.filter (dmaReady s) := by
      rw [hl]
      rcases hm with h | h <;> simp [h]
    exact (List.mem_filter.mp this).2

/-- Only a channel the core has is ready. -/
theorem lt_of_dmaReady {s : State} {c : Channel} (h : dmaReady s c = true) : c.val < s.params.nDma := by
  unfold dmaReady at h
  simp only [Bool.and_eq_true, decide_eq_true_eq] at h
  exact h.1.1.1

theorem dmaLoop_inv (fuel : Nat) : ∀ {s : State}, DmaInv s → DmaInv (dmaLoop fuel s) := by
  induction fuel with
  | zero => exact fun h => h
  | succ n ih =>
    intro s h
    unfold dmaLoop
    split
    · exact h
    · next c hp => exact ih (dmaServe_inv (lt_of_dmaReady (dmaReady_of_pick hp)) h)

theorem dmaService_inv {s : State} (h : DmaInv s) : DmaInv (dmaService s) := dmaLoop_inv _ h

theorem DmaPreInv.service {s : State} (h : DmaPreInv s) (hi : s.dicr.getLsbD 31 = dmaIrq s.dicr) :
    DmaPreInv (dmaService s) :=
  (dmaService_inv { h with dicr_irq := hi }).pre

/-- Nothing is picked only when nothing is ready. -/
theorem idle_of_pick_none {s : State} (h : dmaPick s = none) (c : Channel) : dmaReady s c = false := by
  unfold dmaPick at h
  cases hl : channels.filter (dmaReady s) with
  | nil =>
    have := List.filter_eq_nil_iff.mp hl c (mem_channels c)
    simpa using this
  | cons b l =>
    rw [hl] at h
    obtain ⟨c', hc', _⟩ := foldl_dmaBetter_mem s l b
    have h' : l.foldl (dmaBetter s) (some b) = none := h
    rw [hc'] at h'
    cases h'

/-- The number of channels that are ready. -/
def readyCount (s : State) : Nat := (channels.filter (dmaReady s)).length

theorem readyCount_serve {s : State} {c : Channel} (h : dmaReady s c = true) :
    readyCount (dmaServe s c) < readyCount s := by
  unfold readyCount
  have hsub : channels.filter (dmaReady (dmaServe s c)) = (channels.filter (dmaReady s)).filter (fun d => d != c) := by
    rw [List.filter_filter]
    apply List.filter_congr
    intro d _
    by_cases hd : d = c
    · subst hd; simp [dmaReady_served]
    · simp [dmaReady_other s hd, hd]
  rw [hsub]
  apply List.length_filter_lt_length_iff_exists.mpr
  exact ⟨c, List.mem_filter.mpr ⟨mem_channels c, h⟩, by simp⟩

theorem dmaLoop_idle (fuel : Nat) : ∀ {s : State}, readyCount s ≤ fuel → ∀ c, dmaReady (dmaLoop fuel s) c = false := by
  induction fuel with
  | zero =>
    intro s h c
    have hn : channels.filter (dmaReady s) = [] := List.length_eq_zero_iff.mp (Nat.le_zero.mp h)
    have := List.filter_eq_nil_iff.mp hn c (mem_channels c)
    rw [dmaLoop]
    simpa using this
  | succ n ih =>
    intro s h c
    unfold dmaLoop
    split
    · next hp => exact idle_of_pick_none hp c
    · next d hp =>
      have := readyCount_serve (dmaReady_of_pick hp)
      exact ih (by omega) c

/-- After the loop of R343 no channel is ready. -/
theorem dmaService_idle (s : State) (c : Channel) : dmaReady (dmaService s) c = false :=
  dmaLoop_idle _ (List.length_filter_le _ _) c

/-- The loop does nothing when no channel is ready. -/
theorem dmaService_of_idle {s : State} (h : ∀ c, dmaReady s c = false) : dmaService s = s := by
  have hp : dmaPick s = none := by
    unfold dmaPick
    rw [List.filter_eq_nil_iff.mpr fun a _ => by rw [h a]; simp]
    rfl
  unfold dmaService Config.maxDma dmaLoop
  rw [hp]

/-- More turns than there are ready channels change nothing. -/
theorem dmaLoop_succ (fuel : Nat) : ∀ {s : State}, readyCount s ≤ fuel → dmaLoop (fuel + 1) s = dmaLoop fuel s := by
  induction fuel with
  | zero =>
    intro s h
    have hn : channels.filter (dmaReady s) = [] := List.length_eq_zero_iff.mp (Nat.le_zero.mp h)
    have hp : dmaPick s = none := by
      unfold dmaPick
      rw [hn]
      rfl
    unfold dmaLoop
    rw [hp]
  | succ n ih =>
    intro s h
    unfold dmaLoop
    split
    · rfl
    · next c hp =>
      have := readyCount_serve (dmaReady_of_pick hp)
      exact ih (by omega)

/-- A turn of the loop, then the loop again. -/
theorem dmaService_of_pick {s : State} {c : Channel} (h : dmaPick s = some c) :
    dmaService s = dmaService (dmaServe s c) := by
  have h1 : dmaService s = dmaLoop 6 (dmaServe s c) := by
    show dmaLoop (6 + 1) s = _
    rw [dmaLoop, h]
  have h2 : readyCount (dmaServe s c) < 7 :=
    Nat.lt_of_lt_of_le (readyCount_serve (dmaReady_of_pick h)) (List.length_filter_le _ _)
  rw [h1]
  exact (dmaLoop_succ 6 (by omega)).symm

end Sys2Proof.Machine
end

