-- ==== Sys2Proof/Laws/Registers.lean ====
section
/-! SUPPORT. The general registers: what a read gives after each update (spec/10_state.md R21). -/

namespace Sys2Proof.Machine

variable (s : State)

@[simp] theorem gpr_zero : s.gpr 0 = 0 := rfl

theorem gpr_of_ne {i : RegIdx} (h : i ≠ 0) : s.gpr i = s.regs[i] := if_neg h

/-- The general registers depend on `regs` alone. -/
theorem gpr_congr {s t : State} (h : t.regs = s.regs) (i : RegIdx) : t.gpr i = s.gpr i := by
  unfold State.gpr
  rw [h]

/-- Without a delayed load an instruction reads the register's content. -/
theorem readReg_of_no_stale {s : State} (h : s.stale = none) (i : RegIdx) : s.readReg i = s.gpr i := by
  unfold State.readReg
  rw [h]

theorem readReg_congr {s t : State} (h : t.regs = s.regs) (h' : t.stale = s.stale) (i : RegIdx) :
    t.readReg i = s.readReg i := by
  unfold State.readReg
  rw [h', gpr_congr h]

@[simp] theorem gpr_writeReg (i j : RegIdx) (v : Word) :
    (s.writeReg i v).gpr j = if j = i ∧ i ≠ 0 then v else s.gpr j := by
  unfold State.writeReg
  by_cases hi : i = 0
  · simp [hi]
  · rw [if_neg hi]
    by_cases hj : j = 0
    · subst hj
      simp [Ne.symm hi]
    · simp only [State.gpr, if_neg hj]
      by_cases hij : j = i
      · subst hij
        simp [hi]
      · have : (i : ℕ) ≠ (j : ℕ) := fun h => hij (Fin.ext h.symm)
        simp [hij, this]

/-- Slot 0 is never written. -/
theorem slot0_writeReg (i : RegIdx) (v : Word) : (s.writeReg i v).regs[0] = s.regs[0] := by
  unfold State.writeReg
  split
  · rfl
  · next h =>
    have : (i : ℕ) ≠ 0 := fun h' => h (Fin.ext h')
    simp [this]

@[simp] theorem gpr_commit (n : Word) (c : Bool) (i : RegIdx) : (commit s n c).gpr i = s.gpr i := rfl
@[simp] theorem gpr_tell (e : PortEvent) (i : RegIdx) : (s.tell e).gpr i = s.gpr i := rfl
@[simp] theorem gpr_charge (n : Nat) (i : RegIdx) : (s.charge n).gpr i = s.gpr i := rfl
@[simp] theorem gpr_enterException (e : Exc) (i : RegIdx) : (enterException e s).gpr i = s.gpr i := rfl
@[simp] theorem readReg_tell (e : PortEvent) (i : RegIdx) : (s.tell e).readReg i = s.readReg i := rfl
@[simp] theorem readReg_charge (n : Nat) (i : RegIdx) : (s.charge n).readReg i = s.readReg i := rfl

end Sys2Proof.Machine
end

