-- ==== Sys2Proof/Laws/Exec.lean ====
section
/-! SUPPORT. What an instruction leaves when it completes or raises: one lemma per way of ending, in the words of
Sys2Proof/Safety.lean, which the lemmas about each meaning cite instead of unfolding `commit` and `raise`. -/

namespace Sys2Proof.Machine

variable (s : State)

/-! ## The frame of a state update -/

/-- What a virtual address leads to depends on the parameters alone. -/
theorem windowAt_congr {s t : State} (h : t.params = s.params) (a : Word) : windowAt t a = windowAt s a := by
  unfold windowAt
  rw [h]

theorem resolve_congr {s t : State} (h : t.params = s.params) (a : Word) : resolve t a = resolve s a := by
  unfold resolve
  rw [windowAt_congr h]

/-- The time of an access depends on the parameters alone. -/
theorem latency_congr {s t : State} (h : t.params = s.params) (a : Word) (n : Width) (w : Bool) :
    t.latency a n w = s.latency a n w := by
  unfold State.latency
  rw [windowAt_congr h, h]

/-- What a byte reads as depends on the parameters and the two arrays. -/
theorem byteAt_congr {s t : State} (hp : t.params = s.params) (hr : t.ram = s.ram) (hb : t.bios = s.bios) (a : Word) :
    t.byteAt a = s.byteAt a := by
  unfold State.byteAt State.storedByte
  rw [resolve_congr hp, hr, hb]

theorem writeReg_eq (i : RegIdx) (v : Word) : s.writeReg i v = { s with regs := (s.writeReg i v).regs } := by
  unfold State.writeReg
  split <;> rfl

theorem writeReg_zero (v : Word) : s.writeReg 0 v = s := rfl

/-! ## Completing -/

theorem retire_eq : retire s = .next s.advanced := rfl

theorem retireBranch_taken (target : Word) :
    retireBranch true target s = .next { s.advanced with npc := target, bds := true } := rfl

theorem retireBranch_not_taken (target : Word) :
    retireBranch false target s = .next { s.advanced with bds := true } := rfl

theorem raise_eq (e : Exc) : raise e s = .next (afterRaise e s) := rfl

/-- A result written, then Commit. -/
theorem writeResult_wrote (rd : RegIdx) (v : Word) : ∃ t, writeResult rd v s = .next t ∧ WroteReg s t rd v := by
  refine ⟨_, rfl, ?_, ?_, ?_⟩
  · rw [writeReg_eq s rd v]; rfl
  · intro j
    rw [gpr_commit, gpr_writeReg]
  · intro a
    rw [writeReg_eq s rd v]
    exact byteAt_congr rfl rfl rfl a

/-- A value loaded, then Commit, with or without `LOAD_DELAY`. -/
theorem retireLoad_loaded (rt : RegIdx) (v : Word) : ∃ t, retireLoad rt v s = .next t ∧ Loaded s t rt v := by
  refine ⟨_, rfl, ?_, ?_, ?_, ?_⟩
  · rw [writeReg_eq s rt v]
    split <;> rfl
  · intro j
    split
    · exact gpr_writeReg s rt j v
    · exact gpr_writeReg s rt j v
  · intro j
    by_cases hd : s.params.loadDelay
    · by_cases hr : rt = 0
      · subst hr
        rw [hd]
        rfl
      · simp only [hd, Bool.true_and, bne_iff_ne.mpr hr, if_true]
        unfold State.readReg
        dsimp only
        split
        · next h => rw [h]
        · next h => exact (gpr_writeReg s rt j v).trans (if_neg fun h' => h h'.1)
    · simp only [hd, Bool.false_and]
      rfl
  · intro a
    rw [writeReg_eq s rt v]
    split <;> exact byteAt_congr rfl rfl rfl a

/-- A taken transfer that links, then Commit. -/
theorem retireBranch_linked (rd : RegIdx) (taken : Bool) (target : Word) :
    ∃ t, retireBranch taken target (s.writeReg rd (linkValue s)) = .next t ∧
      Linked s t rd (if taken then target else s.npc + 4) := by
  refine ⟨_, rfl, ?_, ?_, ?_⟩
  · rw [writeReg_eq s rd _]; rfl
  · intro j
    exact gpr_writeReg s rd j _
  · intro a
    rw [writeReg_eq s rd _]
    exact byteAt_congr rfl rfl rfl a

end Sys2Proof.Machine
end

