-- ==== Sys2Proof/Laws/Bus.lean ====
section
/-! SUPPORT. The bus: everything a read, a write and a fetch can answer (spec/20_memory.md R79 to R83), what each can
change, and that each keeps the invariant of Sys2Proof/Safety.lean. -/

namespace Sys2Proof.Machine

/-! ## Alignment (R64) -/

theorem aligned4_iff (a : Word) : aligned4 a = true ↔ a.toNat % 4 = 0 := by
  unfold aligned4
  rw [beq_iff_eq, ← BitVec.toNat_inj]
  simp

theorem misaligned_iff (va : Word) (n : Width) : misaligned va n = true ↔ va.toNat % n.bytes ≠ 0 := by
  cases n <;> simp [misaligned, Width.bytes, ← BitVec.toNat_inj, Nat.mod_one]

theorem misaligned_eq_false {va : Word} {n : Width} (h : va.toNat % n.bytes = 0) : misaligned va n = false := by
  rw [← Bool.not_eq_true, misaligned_iff]
  exact fun h' => h' h

/-! ## What an access answers -/

theorem memRead_misaligned {s : State} {va : Word} {n : Width} (h : misaligned va n = true) :
    memRead s va n = .raised (.addressErrorLoad va) s := by
  unfold memRead
  rw [if_pos h]

theorem memRead_unmapped {s : State} {va : Word} {n : Width} (h : misaligned va n = false)
    (hr : resolve s va = none) : memRead s va n = .raised .busErrorData s := by
  unfold memRead
  simp only [h, hr, Bool.false_eq_true, if_false]

theorem memRead_mapped {s : State} {va : Word} {n : Width} {k : WindowKind} {o : Nat}
    (h : misaligned va n = false) (hr : resolve s va = some (k, o)) :
    memRead s va n = .done (windowRead s k o n).1 ((windowRead s k o n).2.charge (s.latency va n false)) := by
  unfold memRead
  simp only [h, hr, Bool.false_eq_true, if_false]

theorem memWrite_misaligned {s : State} {va v : Word} {n : Width} (h : misaligned va n = true) :
    memWrite s va n v = .raised (.addressErrorStore va) s := by
  unfold memWrite
  rw [if_pos h]

theorem memWrite_dropped {s : State} {va v : Word} {n : Width} (h : misaligned va n = false)
    (hp : s.params.iscDropsStores = true) (hi : s.isc = true) : memWrite s va n v = .done () s := by
  unfold memWrite
  simp only [h, hp, hi, Bool.false_eq_true, if_false, Bool.and_self, if_true]

theorem memWrite_unmapped {s : State} {va v : Word} {n : Width} (h : misaligned va n = false)
    (hi : s.params.iscDropsStores = true → s.isc = false) (hr : resolve s va = none) :
    memWrite s va n v = .raised .busErrorData s := by
  have : (s.params.iscDropsStores && s.isc) = false := by
    cases hp : s.params.iscDropsStores
    · rfl
    · exact hi hp
  unfold memWrite
  simp only [h, this, hr, Bool.false_eq_true, if_false]

theorem memWrite_mapped {s : State} {va v : Word} {n : Width} {k : WindowKind} {o : Nat}
    (h : misaligned va n = false) (hi : s.params.iscDropsStores = true → s.isc = false)
    (hr : resolve s va = some (k, o)) :
    memWrite s va n v =
      match windowWrite s k o n v with
      | .error f => .fault f
      | .ok t => .done () (t.charge (s.latency va n true)) := by
  have : (s.params.iscDropsStores && s.isc) = false := by
    cases hp : s.params.iscDropsStores
    · rfl
    · exact hi hp
  cases hw : windowWrite s k o n v <;> simp only [memWrite, h, this, hr, hw, Bool.false_eq_true, if_false]

theorem windowRead_storage {s : State} {k : WindowKind} (h : isStorage k = true) (o : Nat) (n : Width) :
    (windowRead s k o n).2 = s ∧ (∀ i, i < n.bytes → byteOf (windowRead s k o n).1 i = s.storedByte k (o + i)) ∧
      ∀ i, 8 * n.bytes ≤ i → (windowRead s k o n).1.getLsbD i = false := by
  cases k with
  | ram => exact ⟨rfl, fun i hi => Memory.byte_readLE hi, fun i hi => Memory.high_readLE hi⟩
  | bios => exact ⟨rfl, fun i hi => Memory.byte_readLE hi, fun i hi => Memory.high_readLE hi⟩
  | _ => cases h

/-- A word read from RAM or BIOS is made of the four bytes stored there. -/
theorem windowRead_storage_word (s : State) {k : WindowKind} (h : isStorage k = true) (o : Nat) :
    (windowRead s k o .word).1 = wordOfBytes (s.storedByte k o) (s.storedByte k (o + 1)) (s.storedByte k (o + 2))
      (s.storedByte k (o + 3)) := by
  cases k with
  | ram => rfl
  | bios => rfl
  | _ => cases h

/-! ## What an access can change -/

/-- What a bus access never touches is as in `s`, the list of devices among it; the clock only where `LATENCY` says. -/
structure BusFrame (s t : State) : Prop where
  rest : t = { s with
    ram := t.ram, iStat := t.iStat, iMask := t.iMask, dma := t.dma, dpcr := t.dpcr, dicr := t.dicr, clk := t.clk
    burst := t.burst, sched := t.sched, portLog := t.portLog }
  devices : t.sched.map SchedEntry.device = s.sched.map SchedEntry.device
  clk : s.params.latency = [] → t.clk % 2 ^ s.params.clkBits = s.clk % 2 ^ s.params.clkBits

theorem BusFrame.refl (s : State) : BusFrame s s := ⟨rfl, rfl, fun _ => rfl⟩

theorem BusFrame.params {s t : State} (h : BusFrame s t) : t.params = s.params := by rw [h.rest]

theorem BusFrame.npc {s t : State} (h : BusFrame s t) : t.npc = s.npc := by rw [h.rest]

theorem BusFrame.trans {s t u : State} (h : BusFrame s t) (h' : BusFrame t u) : BusFrame s u where
  rest := by rw [h'.rest, h.rest]
  devices := h'.devices.trans h.devices
  clk hl := by
    have h1 := h'.clk (by rw [h.params]; exact hl)
    rw [h.params] at h1
    exact h1.trans (h.clk hl)

theorem DmaFrame.bus {s t : State} (h : DmaFrame s t) : BusFrame s t := by
  unfold DmaFrame at h
  refine ⟨?_, ?_, fun _ => ?_⟩ <;> rw [h]

/-- The time of an access, nothing when `LATENCY` lists nothing (R91). -/
theorem chargeLatency_frame (s t : State) (h : t.params = s.params) (va : Word) (n : Width) (w : Bool) :
    BusFrame t (t.charge (s.latency va n w)) := by
  refine ⟨rfl, rfl, fun hl => ?_⟩
  have : s.latency va n w = 0 := by
    unfold State.latency latencyOf
    rw [← h, hl]
    split <;> rfl
  rw [this, charge_clk, Nat.add_zero, Nat.mod_mod]

theorem tell_frame (s : State) (e : PortEvent) : BusFrame s (s.tell e) := ⟨rfl, rfl, fun _ => rfl⟩

theorem intcWrite_frame (s : State) (o : Nat) (n : Width) (v : Word) : BusFrame s (intcWrite s o n v) := by
  unfold intcWrite
  split <;> exact ⟨rfl, rfl, fun _ => rfl⟩

theorem DmaWriteFrame.bus {s t : State} (h : DmaWriteFrame s t) : BusFrame s t := by
  unfold DmaWriteFrame at h
  refine ⟨?_, ?_, fun _ => ?_⟩ <;> rw [h]

theorem windowRead_frame (s : State) (k : WindowKind) (o : Nat) (n : Width) : BusFrame s (windowRead s k o n).2 := by
  cases k with
  | dma => exact (dmaRecompute_frame s).bus
  | _ => exact ⟨rfl, rfl, fun _ => rfl⟩

theorem setNext_devices (s : State) (d : Device) (n : Int) :
    (s.setNext d n).sched.map SchedEntry.device = s.sched.map SchedEntry.device := by
  unfold State.setNext
  rw [List.map_map]
  apply List.map_congr_left
  intro e _
  simp only [Function.comp]
  split <;> rfl

theorem rearm_frame (l : List (Device × Int)) : ∀ {s t : State}, rearm l s = .ok t → BusFrame s t := by
  induction l with
  | nil => intro s t h; cases h; exact BusFrame.refl s
  | cons p l ih =>
    intro s t h
    unfold rearm at h
    split at h
    · cases h
    · exact BusFrame.trans ⟨rfl, setNext_devices s _ _, fun _ => rfl⟩ (ih h)

/-- A device that answers a store with a negative distance is the one way a store can fault (R353). -/
theorem rearm_error (l : List (Device × Int)) : ∀ {s : State} {f : Fault}, rearm l s = .error f →
    ∃ d x, (d, x) ∈ l ∧ x < 0 ∧ f = .negativeNextEvent d := by
  induction l with
  | nil => intro s f h; cases h
  | cons p l ih =>
    obtain ⟨d, x⟩ := p
    intro s f h
    unfold rearm at h
    split at h
    · next hx => cases h; exact ⟨d, x, by simp, hx, rfl⟩
    · obtain ⟨d', x', hm, hx, hf⟩ := ih h
      exact ⟨d', x', List.mem_cons_of_mem _ hm, hx, hf⟩

theorem windowWrite_frame {s t : State} {k : WindowKind} {o : Nat} {n : Width} {v : Word}
    (h : windowWrite s k o n v = .ok t) : BusFrame s t := by
  cases k with
  | ram => cases h; exact ⟨rfl, rfl, fun _ => rfl⟩
  | bios => cases h; exact BusFrame.refl s
  | intc => cases h; exact intcWrite_frame s o n v
  | dma => cases h; exact (dmaWrite_frame s o n v).bus
  | device w => exact BusFrame.trans (tell_frame s _) (rearm_frame _ h)

theorem windowWrite_error {s : State} {k : WindowKind} {o : Nat} {n : Width} {v : Word} {f : Fault}
    (h : windowWrite s k o n v = .error f) : ∃ d, f = .negativeNextEvent d := by
  cases k with
  | device w =>
    obtain ⟨d, _, _, _, hf⟩ := rearm_error _ h
    exact ⟨d, hf⟩
  | _ => cases h

/-- A read: a value and the state after it, or an exception in the state before it; never a fault. -/
theorem memRead_cases (s : State) (va : Word) (n : Width) :
    (∃ v t, memRead s va n = .done v t ∧ BusFrame s t) ∨
    (∃ e, memRead s va n = .raised e s ∧ (e = .addressErrorLoad va ∨ e = .busErrorData)) := by
  cases h : misaligned va n
  · cases hr : resolve s va with
    | none => exact .inr ⟨_, memRead_unmapped h hr, .inr rfl⟩
    | some p => exact .inl ⟨_, _, memRead_mapped h hr, (windowRead_frame s p.1 p.2 n).trans
        (chargeLatency_frame s _ (windowRead_frame s p.1 p.2 n).params _ _ _)⟩
  · exact .inr ⟨_, memRead_misaligned h, .inl rfl⟩

/-- A write: the state after it, an exception in the state before it, or the fault of a negative distance. -/
theorem memWrite_cases (s : State) (va : Word) (n : Width) (v : Word) :
    (∃ t, memWrite s va n v = .done () t ∧ BusFrame s t) ∨
    (∃ e, memWrite s va n v = .raised e s ∧ (e = .addressErrorStore va ∨ e = .busErrorData)) ∨
    (∃ d, memWrite s va n v = .fault (.negativeNextEvent d)) := by
  cases h : misaligned va n
  · by_cases hi : s.params.iscDropsStores = true → s.isc = false
    · cases hr : resolve s va with
      | none => exact .inr (.inl ⟨_, memWrite_unmapped h hi hr, .inr rfl⟩)
      | some p =>
        rw [memWrite_mapped h hi hr]
        cases hw : windowWrite s p.1 p.2 n v with
        | error f =>
          obtain ⟨d, rfl⟩ := windowWrite_error hw
          exact .inr (.inr ⟨d, rfl⟩)
        | ok t => exact .inl ⟨_, rfl, (windowWrite_frame hw).trans
          (chargeLatency_frame s _ (windowWrite_frame hw).params _ _ _)⟩
    · obtain ⟨hp, hc⟩ := Classical.not_imp.mp hi
      exact .inl ⟨s, memWrite_dropped h hp (by simpa using hc), BusFrame.refl s⟩
  · exact .inr (.inl ⟨_, memWrite_misaligned h, .inl rfl⟩)

/-- A fetch: a word and the state after it, or BusErrorFetch; never a fault. -/
theorem fetch_cases (s : State) :
    (∃ k o, resolve s s.pc = some (k, o) ∧ fetch s = .done (windowRead s k o .word).1
      ((windowRead s k o .word).2.charge (s.latency s.pc .word false))) ∨
    (resolve s s.pc = none ∧ fetch s = .raised .busErrorFetch s) := by
  unfold fetch
  cases hr : resolve s s.pc with
  | none => exact .inr ⟨rfl, rfl⟩
  | some p => exact .inl ⟨p.1, p.2, rfl, rfl⟩

/-! ## Loads and stores: every way each can end (R244) -/

theorem loadReg_cases (rt : RegIdx) (ea : Word) (n : Width) (ext : Word → Word) (s : State) :
    (∃ v u, BusFrame s u ∧ loadReg rt ea n ext s = retireLoad rt v u) ∨
    (∃ e, (e = .addressErrorLoad ea ∨ e = .busErrorData) ∧ loadReg rt ea n ext s = .next (afterRaise e s)) := by
  unfold loadReg
  rcases memRead_cases s ea n with ⟨v, u, h, hf⟩ | ⟨e, h, he⟩
  · exact .inl ⟨ext v, u, hf, by rw [h]⟩
  · exact .inr ⟨e, he, by rw [h]; rfl⟩

theorem storeMem_cases (ea : Word) (n : Width) (v : Word) (s : State) :
    (∃ u, BusFrame s u ∧ storeMem ea n v s = .next u.advanced) ∨
    (∃ e, (e = .addressErrorStore ea ∨ e = .busErrorData) ∧ storeMem ea n v s = .next (afterRaise e s)) ∨
    (∃ d, storeMem ea n v s = .fault (.negativeNextEvent d)) := by
  unfold storeMem
  rcases memWrite_cases s ea n v with ⟨u, h, hf⟩ | ⟨e, h, he⟩ | ⟨d, h⟩
  · exact .inl ⟨u, hf, by rw [h]; rfl⟩
  · exact .inr (.inl ⟨e, he, by rw [h]; rfl⟩)
  · exact .inr (.inr ⟨d, by rw [h]⟩)

theorem mergeMem_cases (ea : Word) (merge : Word → Word) (s : State) :
    (∃ u, BusFrame s u ∧ mergeMem ea merge s = .next u.advanced) ∨
    (∃ e u, BusFrame s u ∧ (e = .addressErrorLoad (alignedWord ea) ∨ e = .addressErrorStore (alignedWord ea) ∨
      e = .busErrorData) ∧ mergeMem ea merge s = .next (afterRaise e u)) ∨
    (∃ d, mergeMem ea merge s = .fault (.negativeNextEvent d)) := by
  unfold mergeMem
  rcases memRead_cases s (alignedWord ea) .word with ⟨v, u, h, hf⟩ | ⟨e, h, he⟩
  · rw [h]
    rcases storeMem_cases (alignedWord ea) .word (merge v) u with ⟨u', hf', h'⟩ | ⟨e, he, h'⟩ | ⟨d, h'⟩
    · exact .inl ⟨u', hf.trans hf', h'⟩
    · exact .inr (.inl ⟨e, u, hf, .inr he, h'⟩)
    · exact .inr (.inr ⟨d, h'⟩)
  · rw [h]
    refine .inr (.inl ⟨e, s, BusFrame.refl s, ?_, rfl⟩)
    rcases he with he | he
    · exact .inl he
    · exact .inr (.inr he)

end Sys2Proof.Machine
end

