-- ==== Sys2Proof/Laws/Invariant.lean ====
section
/-! SUPPORT. The operations keep the invariant of Sys2Proof/Safety.lean: one lemma per operation an instruction is
made of. -/

namespace Sys2Proof

open Machine

/-! ## Alignment of the addresses the machine computes -/

theorem aligned4_add {a b : Word} (ha : aligned4 a = true) (hb : aligned4 b = true) : aligned4 (a + b) = true := by
  rw [aligned4_iff] at *
  rw [BitVec.toNat_add]
  omega

theorem aligned4_add_four {a : Word} (ha : aligned4 a = true) : aligned4 (a + 4) = true := aligned4_add ha rfl

theorem aligned4_branchBase {s : State} (h : ExecInv s) : aligned4 (branchBase s) = true := by
  unfold branchBase
  split
  · exact h.pc_aligned
  · exact h.npc_aligned

theorem aligned4_branchTarget {s : State} (h : ExecInv s) (imm : BitVec 16) : aligned4 (branchTarget s imm) = true := by
  refine aligned4_add (aligned4_branchBase h) ?_
  rw [aligned4_iff, BitVec.toNat_shiftLeft, Nat.shiftLeft_eq]
  omega

theorem aligned4_jumpTarget (s : State) (target : BitVec 26) : aligned4 (jumpTarget s target) = true := by
  unfold aligned4 jumpTarget
  rw [beq_iff_eq]
  apply BitVec.eq_of_getLsbD_eq
  intro i hi
  interval_cases i <;> simp

theorem aligned4_vector {s : State} (h : s.params.wf = true) : aligned4 (exceptionVector s) = true := by
  unfold exceptionVector
  simp only [Params.wf, Bool.and_eq_true] at h
  split
  · exact h.1.1.1.1.2
  · exact h.1.1.1.1.1

/-! ## Updates that touch no part of the invariant but one -/

theorem ExecInv.tell {s : State} (h : ExecInv s) (e : PortEvent) : ExecInv (s.tell e) := { h with }

theorem ExecInv.charge {s : State} (h : ExecInv s) (n : Nat) : ExecInv (s.charge n) :=
  { h with
    clk_width := Nat.mod_lt _ (Nat.two_pow_pos _)
    burst_width := Nat.mod_lt _ (Nat.two_pow_pos _) }

theorem ExecInv.writeReg {s : State} (h : ExecInv s) (i : RegIdx) (v : Word) : ExecInv (s.writeReg i v) := by
  rw [writeReg_eq]
  exact { h with slot0 := (slot0_writeReg s i v).trans h.slot0 }

theorem ExecInv.commit {s : State} (h : ExecInv s) {n : Word} (hn : aligned4 n = true) (c : Bool) :
    ExecInv (commit s n c) :=
  { h with pc_aligned := h.npc_aligned, npc_aligned := hn, stale_ok := fun _ hp => by cases hp }

theorem ExecInv.advanced {s : State} (h : ExecInv s) : ExecInv s.advanced := h.commit (aligned4_add_four h.npc_aligned) false

/-- A code of the table (spec/60_exceptions.md R301) other than CoprocessorUnusable's, which R312 excludes. -/
theorem code_mem {e : Exc} (he : e ≠ .coprocessorUnusable) : e.code ∈ excCodesTaken := by
  cases e with
  | coprocessorUnusable => exact absurd rfl he
  | _ => simp [Exc.code, excCodesTaken]

theorem ExecInv.enterException {s : State} (h : ExecInv s) {e : Exc} (he : e ≠ .coprocessorUnusable) :
    ExecInv (enterException e s) :=
  { h with
    pc_aligned := aligned4_vector h.params_wf
    npc_aligned := aligned4_add_four (aligned4_vector h.params_wf)
    ce_zero := rfl
    code_taken := code_mem he }

theorem ExecInv.afterRaise {s : State} (h : ExecInv s) {e : Exc} (he : e ≠ .coprocessorUnusable) :
    ExecInv (afterRaise e s) :=
  { h.enterException he with stale_ok := fun _ hp => by cases hp }

theorem ExecInv.retireLoad {s t : State} (h : ExecInv s) {rt : RegIdx} {v : Word}
    (ht : retireLoad rt v s = .next t) : ExecInv t := by
  have hc : ExecInv (Machine.commit (s.writeReg rt v) (s.npc + 4) false) :=
    (h.writeReg rt v).commit (aligned4_add_four h.npc_aligned) false
  unfold Machine.retireLoad at ht
  split at ht
  · next hd =>
    cases ht
    simp only [Bool.and_eq_true, bne_iff_ne] at hd
    exact { hc with stale_ok := fun p hp => by cases hp; rw [writeReg_eq]; exact hd }
  · cases ht
    exact hc

/-! ## The bus -/

theorem ExecInv.dma {s : State} (h : ExecInv s) : DmaInv s := { h with }

/-- Whatever the DMA block changed, the invariant holds again when the block is consistent and idle. -/
theorem ExecInv.of_dma {s t : State} (h : ExecInv s)
    (hf : DmaWriteFrame s t) (hd : DmaInv t) (hi : ∀ c, dmaReady t c = false) : ExecInv t := by
  unfold DmaWriteFrame at hf
  rw [hf] at hd hi ⊢
  exact { h with
    dicr_irq := hd.dicr_irq, dicr_zero := hd.dicr_zero, ram_wf := hd.ram_wf, stat_width := hd.stat_width
    dma_width := hd.dma_width, dma_idle := hi }

theorem dmaReady_recompute (s : State) (c : Channel) : dmaReady (dmaRecompute s) c = dmaReady s c := by
  unfold dmaReady
  rw [dmaRecompute_dma, dpcr_of_frame (dmaRecompute_frame s), params_of_frame (dmaRecompute_frame s)]

/-- The read of a DMA register leaves a consistent block as it is (spec/20_memory.md R90). -/
theorem dmaRecompute_of_consistent {s : State} (h : s.dicr.getLsbD 31 = dmaIrq s.dicr) : dmaRecompute s = s := by
  have hd : dicrRefreshed s.dicr = s.dicr := by
    apply BitVec.eq_of_getLsbD_eq
    intro i hi
    by_cases h31 : i < 31
    · exact getLsbD_dicrRefreshed h31
    · obtain rfl : i = 31 := by omega
      rw [bit31_dicrRefreshed, h]
  have hr : (dmaIrq s.dicr && !s.dicr.getLsbD 31) = false := by
    rw [← h]
    exact Bool.and_not_self _
  unfold dmaRecompute
  rw [hd, hr]
  unfold State.raiseLines
  rw [if_neg (by decide), BitVec.ofNat_eq_ofNat, BitVec.zero_and, BitVec.or_zero]

theorem ExecInv.windowRead {s : State} (h : ExecInv s) (k : WindowKind) (o : Nat) (n : Width) :
    ExecInv (windowRead s k o n).2 := by
  cases k with
  | dma =>
    show ExecInv (dmaRecompute s)
    rw [dmaRecompute_of_consistent h.dicr_irq]
    exact h
  | device w => exact h.tell _
  | _ => exact h

theorem dmaIdle_of_eq {s t : State} (hd : ∀ c : Channel, t.dma[c].chcr = s.dma[c].chcr) (hp : t.dpcr = s.dpcr)
    (hn : t.params = s.params) (hi : ∀ c, dmaReady s c = false) (c : Channel) : dmaReady t c = false := by
  have h := hi c
  unfold dmaReady at *
  rw [hd c, hp, hn]
  exact h

/-- The channel a register of the map belongs to is one the core has. -/
theorem dmaReg_lt {nDma o : Nat} {c : Channel}
    (h : dmaReg nDma o = .madr c ∨ dmaReg nDma o = .bcr c ∨ dmaReg nDma o = .chcr c) : c.val < nDma := by
  unfold dmaReg at h
  split at h
  · split at h
    · next hn =>
      split at h <;> rcases h with h | h | h <;> cases h <;> exact hn
    · rcases h with h | h | h <;> cases h
  · split at h <;> rcases h with h | h | h <;> cases h

/-- A change of a channel's registers other than CHCR makes no channel ready. -/
theorem dmaIdle_set {s : State} {c : Channel} {r : DmaChannel} (hr : r.chcr = s.dma[c].chcr)
    (hi : ∀ c, dmaReady s c = false) (d : Channel) : dmaReady { s with dma := s.dma.set c r } d = false := by
  refine dmaIdle_of_eq (s := s) (t := { s with dma := s.dma.set c r }) (fun d => ?_) rfl rfl hi d
  simp only [Fin.getElem_fin, Vector.getElem_set]
  split
  · next hc =>
    have := Fin.ext hc
    subst this
    exact hr
  · rfl

/-- Before its closing `DmaRecompute()` a register write leaves a block without ready channels. -/
theorem ExecInv.dmaRegWrite {s : State} (h : ExecInv s) (o : Nat) (n : Width) (v : Word) :
    DmaPreInv (dmaRegWrite s o n v) ∧ ∀ c, dmaReady (dmaRegWrite s o n v) c = false := by
  unfold Machine.dmaRegWrite
  split
  · next c hc =>
    exact ⟨h.dma.pre.setDma (dmaReg_lt (.inl hc)) _, dmaIdle_set rfl h.dma_idle⟩
  · next c hc =>
    exact ⟨h.dma.pre.setDma (dmaReg_lt (.inr (.inl hc))) _, dmaIdle_set rfl h.dma_idle⟩
  · next c hc =>
    exact ⟨(h.dma.pre.setDma (dmaReg_lt (.inr (.inr hc))) _).service h.dicr_irq, dmaService_idle _⟩
  · exact ⟨DmaPreInv.service (s := { s with dpcr := laneWrite n o s.dpcr v }) { h.dma.pre with } h.dicr_irq,
      dmaService_idle _⟩
  · exact ⟨{ h.dma.pre with dicr_zero := dicr_zero_dicrWrite n o v h.dicr_zero }, h.dma_idle⟩
  · exact ⟨h.dma.pre, h.dma_idle⟩

theorem ExecInv.dmaWrite {s : State} (h : ExecInv s) (o : Nat) (n : Width) (v : Word) : ExecInv (dmaWrite s o n v) := by
  refine h.of_dma (dmaWrite_frame s o n v) (h.dmaRegWrite o n v).1.recompute fun c => ?_
  exact (dmaReady_recompute _ c).trans ((h.dmaRegWrite o n v).2 c)

theorem ExecInv.setNext {s : State} (h : ExecInv s) {d : Device} {n : Int} (hn : 0 ≤ n) : ExecInv (s.setNext d n) :=
  { h with
    sync_width := fun e he => by
      obtain ⟨e', he', rfl⟩ := List.mem_map.mp he
      have := h.sync_width e' he'
      split <;> exact this
    next_natural := fun e he => by
      obtain ⟨e', he', rfl⟩ := List.mem_map.mp he
      have := h.next_natural e' he'
      split
      · exact hn
      · exact this }

theorem ExecInv.rearm (l : List (Device × Int)) : ∀ {s t : State}, ExecInv s → Machine.rearm l s = .ok t → ExecInv t := by
  induction l with
  | nil => intro s t h ht; cases ht; exact h
  | cons p l ih =>
    intro s t h ht
    unfold Machine.rearm at ht
    split at ht
    · cases ht
    · next hp => exact ih (h.setNext (by omega)) ht

theorem ExecInv.windowWrite {s t : State} (h : ExecInv s) {k : WindowKind} {o : Nat} {n : Width} {v : Word}
    (ht : Machine.windowWrite s k o n v = .ok t) : ExecInv t := by
  cases k with
  | ram => cases ht; exact { h with ram_wf := Memory.wf_writeLE (by decide) h.ram_wf }
  | bios => cases ht; exact h
  | intc =>
    cases ht
    unfold intcWrite
    split
    · exact { h with stat_width := and_lineMask_and s h.stat_width _ }
    · exact { h with mask_width := and_lineMask_idem s _ }
    · exact h
  | dma => cases ht; exact h.dmaWrite o n v
  | device w => exact ExecInv.rearm _ (h.tell _) ht

theorem ExecInv.memRead {s t : State} (h : ExecInv s) {va v : Word} {n : Width}
    (ht : Machine.memRead s va n = .done v t) : ExecInv t := by
  unfold Machine.memRead at ht
  split at ht
  · cases ht
  · split at ht
    · cases ht
    · cases ht; exact (h.windowRead _ _ _).charge _

theorem ExecInv.memWrite {s t : State} (h : ExecInv s) {va v : Word} {n : Width}
    (ht : Machine.memWrite s va n v = .done () t) : ExecInv t := by
  unfold Machine.memWrite at ht
  split at ht
  · cases ht
  · split at ht
    · cases ht; exact h
    · split at ht
      · cases ht
      · split at ht
        · cases ht
        · next hw => cases ht; exact (h.windowWrite hw).charge _

theorem ExecInv.fetch {s t : State} (h : ExecInv s) {w : Word} (ht : Machine.fetch s = .done w t) : ExecInv t := by
  unfold Machine.fetch at ht
  split at ht
  · cases ht
  · cases ht; exact (h.windowRead _ _ _).charge _

end Sys2Proof
end

