-- ==== Sys2Proof/Laws/ExecCases.lean ====
section
/-! SUPPORT. Everything an instruction can do, said once: it completes, loads, raises, or ends in the fault of a
device. A statement about every instruction is a case analysis over `exec_cases`. -/

namespace Sys2Proof.Machine

/-- The parts of the state an instruction that completes never writes itself are those of `s`. -/
def WorkFrame (s u : State) : Prop :=
  u = { s with
    regs := u.regs, hi := u.hi, lo := u.lo, sr := u.sr, cause := { s.cause with ip := u.cause.ip }, bpc := u.bpc
    bda := u.bda, jumpdest := u.jumpdest, dcic := u.dcic, bdam := u.bdam, bpcm := u.bpcm
    ram := u.ram, iStat := u.iStat, iMask := u.iMask, dma := u.dma, dpcr := u.dpcr, dicr := u.dicr, clk := u.clk
    burst := u.burst, sched := u.sched, portLog := u.portLog }

/-- What the instruction `i` can have changed before Commit, with the registers only some instructions write. -/
structure Work (i : Instr) (s u : State) : Prop where
  frame : WorkFrame s u
  hi : u.hi ≠ s.hi → i.mnemonic ∈ ["MULT", "MULTU", "DIV", "DIVU", "MTHI"]
  lo : u.lo ≠ s.lo → i.mnemonic ∈ ["MULT", "MULTU", "DIV", "DIVU", "MTLO"]
  sr : u.sr ≠ s.sr → i.mnemonic = "MTC0" ∨ i.mnemonic = "RFE"
  cause : u.cause ≠ s.cause → i.mnemonic = "MTC0"
  devices : u.sched.map SchedEntry.device = s.sched.map SchedEntry.device
  clk : s.params.latency = [] → u.clk % 2 ^ s.params.clkBits = s.clk % 2 ^ s.params.clkBits
  inv : ExecInv s → ExecInv u

/-- The mnemonics of the control transfers (spec/43_branch_jump.md R200). -/
def transferMnemonics : List String :=
  ["BEQ", "BNE", "BLEZ", "BGTZ", "BLTZ", "BGEZ", "BLTZAL", "BGEZAL", "J", "JAL", "JR", "JALR"]

/-- The mnemonics of the instructions a delayed load concerns (spec/93_implementation_defined.md U5). -/
def loadMnemonics : List String := ["LB", "LBU", "LH", "LHU", "LW", "LWL", "LWR", "MFC0", "MFC2", "CFC2"]

/-- The exceptions an instruction can raise in Execute (spec/60_exceptions.md R301). -/
def Exc.ofExecute (e : Exc) : Prop := e ≠ .coprocessorUnusable ∧ e ≠ .interrupt ∧ e ≠ .busErrorFetch

/-- One way an instruction can end. -/
inductive Ending (i : Instr) (s : State) : Host.Outcome State Fault Refusal → Prop where
  | completes (u : State) (h : Work i s u) : Ending i s (.next (commit u (s.npc + 4) false))
  | transfers (u : State) (n : Word) (h : Work i s u) (hm : i.mnemonic ∈ transferMnemonics)
      (hn : ExecInv s → aligned4 n = true) : Ending i s (.next (commit u n true))
  | loads (rt : RegIdx) (v : Word) (u : State) (hf : BusFrame s u) (hi : ExecInv s → ExecInv u)
      (hm : i.mnemonic ∈ loadMnemonics) : Ending i s (retireLoad rt v u)
  | raises (e : Exc) (u : State) (he : e.ofExecute) (hf : BusFrame s u) (hi : ExecInv s → ExecInv u) :
      Ending i s (.next (afterRaise e u))
  | faults (d : Device) : Ending i s (.fault (.negativeNextEvent d))

/-! ## The ways the families end -/

variable {i : Instr} {s : State}

theorem Work.refl (i : Instr) (s : State) : Work i s s where
  frame := rfl
  hi h := absurd rfl h
  lo h := absurd rfl h
  sr h := absurd rfl h
  cause h := absurd rfl h
  devices := rfl
  clk _ := rfl
  inv h := h

theorem Work.ofBus {u : State} (h : BusFrame s u) (hi : ExecInv s → ExecInv u) : Work i s u := by
  have hr := h.rest
  refine ⟨?_, fun h' => ?_, fun h' => ?_, fun h' => ?_, fun h' => ?_, h.devices, h.clk, hi⟩
  · unfold WorkFrame; rw [hr]
  all_goals exact absurd (by rw [hr]) h'

theorem Work.writeReg (i : Instr) (s : State) (rd : RegIdx) (v : Word) : Work i s (s.writeReg rd v) := by
  have h := writeReg_eq s rd v
  refine ⟨?_, fun h' => ?_, fun h' => ?_, fun h' => ?_, fun h' => ?_, ?_, fun _ => ?_, fun h' => h'.writeReg rd v⟩
  · unfold WorkFrame; rw [h]
  rotate_right 2
  · rw [h]
  · rw [h]
  all_goals exact absurd (by rw [h]) h'

theorem Ending.result (i : Instr) (s : State) (rd : RegIdx) (v : Word) : Ending i s (writeResult rd v s) := by
  have h := writeReg_eq s rd v
  have e : writeResult rd v s = .next (commit (s.writeReg rd v) (s.npc + 4) false) := by
    unfold writeResult retire
    rw [h]
  rw [e]
  exact .completes _ (Work.writeReg i s rd v)

theorem Ending.raised (i : Instr) (s : State) {e : Exc} (he : e.ofExecute) : Ending i s (raise e s) :=
  .raises e s he (BusFrame.refl s) id

theorem Ending.trapping (i : Instr) (s : State) (c : Bool) (rd : RegIdx) (v : Word) :
    Ending i s (writeTrapping c rd v s) := by
  unfold writeTrapping
  split
  · exact .raised i s ⟨by simp, by simp, by simp⟩
  · exact .result i s rd v

theorem Ending.hiLo (s : State) (h l : Word) (hh : h ≠ s.hi → i.mnemonic ∈ ["MULT", "MULTU", "DIV", "DIVU", "MTHI"])
    (hl : l ≠ s.lo → i.mnemonic ∈ ["MULT", "MULTU", "DIV", "DIVU", "MTLO"]) : Ending i s (writeHiLo h l s) :=
  .completes { s with hi := h, lo := l } ⟨rfl, hh, hl, fun h => absurd rfl h, fun h => absurd rfl h, rfl,
    fun _ => rfl, fun h => { h with }⟩

theorem Ending.branch (s : State) (taken : Bool) (imm : BitVec 16) (hm : i.mnemonic ∈ transferMnemonics) :
    Ending i s (branchIf taken imm s) := by
  refine .transfers s _ (Work.refl i s) hm fun h => ?_
  split
  · exact aligned4_branchTarget h imm
  · exact aligned4_add_four h.npc_aligned

theorem Ending.link (s : State) (taken : Bool) (imm : BitVec 16) (hm : i.mnemonic ∈ transferMnemonics) :
    Ending i s (branchLink taken imm s) := by
  have h := writeReg_eq s 31 (linkValue s)
  have e : branchLink taken imm s = .next (commit (s.writeReg 31 (linkValue s))
      (if taken then branchTarget s imm else s.npc + 4) true) := by
    unfold branchLink retireBranch
    rw [h]
  rw [e]
  refine .transfers _ _ (Work.writeReg i s _ _) hm fun h => ?_
  split
  · exact aligned4_branchTarget h imm
  · exact aligned4_add_four h.npc_aligned

theorem Ending.jumpReg (s : State) (l : Option RegIdx) (t : Word) (hm : i.mnemonic ∈ transferMnemonics) :
    Ending i s (jumpReg l t s) := by
  unfold Machine.jumpReg
  split
  · next ha =>
    cases l with
    | none => exact .transfers s t (Work.refl i s) hm fun _ => ha
    | some rd => exact .transfers _ t (Work.writeReg i s rd _) hm fun _ => ha
  · exact .raised i s ⟨by simp, by simp, by simp⟩

theorem Ending.load (s : State) (rt : RegIdx) (ea : Word) (n : Width) (ext : Word → Word)
    (hm : i.mnemonic ∈ loadMnemonics) : Ending i s (loadReg rt ea n ext s) := by
  unfold loadReg
  rcases memRead_cases s ea n with ⟨v, u, h, hf⟩ | ⟨e, h, he⟩
  · rw [h]
    exact .loads rt _ u hf (fun hi => hi.memRead h) hm
  · rw [h]
    refine .raised i s ?_
    rcases he with rfl | rfl <;> exact ⟨by simp, by simp, by simp⟩

/-- A store after a bus access that left `u`. -/
theorem Ending.storeAfter {s u : State} (hf : BusFrame s u) (hi : ExecInv s → ExecInv u) (ea : Word) (n : Width)
    (v : Word) : Ending i s (storeMem ea n v u) := by
  unfold storeMem
  rcases memWrite_cases u ea n v with ⟨w, h, hw⟩ | ⟨e, h, he⟩ | ⟨d, h⟩
  · rw [h]
    have hn : w.npc = s.npc := (hf.trans hw).npc
    have e : retire w = .next (commit w (s.npc + 4) false) := by rw [← hn]; rfl
    dsimp only
    rw [e]
    exact .completes w (.ofBus (hf.trans hw) fun h' => (hi h').memWrite h)
  · rw [h]
    refine .raises e u ?_ hf hi
    rcases he with rfl | rfl <;> exact ⟨by simp, by simp, by simp⟩
  · rw [h]
    exact .faults d

theorem Ending.store (s : State) (ea : Word) (n : Width) (v : Word) : Ending i s (storeMem ea n v s) :=
  .storeAfter (BusFrame.refl s) id ea n v

theorem Ending.merge (s : State) (ea : Word) (m : Word → Word) : Ending i s (mergeMem ea m s) := by
  unfold mergeMem
  rcases memRead_cases s (alignedWord ea) .word with ⟨v, u, h, hf⟩ | ⟨e, h, he⟩
  · rw [h]
    exact .storeAfter hf (fun hi => hi.memRead h) _ _ _
  · rw [h]
    refine .raised i s ?_
    rcases he with rfl | rfl <;> exact ⟨by simp, by simp, by simp⟩

/-- Commit after the collaborator has been told something. -/
theorem Ending.told (s : State) (e : PortEvent) : Ending i s (retire (s.tell e)) :=
  .completes (s.tell e) (.ofBus (tell_frame s e) fun h => h.tell e)

theorem Ending.mfc0 (s : State) (rt rd : RegIdx) : Ending (.mfc0 rt rd) s (execMfc0 rt rd s) := by
  unfold execMfc0
  split
  · exact .loads rt _ s (BusFrame.refl s) id (by simp [Instr.mnemonic, loadMnemonics])
  · split
    · exact .raised _ s ⟨by simp, by simp, by simp⟩
    · exact .loads rt _ s (BusFrame.refl s) id (by simp [Instr.mnemonic, loadMnemonics])

theorem Work.mtc0 {s u : State} {rt rd : RegIdx} {v : Word} (h : s.writeCop0 rd v = some u) :
    Work (.mtc0 rt rd) s u ∧ u.npc = s.npc := by
  unfold State.writeCop0 at h
  split at h <;> cases h <;>
    exact ⟨⟨rfl, fun h' => absurd rfl h', fun h' => absurd rfl h', fun _ => .inl rfl, fun _ => rfl,
      rfl, fun _ => rfl, fun h' => { h' with }⟩, rfl⟩

theorem Ending.mtc0 (s : State) (rt rd : RegIdx) : Ending (.mtc0 rt rd) s (execMtc0 rt rd s) := by
  unfold execMtc0
  split
  · next u h =>
    obtain ⟨hw, hn⟩ := Work.mtc0 (rt := rt) h
    have e : retire u = .next (commit u (s.npc + 4) false) := by rw [← hn]; rfl
    rw [e]
    exact .completes u hw
  · split
    · exact .raised _ s ⟨by simp, by simp, by simp⟩
    · exact .completes s (Work.refl _ s)

theorem Ending.lwc2 (s : State) (rt rs : RegIdx) (imm : BitVec 16) :
    Ending (.lwc2 rt rs imm) s (execLwc2 rt rs imm s) := by
  unfold execLwc2
  rcases memRead_cases s (effectiveAddress s rs imm) .word with ⟨v, u, h, hf⟩ | ⟨e, h, he⟩
  · rw [h]
    have hn : u.npc = s.npc := hf.npc
    have e : retire (u.tell (.cop2WriteData rt v)) =
        .next (commit (u.tell (.cop2WriteData rt v)) (s.npc + 4) false) := by rw [← hn]; rfl
    dsimp only
    rw [e]
    exact .completes _ (.ofBus (hf.trans (tell_frame u _)) fun hi => (hi.memRead h).tell _)
  · rw [h]
    refine .raised _ s ?_
    rcases he with rfl | rfl <;> exact ⟨by simp, by simp, by simp⟩

theorem Ending.swc2 (s : State) (rt rs : RegIdx) (imm : BitVec 16) :
    Ending (.swc2 rt rs imm) s (execSwc2 rt rs imm s) := by
  unfold execSwc2
  dsimp only
  split
  · exact .raised _ s ⟨by simp, by simp, by simp⟩
  · exact .storeAfter (tell_frame s _) (fun h => h.tell _) _ _ _

/-- Every instruction ends in one of the ways above. -/
theorem exec_cases (i : Instr) (s : State) : Ending i s (exec i s) := by
  cases i with
  | add | sub | addi => exact .trapping _ s _ _ _
  | mult | multu | div | divu => exact .hiLo s _ _ (fun _ => by simp [Instr.mnemonic]) (fun _ => by simp [Instr.mnemonic])
  | mthi => exact .hiLo s _ _ (fun _ => by simp [Instr.mnemonic]) (fun h => absurd rfl h)
  | mtlo => exact .hiLo s _ _ (fun h => absurd rfl h) (fun _ => by simp [Instr.mnemonic])
  | beq | bne | blez | bgtz | bltz | bgez => exact .branch s _ _ (by simp [Instr.mnemonic, transferMnemonics])
  | bltzal | bgezal => exact .link s _ _ (by simp [Instr.mnemonic, transferMnemonics])
  | j => exact .transfers s _ (Work.refl _ s) (by simp [Instr.mnemonic, transferMnemonics]) fun _ => aligned4_jumpTarget s _
  | jal => exact .transfers _ _ (Work.writeReg _ s 31 _) (by simp [Instr.mnemonic, transferMnemonics]) fun _ => aligned4_jumpTarget s _
  | jr rs => exact Ending.jumpReg s none (s.readReg rs) (by simp [Instr.mnemonic, transferMnemonics])
  | jalr rd rs => exact Ending.jumpReg s (some rd) (s.readReg rs) (by simp [Instr.mnemonic, transferMnemonics])
  | lb | lbu | lh | lhu | lw | lwl | lwr => exact .load s _ _ _ _ (by simp [Instr.mnemonic, loadMnemonics])
  | sb | sh | sw => exact .store s _ _ _
  | swl | swr => exact .merge s _ _
  | mfc0 rt rd => exact .mfc0 s rt rd
  | mtc0 rt rd => exact .mtc0 s rt rd
  | rfe =>
    exact .completes { s with sr := srPop s.sr } ⟨rfl, fun h => absurd rfl h, fun h => absurd rfl h,
      fun _ => .inr rfl, fun h => absurd rfl h, rfl, fun _ => rfl, fun h => { h with }⟩
  | syscall | breakpoint | reserved => exact .raised _ s ⟨by simp, by simp, by simp⟩
  | cop1 | cop3 => exact .completes s (Work.refl _ s)
  | mfc2 rt rd => exact .loads rt _ _ (tell_frame s _) (fun h => h.tell _) (by simp [Instr.mnemonic, loadMnemonics])
  | cfc2 rt rd => exact .loads rt _ _ (tell_frame s _) (fun h => h.tell _) (by simp [Instr.mnemonic, loadMnemonics])
  | mtc2 | ctc2 | cop2 => exact .told s _
  | lwc2 rt rs imm => exact .lwc2 s rt rs imm
  | swc2 rt rs imm => exact .swc2 s rt rs imm
  | _ => exact .result _ s _ _

end Sys2Proof.Machine
end

