-- ==== Sys2Proof/Laws/Operands.lean ====
section
/-! SUPPORT. The operand forms as arithmetic: immediates, effective addresses, targets, the merge tables of the
unaligned accesses byte by byte, and the byte lanes of a core-owned register bit by bit. -/

namespace Sys2Proof.Machine

/-! ## Immediates and addresses -/

theorem sext16_toInt (imm : BitVec 16) : (sext16 imm).toInt = imm.toInt := by
  unfold sext16
  rw [BitVec.toInt_signExtend_of_le (by omega)]

/-- A 32-bit sum as integer arithmetic modulo 2^32, the second operand signed. -/
theorem toNat_add_toInt (a b : Word) : ((a + b).toNat : Int) = ((a.toNat : Int) + b.toInt) % 4294967296 := by
  rw [BitVec.toNat_add, BitVec.toInt_eq_toNat_bmod]
  have := a.isLt
  have := b.isLt
  simp only [Int.bmod]
  omega

/-- The effective address of spec/44_load_store.md R230. -/
theorem effectiveAddress_toNat (s : State) (rs : RegIdx) (imm : BitVec 16) :
    ((effectiveAddress s rs imm).toNat : Int) = ((s.readReg rs).toNat + imm.toInt) % 4294967296 := by
  unfold effectiveAddress
  rw [toNat_add_toInt, sext16_toInt]

/-- The aligned word containing an address (R236). -/
theorem alignedWord_toNat (ea : Word) : (alignedWord ea).toNat = ea.toNat - ea.toNat % 4 := by
  have h : (alignedWord ea).toNat = ea.toNat / 4 * 4 := by
    have h1 : (alignedWord ea).toNat % 4 = 0 := by
      rw [← aligned4_iff]
      unfold aligned4 alignedWord
      rw [beq_iff_eq]
      apply BitVec.eq_of_getLsbD_eq
      intro i hi
      interval_cases i <;> simp
    have h2 : (alignedWord ea).toNat / 4 = ea.toNat / 4 := by
      have h3 : alignedWord ea >>> 2 = ea >>> 2 := by
        unfold alignedWord
        apply BitVec.eq_of_getLsbD_eq
        intro i hi
        interval_cases i <;> simp
      have := congrArg BitVec.toNat h3
      simpa [Nat.shiftRight_eq_div_pow] using this
    omega
  omega

theorem misaligned_alignedWord (ea : Word) : misaligned (alignedWord ea) .word = false :=
  misaligned_eq_false (by rw [alignedWord_toNat]; simp only [Width.bytes]; omega)

theorem lane_cases (ea : Word) :
    (lane ea = 0#2 ∧ ea.toNat % 4 = 0) ∨ (lane ea = 1#2 ∧ ea.toNat % 4 = 1) ∨
      (lane ea = 2#2 ∧ ea.toNat % 4 = 2) ∨ (lane ea = 3#2 ∧ ea.toNat % 4 = 3) := by
  have h : (lane ea).toNat = ea.toNat % 4 := by simp [lane]
  have h4 : ea.toNat % 4 < 4 := Nat.mod_lt _ (by decide)
  have e : lane ea = BitVec.ofNat 2 (ea.toNat % 4) := by rw [← h]; simp
  rw [e]
  generalize ea.toNat % 4 = l at *
  interval_cases l <;> simp

/-- The physical address of spec/20_memory.md R69. -/
theorem physical_eq (va : Word) : physical va = va.toNat % 0x20000000 := by
  unfold physical
  rw [BitVec.toNat_and]
  exact Nat.and_two_pow_sub_one_eq_mod va.toNat 29

theorem inKseg2_iff (va : Word) : inKseg2 va = true ↔ 0xC0000000 ≤ va.toNat := by
  unfold inKseg2
  rw [beq_iff_eq, ← BitVec.toNat_inj]
  have := va.isLt
  simp [Nat.shiftRight_eq_div_pow]
  omega

/-! ## Values of a width -/

theorem truncTo_toNat (n : Width) (v : Word) : (truncTo n v).toNat = v.toNat % 2 ^ (8 * n.bytes) := by
  have := v.isLt
  cases n
  · show v.toNat &&& (2 ^ 8 - 1) = _
    rw [Nat.and_two_pow_sub_one_eq_mod]
    rfl
  · show v.toNat &&& (2 ^ 16 - 1) = _
    rw [Nat.and_two_pow_sub_one_eq_mod]
    rfl
  · simp only [truncTo, Width.bytes]
    omega

theorem byteOf_toNat (v : Word) (i : Nat) : (byteOf v i).toNat = v.toNat / 2 ^ (8 * i) % 256 := by
  simp [byteOf, Nat.shiftRight_eq_div_pow]

theorem toNat_lt_of_high {v : Word} {n : Nat} (h : ∀ i, n ≤ i → v.getLsbD i = false) : v.toNat < 2 ^ n :=
  Nat.lt_pow_two_of_testBit _ fun i hi => h i hi

/-! ## Targets (spec/43_branch_jump.md R201, R202) -/

theorem branchBase_eq (s : State) : branchBase s = transferBase s := by
  unfold branchBase transferBase
  cases s.params.branchBase <;> rfl

theorem branchTarget_spec (s : State) (imm : BitVec 16) : IsBranchTarget s imm (branchTarget s imm) := by
  unfold IsBranchTarget branchTarget
  rw [branchBase_eq, BitVec.toNat_add, BitVec.toNat_shiftLeft, Nat.shiftLeft_eq]
  have h := sext16_toInt imm
  rw [BitVec.toInt_eq_toNat_bmod] at h
  simp only [Int.bmod] at h
  have := (transferBase s).isLt
  have := (sext16 imm).isLt
  omega

theorem jumpTarget_spec (s : State) (field : BitVec 26) : IsJumpTarget s field (jumpTarget s field) := by
  unfold IsJumpTarget jumpTarget
  rw [branchBase_eq]
  generalize transferBase s = b
  unfold BitVec.zeroExtend
  have h1 : ((b &&& 0xF0000000#32) ||| (field.setWidth 32 <<< 2)) >>> 28 = b >>> 28 := by
    apply BitVec.eq_of_getLsbD_eq
    intro i hi
    interval_cases i <;> simp
  have h2 : ((b &&& 0xF0000000#32) ||| (field.setWidth 32 <<< 2)).extractLsb' 0 28 = field.setWidth 28 <<< 2 := by
    apply BitVec.eq_of_getLsbD_eq
    intro i hi
    interval_cases i <;> simp
  have h1 := congrArg BitVec.toNat h1
  have h2 := congrArg BitVec.toNat h2
  have := field.isLt
  simp only [BitVec.toNat_ushiftRight, Nat.shiftRight_eq_div_pow, BitVec.extractLsb'_toNat, BitVec.toNat_shiftLeft,
    Nat.shiftLeft_eq, BitVec.toNat_setWidth, Nat.pow_zero, Nat.div_one] at h1 h2
  omega

/-! ## The merge tables, byte by byte (spec/44_load_store.md R236, R237, R241, R242) -/

theorem byteOf_mergeLwl (ea w cur : Word) (j : Nat) (hj : j < 4) : byteOf (mergeLwl (lane ea) w cur) j =
    if 3 ≤ j + ea.toNat % 4 then byteOf w (j + ea.toNat % 4 - 3) else byteOf cur j := by
  rcases lane_cases ea with ⟨h1, h2⟩ | ⟨h1, h2⟩ | ⟨h1, h2⟩ | ⟨h1, h2⟩ <;> rw [h1, h2] <;> interval_cases j <;>
    simp only [mergeLwl] <;> apply BitVec.eq_of_getLsbD_eq <;> intro k hk <;> interval_cases k <;> simp [byteOf]

theorem byteOf_mergeLwr (ea w cur : Word) (j : Nat) (hj : j < 4) : byteOf (mergeLwr (lane ea) w cur) j =
    if j + ea.toNat % 4 ≤ 3 then byteOf w (j + ea.toNat % 4) else byteOf cur j := by
  rcases lane_cases ea with ⟨h1, h2⟩ | ⟨h1, h2⟩ | ⟨h1, h2⟩ | ⟨h1, h2⟩ <;> rw [h1, h2] <;> interval_cases j <;>
    simp only [mergeLwr] <;> apply BitVec.eq_of_getLsbD_eq <;> intro k hk <;> interval_cases k <;> simp [byteOf]

theorem byteOf_mergeSwl (ea m v : Word) (j : Nat) (hj : j < 4) : byteOf (mergeSwl (lane ea) m v) j =
    if j ≤ ea.toNat % 4 then byteOf v (j + 3 - ea.toNat % 4) else byteOf m j := by
  rcases lane_cases ea with ⟨h1, h2⟩ | ⟨h1, h2⟩ | ⟨h1, h2⟩ | ⟨h1, h2⟩ <;> rw [h1, h2] <;> interval_cases j <;>
    simp only [mergeSwl] <;> apply BitVec.eq_of_getLsbD_eq <;> intro k hk <;> interval_cases k <;> simp [byteOf]

theorem byteOf_mergeSwr (ea m v : Word) (j : Nat) (hj : j < 4) : byteOf (mergeSwr (lane ea) m v) j =
    if ea.toNat % 4 ≤ j then byteOf v (j - ea.toNat % 4) else byteOf m j := by
  rcases lane_cases ea with ⟨h1, h2⟩ | ⟨h1, h2⟩ | ⟨h1, h2⟩ | ⟨h1, h2⟩ <;> rw [h1, h2] <;> interval_cases j <;>
    simp only [mergeSwr] <;> apply BitVec.eq_of_getLsbD_eq <;> intro k hk <;> interval_cases k <;> simp [byteOf]

/-! ## Byte lanes, bit by bit (spec/60_exceptions.md R336) -/

theorem getLsbD_lanePlace (n : Width) (o : Nat) (v : Word) {k : Nat} (hk : k < 32) : (lanePlace n o v).getLsbD k =
    (decide (8 * (o % 4) ≤ k ∧ k < 8 * (o % 4) + 8 * n.bytes) && v.getLsbD (k - 8 * (o % 4))) := by
  unfold lanePlace laneShift
  rw [BitVec.getLsbD_shiftLeft, getLsbD_truncTo]
  by_cases h : 8 * (o % 4) ≤ k
  · have h1 : (k - 8 * (o % 4) < 8 * n.bytes) ↔ (k < 8 * (o % 4) + 8 * n.bytes) := by omega
    simp [hk, h, h1, show ¬ k < 8 * (o % 4) by omega]
  · simp [hk, h, show k < 8 * (o % 4) by omega]

theorem getLsbD_laneMask (n : Width) (o : Nat) {k : Nat} (hk : k < 32) :
    (laneMask n o).getLsbD k = decide (8 * (o % 4) ≤ k ∧ k < 8 * (o % 4) + 8 * n.bytes) := by
  have h : (0xFFFFFFFF#32).getLsbD (k - 8 * (o % 4)) = true := by
    have : k - 8 * (o % 4) < 32 := by omega
    generalize k - 8 * (o % 4) = j at *
    interval_cases j <;> decide
  have h' := getLsbD_lanePlace n o 0xFFFFFFFF#32 hk
  rw [h, Bool.and_true] at h'
  exact h'

theorem getLsbD_laneWrite (n : Width) (o : Nat) (old v : Word) {k : Nat} (hk : k < 32) :
    (laneWrite n o old v).getLsbD k = if 8 * (o % 4) ≤ k ∧ k < 8 * (o % 4) + 8 * n.bytes
      then v.getLsbD (k - 8 * (o % 4)) else old.getLsbD k := by
  unfold laneWrite
  rw [BitVec.getLsbD_or, BitVec.getLsbD_and, BitVec.getLsbD_not, getLsbD_lanePlace n o v hk, getLsbD_laneMask n o hk]
  by_cases h : 8 * (o % 4) ≤ k ∧ k < 8 * (o % 4) + 8 * n.bytes
  · simp [h, hk]
  · simp only [h, hk, decide_true, decide_false, Bool.not_false, Bool.and_self, Bool.and_true, Bool.false_and,
      Bool.or_false, if_false]

theorem getLsbD_laneRead (n : Width) (o : Nat) (r : Word) (k : Nat) :
    (laneRead n o r).getLsbD k = (decide (k < 8 * n.bytes) && r.getLsbD (k + 8 * (o % 4))) := by
  unfold laneRead laneShift
  rw [getLsbD_truncTo, BitVec.getLsbD_ushiftRight, Nat.add_comm]

/-- A word access at a multiple of 4 touches the whole register. -/
theorem laneWrite_word {o : Nat} (ho : o % 4 = 0) (old v : Word) : laneWrite .word o old v = v := by
  apply BitVec.eq_of_getLsbD_eq
  intro k hk
  rw [getLsbD_laneWrite _ _ _ _ hk, ho, if_pos ⟨Nat.zero_le k, hk⟩]
  rfl

theorem laneRead_word {o : Nat} (ho : o % 4 = 0) (r : Word) : laneRead .word o r = r := by
  apply BitVec.eq_of_getLsbD_eq
  intro k hk
  rw [getLsbD_laneRead, ho]
  simp only [Width.bytes]
  simp [show k < 8 * 4 by omega]

end Sys2Proof.Machine
end

