-- ==== Sys2Proof/Laws/LoadStore.lean ====
section
/-! SUPPORT. Loads and stores on the paths that complete, in the words of Sys2Proof/Safety.lean. -/

namespace Sys2Proof.Machine

theorem exec_loadInstr (n : Width) (rt rs : RegIdx) (imm : BitVec 16) (s : State) :
    exec (loadInstr n rt rs imm) s = loadReg rt (effectiveAddress s rs imm) n id s := by
  cases n <;> rfl

theorem exec_storeInstr (n : Width) (rt rs : RegIdx) (imm : BitVec 16) (s : State) :
    exec (storeInstr n rt rs imm) s = storeMem (effectiveAddress s rs imm) n (s.readReg rt) s := by
  cases n <;> rfl

/-! ## Any window -/

/-- An aligned load from a window delivers what the window answers. -/
theorem loadReg_mapped {s : State} {ea : Word} {n : Width} {k : WindowKind} {o : Nat} (hm : misaligned ea n = false)
    (hr : resolve s ea = some (k, o)) (rt : RegIdx) (ext : Word → Word) :
    ∃ t, loadReg rt ea n ext s = .next t ∧
      Loaded ((windowRead s k o n).2.charge (s.latency ea n false)) t rt (ext (windowRead s k o n).1) := by
  obtain ⟨t, ht, hl⟩ := retireLoad_loaded ((windowRead s k o n).2.charge (s.latency ea n false)) rt
    (ext (windowRead s k o n).1)
  refine ⟨t, ?_, hl⟩
  unfold loadReg
  rw [memRead_mapped hm hr]
  exact ht

/-- An aligned store to a window that takes it. -/
theorem storeMem_mapped {s u : State} {ea v : Word} {n : Width} {k : WindowKind} {o : Nat}
    (hm : misaligned ea n = false) (hi : s.params.iscDropsStores = true → s.isc = false)
    (hr : resolve s ea = some (k, o)) (hw : windowWrite s k o n v = .ok u) :
    storeMem ea n v s = .next (u.charge (s.latency ea n true)).advanced := by
  unfold storeMem
  rw [memWrite_mapped hm hi hr, hw]
  rfl

/-- What a read leaves, but for its time: only a device is told of it (a DMA register when DICR is consistent, R90). -/
theorem windowRead_state {s : State} {k : WindowKind} (h : k = .dma → s.dicr.getLsbD 31 = dmaIrq s.dicr) (o : Nat)
    (n : Width) : (windowRead s k o n).2 = s.afterRead k o n := by
  cases k with
  | dma => exact dmaRecompute_of_consistent (h rfl)
  | _ => rfl

/-- The bits above those read are 0 (R80). -/
theorem windowRead_high (s : State) (k : WindowKind) (o : Nat) (n : Width) {i : Nat} (hi : 8 * n.bytes ≤ i) :
    (windowRead s k o n).1.getLsbD i = false := by
  have hd : decide (i < 8 * n.bytes) = false := decide_eq_false (by omega)
  cases k with
  | ram => exact Memory.high_readLE hi
  | bios => exact Memory.high_readLE hi
  | intc =>
    show (intcRead s o n).getLsbD i = false
    unfold intcRead
    split
    · rw [getLsbD_laneRead, hd, Bool.false_and]
    · rw [getLsbD_laneRead, hd, Bool.false_and]
    · exact BitVec.getLsbD_zero
  | dma =>
    show (laneRead n o _).getLsbD i = false
    rw [getLsbD_laneRead, hd, Bool.false_and]
  | device w =>
    show (truncTo n _).getLsbD i = false
    rw [getLsbD_truncTo, hd, Bool.false_and]

/-! ## Every form of a load and of a store (Sys2Proof/Safety.lean) -/

theorem sextByte_toInt (v : Word) : (sextByte v).toInt = (byteOf v 0).toInt := by
  unfold sextByte byteOf
  rw [BitVec.toInt_signExtend_of_le (by omega)]

theorem half_bytes (v : Word) : v.toNat % 65536 = 256 * (byteOf v 1).toNat + (byteOf v 0).toNat := by
  rw [byteOf_toNat, byteOf_toNat]
  omega

theorem sextHalf_toInt (v : Word) : (sextHalf v).toInt = 256 * (byteOf v 1).toInt + (byteOf v 0).toNat := by
  unfold sextHalf
  rw [BitVec.toInt_signExtend_of_le (by omega), BitVec.toInt_eq_toNat_bmod, BitVec.toInt_eq_toNat_bmod,
    BitVec.extractLsb'_toNat, byteOf_toNat, byteOf_toNat]
  simp only [Nat.shiftRight_zero, Int.bmod]
  omega

/-- The loads of an address in a window deliver what the window answers. -/
theorem everyLoad_mapped {s : State} {rs : RegIdx} {imm : BitVec 16} {k : WindowKind} {o : Nat}
    (hr : resolve s (effectiveAddress s rs imm) = some (k, o)) (rt : RegIdx) :
    EveryLoad s rt rs imm
      (fun n => (windowRead s k o n).2.charge (s.latency (effectiveAddress s rs imm) n false))
      (fun n => (windowRead s k o n).1) where
  lb := by
    obtain ⟨t, ht, hl⟩ := loadReg_mapped (misaligned_eq_false (n := .byte) (Nat.mod_one _)) hr rt sextByte
    exact ⟨t, _, ht, hl, sextByte_toInt _⟩
  lbu := by
    obtain ⟨t, ht, hl⟩ := loadReg_mapped (misaligned_eq_false (n := .byte) (Nat.mod_one _)) hr rt id
    refine ⟨t, _, ht, hl, ?_⟩
    have h := toNat_lt_of_high (n := 8) fun i hi => windowRead_high s k o .byte hi
    rw [byteOf_toNat, id]
    omega
  lh h := by
    obtain ⟨t, ht, hl⟩ := loadReg_mapped (misaligned_eq_false (n := .half) h) hr rt sextHalf
    exact ⟨t, _, ht, hl, sextHalf_toInt _⟩
  lhu h := by
    obtain ⟨t, ht, hl⟩ := loadReg_mapped (misaligned_eq_false (n := .half) h) hr rt id
    refine ⟨t, _, ht, hl, ?_⟩
    have h := toNat_lt_of_high (n := 16) fun i hi => windowRead_high s k o .half hi
    rw [← half_bytes, id]
    omega
  lw h := loadReg_mapped (misaligned_eq_false (n := .word) h) hr rt id
  lwc2 h := by
    show execLwc2 rt rs imm s = _
    unfold execLwc2
    rw [memRead_mapped (misaligned_eq_false (n := .word) h) hr]
    rfl

theorem byteOf_ext {v w : Word} (h : ∀ j, j < 4 → byteOf v j = byteOf w j) : v = w :=
  eq_of_bytes (n := .word) (fun _ hi => BitVec.getLsbD_of_ge _ _ hi) (fun _ hi => BitVec.getLsbD_of_ge _ _ hi) h

/-- Only the bytes read count. -/
theorem everyLoad_congr {s : State} {rt rs : RegIdx} {imm : BitVec 16} {u u' : Width → State} {v v' : Width → Word}
    (h : EveryLoad s rt rs imm u v) (hu : ∀ n, u n = u' n) (hv : ∀ n j, j < n.bytes → byteOf (v n) j = byteOf (v' n) j) :
    EveryLoad s rt rs imm u' v' := by
  obtain rfl : u = u' := funext hu
  have hw : v .word = v' .word := byteOf_ext fun j hj => hv .word j hj
  refine ⟨?_, ?_, ?_, ?_, ?_, ?_⟩
  · rw [← hv .byte 0 (by decide)]; exact h.lb
  · rw [← hv .byte 0 (by decide)]; exact h.lbu
  · rw [← hv .half 0 (by decide), ← hv .half 1 (by decide)]; exact h.lh
  · rw [← hv .half 0 (by decide), ← hv .half 1 (by decide)]; exact h.lhu
  · rw [← hw]; exact h.lw
  · rw [← hw]; exact h.lwc2

/-- LWL and LWR merge what the window answers for the aligned word. -/
theorem everyMergedLoad_mapped {s : State} {rs : RegIdx} {imm : BitVec 16} {k : WindowKind} {o : Nat}
    (hr : resolve s (alignedWord (effectiveAddress s rs imm)) = some (k, o)) (rt : RegIdx) :
    EveryMergedLoad s rt rs imm
      ((windowRead s k o .word).2.charge (s.latency (alignedWord (effectiveAddress s rs imm)) .word false))
      (windowRead s k o .word).1 where
  lwl := by
    obtain ⟨t, ht, hl⟩ := loadReg_mapped (misaligned_alignedWord _) hr rt
      fun w => mergeLwl (lane (effectiveAddress s rs imm)) w (s.readReg rt)
    exact ⟨t, _, ht, hl, fun j hj => byteOf_mergeLwl _ _ _ j hj⟩
  lwr := by
    obtain ⟨t, ht, hl⟩ := loadReg_mapped (misaligned_alignedWord _) hr rt
      fun w => mergeLwr (lane (effectiveAddress s rs imm)) w (s.readReg rt)
    exact ⟨t, _, ht, hl, fun j hj => byteOf_mergeLwr _ _ _ j hj⟩

/-- The stores end as an aligned bus write does, SWC2's after its collaborator has been asked. -/
theorem everyStore_of {s : State} {rt rs : RegIdx} {imm : BitVec 16} {P : State → Width → Word → Result → Prop}
    (h : ∀ log n x, (effectiveAddress s rs imm).toNat % n.bytes = 0 →
      P { s with portLog := log } n x (storeMem (effectiveAddress s rs imm) n x { s with portLog := log })) :
    EveryStore s rt rs imm P where
  sb := h s.portLog .byte _ (Nat.mod_one _)
  sh ha := h s.portLog .half _ ha
  sw ha := h s.portLog .word _ ha
  swc2 ha := by
    have hx : exec (.swc2 rt rs imm) s = storeMem (effectiveAddress s rs imm) .word
        (Config.cop2ReadData (.cop2ReadData rt :: s.portLog)) (s.tell (.cop2ReadData rt)) := by
      show execSwc2 rt rs imm s = _
      unfold execSwc2
      dsimp only
      rw [misaligned_eq_false (n := .word) ha, if_neg (by simp)]
      rfl
    rw [hx]
    exact h (.cop2ReadData rt :: s.portLog) .word _ ha

/-- The merged stores end as the bus write of the merged word does, in the state after the read. -/
theorem everyMergedStore_of {s : State} {rt rs : RegIdx} {imm : BitVec 16} {k : WindowKind} {o : Nat}
    {P : Word → Result → Prop} (hr : resolve s (alignedWord (effectiveAddress s rs imm)) = some (k, o))
    (h : ∀ x, P x (storeMem (alignedWord (effectiveAddress s rs imm)) .word x
      ((windowRead s k o .word).2.charge (s.latency (alignedWord (effectiveAddress s rs imm)) .word false)))) :
    EveryMergedStore s rt rs imm (windowRead s k o .word).1 P := by
  have hm : ∀ merge, mergeMem (effectiveAddress s rs imm) merge s =
      storeMem (alignedWord (effectiveAddress s rs imm)) .word (merge (windowRead s k o .word).1)
        ((windowRead s k o .word).2.charge (s.latency (alignedWord (effectiveAddress s rs imm)) .word false)) := by
    intro merge
    unfold mergeMem
    rw [memRead_mapped (misaligned_alignedWord _) hr]
  refine ⟨⟨_, ?_, fun j hj => byteOf_mergeSwl _ _ _ j hj⟩, ⟨_, ?_, fun j hj => byteOf_mergeSwr _ _ _ j hj⟩⟩
  · show P _ (mergeMem _ _ s)
    rw [hm]
    exact h _
  · show P _ (mergeMem _ _ s)
    rw [hm]
    exact h _

/-! ## RAM and BIOS -/

/-- An aligned load from RAM or BIOS: what holds of the register value of every word with the bytes stored there holds
of the value loaded. -/
theorem loadReg_storage {s : State} {ea : Word} {n : Width} {k : WindowKind} {o : Nat} (hm : misaligned ea n = false)
    (hr : resolve s ea = some (k, o)) (hk : isStorage k = true) (rt : RegIdx) (ext : Word → Word) (P : Word → Prop)
    (h : ∀ v : Word, (∀ i, i < n.bytes → byteOf v i = s.storedByte k (o + i)) →
      (∀ i, 8 * n.bytes ≤ i → v.getLsbD i = false) → P (ext v)) :
    ∃ t v, loadReg rt ea n ext s = .next t ∧ Loaded (s.charge (s.latency ea n false)) t rt v ∧ P v := by
  obtain ⟨h1, h2, h3⟩ := windowRead_storage (s := s) hk o n
  obtain ⟨t, ht, hl⟩ := loadReg_mapped hm hr rt ext
  rw [h1] at hl
  exact ⟨t, _, ht, hl, h _ h2 h3⟩

/-- What a little-endian write of RAM leaves. -/
theorem storedRam_writeLE {s : State} (hw : Memory.wf Config.ramSize s.ram = true) (o : Nat) (n : Width) (v : Word) :
    StoredRam s ({ s with ram := Memory.writeLE s.ram Config.ramSize o v n } : State).advanced o n.bytes (byteOf v) where
  rest := rfl
  inside i hi := Memory.get_writeLE_touched (by decide) (Memory.wf_from hw) hi
  outside p hp := Memory.get_writeLE_other (Memory.wf_from hw) rfl hp
  bytes a ha := by
    have hrs : resolve ({ s with ram := Memory.writeLE s.ram Config.ramSize o v n } : State).advanced a = resolve s a :=
      rfl
    unfold State.byteAt
    rw [hrs]
    cases hr : resolve s a with
    | none => rfl
    | some p =>
      obtain ⟨k, q⟩ := p
      cases k with
      | ram => exact congrArg some (Memory.get_writeLE_other (Memory.wf_from hw) rfl fun i hi => ha q i hr hi)
      | _ => rfl

/-- An aligned store to RAM. -/
theorem storeMem_ram {s : State} {ea v : Word} {n : Width} {o : Nat} (hm : misaligned ea n = false)
    (hi : s.params.iscDropsStores = true → s.isc = false) (hr : resolve s ea = some (.ram, o)) :
    storeMem ea n v s = .next
      ({ s.charge (s.latency ea n true) with ram := Memory.writeLE s.ram Config.ramSize o v n } : State).advanced :=
  storeMem_mapped hm hi hr rfl

/-- The read-modify-write of a word of RAM. -/
theorem mergeMem_ram {s : State} {ea : Word} {o : Nat} (hi : s.params.iscDropsStores = true → s.isc = false)
    (hr : resolve s (alignedWord ea) = some (.ram, o)) (merge : Word → Word) :
    mergeMem ea merge s = .next
      ({ (s.charge (s.latency (alignedWord ea) .word false)).charge (s.latency (alignedWord ea) .word true) with
        ram := Memory.writeLE s.ram Config.ramSize o (merge (Memory.readLE s.ram Config.ramSize o .word)) .word }
        : State).advanced := by
  unfold mergeMem
  rw [memRead_mapped (misaligned_alignedWord _) hr]
  exact storeMem_ram (s := s.charge (s.latency (alignedWord ea) .word false)) (misaligned_alignedWord _) hi hr

/-- A word store that wrote back, outside `n` of its bytes, what stood there is a store of those `n` bytes. -/
theorem StoredRam.narrow {s t : State} {o a n : Nat} {v : Word} {b : Nat → Byte} (hn : a + n ≤ 4)
    (h : StoredRam s t o 4 (byteOf v)) (hb : ∀ i, i < n → byteOf v (a + i) = b i)
    (hk : ∀ i, i < 4 → ¬ (a ≤ i ∧ i < a + n) → byteOf v i = s.ram.get ((o + i) % Config.ramSize)) :
    StoredRam s t (o + a) n b where
  rest := h.rest
  inside i hi := by
    rw [← hb i hi, ← h.inside _ (by omega), Nat.add_assoc]
  outside p hp := by
    by_cases hex : ∃ i, i < 4 ∧ p = (o + i) % Config.ramSize
    · obtain ⟨i, hi, rfl⟩ := hex
      rw [h.inside i hi]
      apply hk i hi
      rintro ⟨h1, h2⟩
      exact hp (i - a) (by omega) (by rw [Nat.add_assoc, show a + (i - a) = i by omega])
    · exact h.outside p fun i hi he => hex ⟨i, hi, he⟩
  bytes x hx := by
    by_cases hex : ∃ q i, resolve s x = some (.ram, q) ∧ i < 4 ∧ q % Config.ramSize = (o + i) % Config.ramSize
    · obtain ⟨q, i, hq, hi, he⟩ := hex
      have hr' : resolve t x = some (.ram, q) := by rw [← hq]; exact resolve_congr (by rw [h.rest]; rfl) x
      have : t.ram.get (q % Config.ramSize) = s.ram.get (q % Config.ramSize) := by
        rw [he, h.inside i hi]
        apply hk i hi
        rintro ⟨h1, h2⟩
        exact hx q (i - a) hq (by omega) (by rw [Nat.add_assoc, show a + (i - a) = i by omega, he])
      unfold State.byteAt
      rw [hq, hr']
      simp only [State.storedByte, this]
    · exact h.bytes x fun q i hq hi he => hex ⟨q, i, hq, hi, he⟩

/-! ## Device windows (spec/60_exceptions.md R357) -/

/-- The next-event distance of a device after re-arming pairs, the last one counting. -/
theorem rearm_ok (l : List (Device × Int)) : ∀ {s : State}, (∀ p ∈ l, 0 ≤ p.2) → rearm l s = .ok { s with
    sched := s.sched.map fun e => { e with
      next := (((l.filter fun p => p.1 == e.device).getLast?).map Prod.snd).getD e.next } } := by
  induction l with
  | nil => intro s _; simp [rearm]
  | cons p l ih =>
    intro s h
    unfold rearm
    rw [if_neg (by have := h p (by simp); omega), ih fun q hq => h q (List.mem_cons_of_mem _ hq)]
    congr 2
    unfold State.setNext
    rw [List.map_map]
    apply List.map_congr_left
    intro e _
    simp only [Function.comp]
    by_cases he : e.device = p.1
    · rw [if_pos he]
      simp only [List.filter_cons, he, beq_self_eq_true, if_true]
      rw [List.getLast?_cons]
      cases (l.filter fun q => q.1 == p.1).getLast? <;> rfl
    · rw [if_neg he]
      simp only [List.filter_cons, beq_eq_false_iff_ne.mpr (Ne.symm he), Bool.false_eq_true, if_false]

theorem rearm_negative (l : List (Device × Int)) : ∀ {s : State}, (∃ p ∈ l, p.2 < 0) → ∃ f, rearm l s = .error f := by
  induction l with
  | nil => rintro s ⟨p, hp, _⟩; cases hp
  | cons p l ih =>
    rintro s ⟨q, hq, hlt⟩
    unfold rearm
    by_cases hx : p.2 < 0
    · rw [if_pos hx]
      exact ⟨_, rfl⟩
    · rw [if_neg hx]
      rcases List.mem_cons.mp hq with rfl | hq
      · exact absurd hlt hx
      · exact ih ⟨q, hq, hlt⟩

end Sys2Proof.Machine
end

