-- ==== Sys2Proof/Laws/PerInstr.lean ====
section
/-! SUPPORT. Per instruction, as syntax: the instruction has a row in the opcode table, under its mnemonic, which selects
the word the encoder writes; a reserved word stands for no row (spec/30_encoding.md R113 to R118, R123). -/

namespace Sys2Proof.Laws.SelectedByRow

/-- The instruction's word is selected by its own row of the opcode table; RESERVED has no row there. -/
def Statement (i : Instr) : Prop :=
  i.mnemonic = "RESERVED" ∨ ∃ r ∈ opcodeTable, r.mnemonic = i.mnemonic ∧ r.selects (encode i) = true

/-! ## The masks of the table on the three formats -/

theorem mask_special (op fn : BitVec 6) (rs rt rd : RegIdx) (sh : BitVec 5) :
    encodeR op rs rt rd sh fn &&& 0xFC00003F#32 = place 26 op ||| place 0 fn := by
  apply BitVec.eq_of_getLsbD_eq
  intro k hk
  interval_cases k <;> simp [encodeR, getElem_place]

theorem mask_regimm (op : BitVec 6) (rs rt : RegIdx) (imm : BitVec 16) :
    encodeI op rs rt imm &&& 0xFC1F0000#32 = place 26 op ||| place 16 (regBits rt) := by
  apply BitVec.eq_of_getLsbD_eq
  intro k hk
  interval_cases k <;> simp [encodeI, getElem_place]

theorem mask_opcodeI (op : BitVec 6) (rs rt : RegIdx) (imm : BitVec 16) :
    encodeI op rs rt imm &&& 0xFC000000#32 = place 26 op := by
  apply BitVec.eq_of_getLsbD_eq
  intro k hk
  interval_cases k <;> simp [encodeI, getElem_place]

theorem mask_opcodeJ (op : BitVec 6) (target : BitVec 26) :
    encodeJ op target &&& 0xFC000000#32 = place 26 op := by
  apply BitVec.eq_of_getLsbD_eq
  intro k hk
  interval_cases k <;> simp [encodeJ, getElem_place]

theorem mask_cop (op fn : BitVec 6) (rs rt rd : RegIdx) (sh : BitVec 5) :
    encodeR op rs rt rd sh fn &&& 0xFFE00000#32 = place 26 op ||| place 21 (regBits rs) := by
  apply BitVec.eq_of_getLsbD_eq
  intro k hk
  interval_cases k <;> simp [encodeR, getElem_place]

theorem mask_command (op : BitVec 6) (c : BitVec 25) :
    encodeJ op (0x2000000#26 ||| c.setWidth 26) &&& 0xFE000000#32 = place 26 op ||| place 25 (1#1) := by
  apply BitVec.eq_of_getLsbD_eq
  intro k hk
  interval_cases k <;> simp [encodeJ, getElem_place]

/-- A row of the table that selects the word. -/
theorem of_row {i : Instr} (r : TableRow) (h : r ∈ opcodeTable) (hm : r.mnemonic = i.mnemonic)
    (hs : encode i &&& r.mask = r.pattern) : Statement i :=
  .inr ⟨r, h, hm, beq_iff_eq.mpr hs⟩

/-! ## One lemma per constructor -/

theorem sll (rd rt : RegIdx) (shamt : BitVec 5) : Statement (.sll rd rt shamt) :=
  of_row ⟨"SLL", 0x00000000#32, 0xFC00003F#32⟩ (by decide) rfl (mask_special _ _ _ _ _ _)
theorem srl (rd rt : RegIdx) (shamt : BitVec 5) : Statement (.srl rd rt shamt) :=
  of_row ⟨"SRL", 0x00000002#32, 0xFC00003F#32⟩ (by decide) rfl (mask_special _ _ _ _ _ _)
theorem sra (rd rt : RegIdx) (shamt : BitVec 5) : Statement (.sra rd rt shamt) :=
  of_row ⟨"SRA", 0x00000003#32, 0xFC00003F#32⟩ (by decide) rfl (mask_special _ _ _ _ _ _)
theorem sllv (rd rt rs : RegIdx) : Statement (.sllv rd rt rs) :=
  of_row ⟨"SLLV", 0x00000004#32, 0xFC00003F#32⟩ (by decide) rfl (mask_special _ _ _ _ _ _)
theorem srlv (rd rt rs : RegIdx) : Statement (.srlv rd rt rs) :=
  of_row ⟨"SRLV", 0x00000006#32, 0xFC00003F#32⟩ (by decide) rfl (mask_special _ _ _ _ _ _)
theorem srav (rd rt rs : RegIdx) : Statement (.srav rd rt rs) :=
  of_row ⟨"SRAV", 0x00000007#32, 0xFC00003F#32⟩ (by decide) rfl (mask_special _ _ _ _ _ _)
theorem add (rd rs rt : RegIdx) : Statement (.add rd rs rt) :=
  of_row ⟨"ADD", 0x00000020#32, 0xFC00003F#32⟩ (by decide) rfl (mask_special _ _ _ _ _ _)
theorem addu (rd rs rt : RegIdx) : Statement (.addu rd rs rt) :=
  of_row ⟨"ADDU", 0x00000021#32, 0xFC00003F#32⟩ (by decide) rfl (mask_special _ _ _ _ _ _)
theorem sub (rd rs rt : RegIdx) : Statement (.sub rd rs rt) :=
  of_row ⟨"SUB", 0x00000022#32, 0xFC00003F#32⟩ (by decide) rfl (mask_special _ _ _ _ _ _)
theorem subu (rd rs rt : RegIdx) : Statement (.subu rd rs rt) :=
  of_row ⟨"SUBU", 0x00000023#32, 0xFC00003F#32⟩ (by decide) rfl (mask_special _ _ _ _ _ _)
theorem and (rd rs rt : RegIdx) : Statement (.and rd rs rt) :=
  of_row ⟨"AND", 0x00000024#32, 0xFC00003F#32⟩ (by decide) rfl (mask_special _ _ _ _ _ _)
theorem or (rd rs rt : RegIdx) : Statement (.or rd rs rt) :=
  of_row ⟨"OR", 0x00000025#32, 0xFC00003F#32⟩ (by decide) rfl (mask_special _ _ _ _ _ _)
theorem xor (rd rs rt : RegIdx) : Statement (.xor rd rs rt) :=
  of_row ⟨"XOR", 0x00000026#32, 0xFC00003F#32⟩ (by decide) rfl (mask_special _ _ _ _ _ _)
theorem nor (rd rs rt : RegIdx) : Statement (.nor rd rs rt) :=
  of_row ⟨"NOR", 0x00000027#32, 0xFC00003F#32⟩ (by decide) rfl (mask_special _ _ _ _ _ _)
theorem slt (rd rs rt : RegIdx) : Statement (.slt rd rs rt) :=
  of_row ⟨"SLT", 0x0000002A#32, 0xFC00003F#32⟩ (by decide) rfl (mask_special _ _ _ _ _ _)
theorem sltu (rd rs rt : RegIdx) : Statement (.sltu rd rs rt) :=
  of_row ⟨"SLTU", 0x0000002B#32, 0xFC00003F#32⟩ (by decide) rfl (mask_special _ _ _ _ _ _)
theorem addi (rt rs : RegIdx) (imm : BitVec 16) : Statement (.addi rt rs imm) :=
  of_row ⟨"ADDI", 0x20000000#32, 0xFC000000#32⟩ (by decide) rfl (mask_opcodeI _ _ _ _)
theorem addiu (rt rs : RegIdx) (imm : BitVec 16) : Statement (.addiu rt rs imm) :=
  of_row ⟨"ADDIU", 0x24000000#32, 0xFC000000#32⟩ (by decide) rfl (mask_opcodeI _ _ _ _)
theorem slti (rt rs : RegIdx) (imm : BitVec 16) : Statement (.slti rt rs imm) :=
  of_row ⟨"SLTI", 0x28000000#32, 0xFC000000#32⟩ (by decide) rfl (mask_opcodeI _ _ _ _)
theorem sltiu (rt rs : RegIdx) (imm : BitVec 16) : Statement (.sltiu rt rs imm) :=
  of_row ⟨"SLTIU", 0x2C000000#32, 0xFC000000#32⟩ (by decide) rfl (mask_opcodeI _ _ _ _)
theorem andi (rt rs : RegIdx) (imm : BitVec 16) : Statement (.andi rt rs imm) :=
  of_row ⟨"ANDI", 0x30000000#32, 0xFC000000#32⟩ (by decide) rfl (mask_opcodeI _ _ _ _)
theorem ori (rt rs : RegIdx) (imm : BitVec 16) : Statement (.ori rt rs imm) :=
  of_row ⟨"ORI", 0x34000000#32, 0xFC000000#32⟩ (by decide) rfl (mask_opcodeI _ _ _ _)
theorem xori (rt rs : RegIdx) (imm : BitVec 16) : Statement (.xori rt rs imm) :=
  of_row ⟨"XORI", 0x38000000#32, 0xFC000000#32⟩ (by decide) rfl (mask_opcodeI _ _ _ _)
theorem lui (rt : RegIdx) (imm : BitVec 16) : Statement (.lui rt imm) :=
  of_row ⟨"LUI", 0x3C000000#32, 0xFC000000#32⟩ (by decide) rfl (mask_opcodeI _ _ _ _)
theorem mult (rs rt : RegIdx) : Statement (.mult rs rt) :=
  of_row ⟨"MULT", 0x00000018#32, 0xFC00003F#32⟩ (by decide) rfl (mask_special _ _ _ _ _ _)
theorem multu (rs rt : RegIdx) : Statement (.multu rs rt) :=
  of_row ⟨"MULTU", 0x00000019#32, 0xFC00003F#32⟩ (by decide) rfl (mask_special _ _ _ _ _ _)
theorem div (rs rt : RegIdx) : Statement (.div rs rt) :=
  of_row ⟨"DIV", 0x0000001A#32, 0xFC00003F#32⟩ (by decide) rfl (mask_special _ _ _ _ _ _)
theorem divu (rs rt : RegIdx) : Statement (.divu rs rt) :=
  of_row ⟨"DIVU", 0x0000001B#32, 0xFC00003F#32⟩ (by decide) rfl (mask_special _ _ _ _ _ _)
theorem mfhi (rd : RegIdx) : Statement (.mfhi rd) :=
  of_row ⟨"MFHI", 0x00000010#32, 0xFC00003F#32⟩ (by decide) rfl (mask_special _ _ _ _ _ _)
theorem mthi (rs : RegIdx) : Statement (.mthi rs) :=
  of_row ⟨"MTHI", 0x00000011#32, 0xFC00003F#32⟩ (by decide) rfl (mask_special _ _ _ _ _ _)
theorem mflo (rd : RegIdx) : Statement (.mflo rd) :=
  of_row ⟨"MFLO", 0x00000012#32, 0xFC00003F#32⟩ (by decide) rfl (mask_special _ _ _ _ _ _)
theorem mtlo (rs : RegIdx) : Statement (.mtlo rs) :=
  of_row ⟨"MTLO", 0x00000013#32, 0xFC00003F#32⟩ (by decide) rfl (mask_special _ _ _ _ _ _)
theorem beq (rs rt : RegIdx) (imm : BitVec 16) : Statement (.beq rs rt imm) :=
  of_row ⟨"BEQ", 0x10000000#32, 0xFC000000#32⟩ (by decide) rfl (mask_opcodeI _ _ _ _)
theorem bne (rs rt : RegIdx) (imm : BitVec 16) : Statement (.bne rs rt imm) :=
  of_row ⟨"BNE", 0x14000000#32, 0xFC000000#32⟩ (by decide) rfl (mask_opcodeI _ _ _ _)
theorem blez (rs : RegIdx) (imm : BitVec 16) : Statement (.blez rs imm) :=
  of_row ⟨"BLEZ", 0x18000000#32, 0xFC000000#32⟩ (by decide) rfl (mask_opcodeI _ _ _ _)
theorem bgtz (rs : RegIdx) (imm : BitVec 16) : Statement (.bgtz rs imm) :=
  of_row ⟨"BGTZ", 0x1C000000#32, 0xFC000000#32⟩ (by decide) rfl (mask_opcodeI _ _ _ _)
theorem bltz (rs : RegIdx) (imm : BitVec 16) : Statement (.bltz rs imm) :=
  of_row ⟨"BLTZ", 0x04000000#32, 0xFC1F0000#32⟩ (by decide) rfl (mask_regimm _ _ _ _)
theorem bgez (rs : RegIdx) (imm : BitVec 16) : Statement (.bgez rs imm) :=
  of_row ⟨"BGEZ", 0x04010000#32, 0xFC1F0000#32⟩ (by decide) rfl (mask_regimm _ _ _ _)
theorem bltzal (rs : RegIdx) (imm : BitVec 16) : Statement (.bltzal rs imm) :=
  of_row ⟨"BLTZAL", 0x04100000#32, 0xFC1F0000#32⟩ (by decide) rfl (mask_regimm _ _ _ _)
theorem bgezal (rs : RegIdx) (imm : BitVec 16) : Statement (.bgezal rs imm) :=
  of_row ⟨"BGEZAL", 0x04110000#32, 0xFC1F0000#32⟩ (by decide) rfl (mask_regimm _ _ _ _)
theorem j (target : BitVec 26) : Statement (.j target) :=
  of_row ⟨"J", 0x08000000#32, 0xFC000000#32⟩ (by decide) rfl (mask_opcodeJ _ _)
theorem jal (target : BitVec 26) : Statement (.jal target) :=
  of_row ⟨"JAL", 0x0C000000#32, 0xFC000000#32⟩ (by decide) rfl (mask_opcodeJ _ _)
theorem jr (rs : RegIdx) : Statement (.jr rs) :=
  of_row ⟨"JR", 0x00000008#32, 0xFC00003F#32⟩ (by decide) rfl (mask_special _ _ _ _ _ _)
theorem jalr (rd rs : RegIdx) : Statement (.jalr rd rs) :=
  of_row ⟨"JALR", 0x00000009#32, 0xFC00003F#32⟩ (by decide) rfl (mask_special _ _ _ _ _ _)
theorem lb (rt rs : RegIdx) (imm : BitVec 16) : Statement (.lb rt rs imm) :=
  of_row ⟨"LB", 0x80000000#32, 0xFC000000#32⟩ (by decide) rfl (mask_opcodeI _ _ _ _)
theorem lbu (rt rs : RegIdx) (imm : BitVec 16) : Statement (.lbu rt rs imm) :=
  of_row ⟨"LBU", 0x90000000#32, 0xFC000000#32⟩ (by decide) rfl (mask_opcodeI _ _ _ _)
theorem lh (rt rs : RegIdx) (imm : BitVec 16) : Statement (.lh rt rs imm) :=
  of_row ⟨"LH", 0x84000000#32, 0xFC000000#32⟩ (by decide) rfl (mask_opcodeI _ _ _ _)
theorem lhu (rt rs : RegIdx) (imm : BitVec 16) : Statement (.lhu rt rs imm) :=
  of_row ⟨"LHU", 0x94000000#32, 0xFC000000#32⟩ (by decide) rfl (mask_opcodeI _ _ _ _)
theorem lw (rt rs : RegIdx) (imm : BitVec 16) : Statement (.lw rt rs imm) :=
  of_row ⟨"LW", 0x8C000000#32, 0xFC000000#32⟩ (by decide) rfl (mask_opcodeI _ _ _ _)
theorem lwl (rt rs : RegIdx) (imm : BitVec 16) : Statement (.lwl rt rs imm) :=
  of_row ⟨"LWL", 0x88000000#32, 0xFC000000#32⟩ (by decide) rfl (mask_opcodeI _ _ _ _)
theorem lwr (rt rs : RegIdx) (imm : BitVec 16) : Statement (.lwr rt rs imm) :=
  of_row ⟨"LWR", 0x98000000#32, 0xFC000000#32⟩ (by decide) rfl (mask_opcodeI _ _ _ _)
theorem sb (rt rs : RegIdx) (imm : BitVec 16) : Statement (.sb rt rs imm) :=
  of_row ⟨"SB", 0xA0000000#32, 0xFC000000#32⟩ (by decide) rfl (mask_opcodeI _ _ _ _)
theorem sh (rt rs : RegIdx) (imm : BitVec 16) : Statement (.sh rt rs imm) :=
  of_row ⟨"SH", 0xA4000000#32, 0xFC000000#32⟩ (by decide) rfl (mask_opcodeI _ _ _ _)
theorem sw (rt rs : RegIdx) (imm : BitVec 16) : Statement (.sw rt rs imm) :=
  of_row ⟨"SW", 0xAC000000#32, 0xFC000000#32⟩ (by decide) rfl (mask_opcodeI _ _ _ _)
theorem swl (rt rs : RegIdx) (imm : BitVec 16) : Statement (.swl rt rs imm) :=
  of_row ⟨"SWL", 0xA8000000#32, 0xFC000000#32⟩ (by decide) rfl (mask_opcodeI _ _ _ _)
theorem swr (rt rs : RegIdx) (imm : BitVec 16) : Statement (.swr rt rs imm) :=
  of_row ⟨"SWR", 0xB8000000#32, 0xFC000000#32⟩ (by decide) rfl (mask_opcodeI _ _ _ _)
theorem mfc0 (rt rd : RegIdx) : Statement (.mfc0 rt rd) :=
  of_row ⟨"MFC0", 0x40000000#32, 0xFFE00000#32⟩ (by decide) rfl (mask_cop _ _ _ _ _ _)
theorem mtc0 (rt rd : RegIdx) : Statement (.mtc0 rt rd) :=
  of_row ⟨"MTC0", 0x40800000#32, 0xFFE00000#32⟩ (by decide) rfl (mask_cop _ _ _ _ _ _)
theorem rfe : Statement (.rfe) :=
  of_row ⟨"RFE", 0x42000010#32, 0xFE00003F#32⟩ (by decide) rfl (by decide)
theorem syscall : Statement (.syscall) :=
  of_row ⟨"SYSCALL", 0x0000000C#32, 0xFC00003F#32⟩ (by decide) rfl (mask_special _ _ _ _ _ _)
theorem breakpoint : Statement (.breakpoint) :=
  of_row ⟨"BREAK", 0x0000000D#32, 0xFC00003F#32⟩ (by decide) rfl (mask_special _ _ _ _ _ _)
theorem cop1 : Statement (.cop1) :=
  of_row ⟨"COP1", 0x44000000#32, 0xFC000000#32⟩ (by decide) rfl (mask_opcodeJ _ _)
theorem cop3 : Statement (.cop3) :=
  of_row ⟨"COP3", 0x4C000000#32, 0xFC000000#32⟩ (by decide) rfl (mask_opcodeJ _ _)
theorem mfc2 (rt rd : RegIdx) : Statement (.mfc2 rt rd) :=
  of_row ⟨"MFC2", 0x48000000#32, 0xFFE00000#32⟩ (by decide) rfl (mask_cop _ _ _ _ _ _)
theorem cfc2 (rt rd : RegIdx) : Statement (.cfc2 rt rd) :=
  of_row ⟨"CFC2", 0x48400000#32, 0xFFE00000#32⟩ (by decide) rfl (mask_cop _ _ _ _ _ _)
theorem mtc2 (rt rd : RegIdx) : Statement (.mtc2 rt rd) :=
  of_row ⟨"MTC2", 0x48800000#32, 0xFFE00000#32⟩ (by decide) rfl (mask_cop _ _ _ _ _ _)
theorem ctc2 (rt rd : RegIdx) : Statement (.ctc2 rt rd) :=
  of_row ⟨"CTC2", 0x48C00000#32, 0xFFE00000#32⟩ (by decide) rfl (mask_cop _ _ _ _ _ _)
theorem cop2 (command : BitVec 25) : Statement (.cop2 command) :=
  of_row ⟨"COP2", 0x4A000000#32, 0xFE000000#32⟩ (by decide) rfl (mask_command _ _)
theorem lwc2 (rt rs : RegIdx) (imm : BitVec 16) : Statement (.lwc2 rt rs imm) :=
  of_row ⟨"LWC2", 0xC8000000#32, 0xFC000000#32⟩ (by decide) rfl (mask_opcodeI _ _ _ _)
theorem swc2 (rt rs : RegIdx) (imm : BitVec 16) : Statement (.swc2 rt rs imm) :=
  of_row ⟨"SWC2", 0xE8000000#32, 0xFC000000#32⟩ (by decide) rfl (mask_opcodeI _ _ _ _)
theorem reserved (word : Word) : Statement (.reserved word) := .inl rfl

end Sys2Proof.Laws.SelectedByRow
end

