-- ==== Sys2Proof/Laws/Timekeeper.lean ====
section
/-! SUPPORT. The loop of a synchronisation pass (spec/60_exceptions.md R355), said once, and what the pass makes of it. -/

namespace Sys2Proof.Machine

/-! ## What the devices are asked and what they answer -/

/-- What a pass over the list asks, in order. -/
def askedOf (s : State) (l : List SchedEntry) : List PortEvent :=
  l.map fun e => .catchUp e.device (s.elapsed e.lastSync)

/-- The answer of the `i`-th device of the list. -/
def replyOf (s : State) (l : List SchedEntry) (i : Nat) : CatchUpReply :=
  Config.catchUp (((askedOf s l).take (i + 1)).reverse ++ s.portLog)

/-- The cycles since a device's last pass as integer arithmetic (R355). -/
theorem elapsed_eq (s : State) (lastSync : Nat) :
    s.elapsed lastSync = (((s.clk : Int) - lastSync) % 2 ^ s.params.clkBits).toNat := by
  unfold State.elapsed
  have hp : (0 : Int) < 2 ^ s.params.clkBits := by positivity
  have hc : ((2 ^ s.params.clkBits : Nat) : Int) = 2 ^ s.params.clkBits := by push_cast; rfl
  have hle : lastSync % 2 ^ s.params.clkBits ≤ 2 ^ s.params.clkBits := (Nat.mod_lt _ (Nat.two_pow_pos _)).le
  have h : (((s.clk + (2 ^ s.params.clkBits - lastSync % 2 ^ s.params.clkBits)) % 2 ^ s.params.clkBits : Nat) : Int) =
      ((s.clk : Int) - lastSync) % 2 ^ s.params.clkBits := by
    push_cast [Nat.cast_sub hle]
    rw [show (s.clk : Int) + (2 ^ s.params.clkBits - lastSync % 2 ^ s.params.clkBits) =
      s.clk - lastSync % 2 ^ s.params.clkBits + 2 ^ s.params.clkBits by ring, Int.add_emod_right, Int.sub_emod,
      Int.emod_emod_of_dvd _ (dvd_refl _), ← Int.sub_emod]
  rw [← h]
  rfl

/-! ## The loop -/

/-- The state in which the next device of the list is asked. -/
def afterReply (s : State) (e : SchedEntry) (l : List SchedEntry) : State :=
  (s.tell (.catchUp e.device (s.elapsed e.lastSync))).raiseLines (replyOf s (e :: l) 0).raised

theorem replyOf_cons (s : State) (e : SchedEntry) (l : List SchedEntry) (i : Nat) :
    replyOf (afterReply s e l) l i = replyOf s (e :: l) (i + 1) := by
  unfold replyOf askedOf
  show Config.catchUp _ = Config.catchUp _
  simp [afterReply, State.tell, State.raiseLines, State.elapsed]

/-- The first negative distance is the fault; with none, what the pass has done. -/
theorem syncDevices_spec (l : List SchedEntry) : ∀ s : State,
    (∀ i e, l[i]? = some e → (replyOf s l i).next < 0 → (∀ j, j < i → 0 ≤ (replyOf s l j).next) →
      syncDevices l s = .error (.negativeNextEvent e.device)) ∧
    ((∀ i, i < l.length → 0 ≤ (replyOf s l i).next) → ∃ done t fc, syncDevices l s = .ok (done, t, fc) ∧
      t = { s with iStat := t.iStat, portLog := (askedOf s l).reverse ++ s.portLog } ∧
      done.length = l.length ∧
      (∀ i e, l[i]? = some e → done[i]? = some (SchedEntry.mk e.device s.clk (replyOf s l i).next)) ∧
      (∀ k, t.iStat.getLsbD k = true ↔ s.iStat.getLsbD k = true ∨
        k < s.params.nIrq ∧ ∃ i, i < l.length ∧ (replyOf s l i).raised.getLsbD k = true) ∧
      (fc = true ↔ ∃ i e, l[i]? = some e ∧ e.device = .gpu ∧ (replyOf s l i).frameComplete = true)) := by
  induction l with
  | nil =>
    refine fun s => ⟨fun i e h => by simp at h, fun _ => ⟨[], s, false, rfl, rfl, rfl, fun i e h => by simp at h, ?_, ?_⟩⟩
    · simp
    · simp
  | cons e l ih =>
    intro s
    have hs : syncDevices (e :: l) s = if (replyOf s (e :: l) 0).next < 0 then .error (.negativeNextEvent e.device)
        else match syncDevices l (afterReply s e l) with
          | .error f => .error f
          | .ok (done, s', fc) => .ok (SchedEntry.mk e.device s.clk (replyOf s (e :: l) 0).next :: done, s',
              (e.device == .gpu && (replyOf s (e :: l) 0).frameComplete) || fc) := rfl
    obtain ⟨ih1, ih2⟩ := ih (afterReply s e l)
    refine ⟨fun i x hx hlt hge => ?_, fun hge => ?_⟩
    · cases i with
      | zero =>
        simp only [List.getElem?_cons_zero, Option.some.injEq] at hx
        subst hx
        rw [hs, if_pos hlt]
      | succ i =>
        have h0 := hge 0 (by omega)
        rw [hs, if_neg (by omega), ih1 i x (by simpa using hx) (by rw [replyOf_cons]; exact hlt) fun j hj => by
          rw [replyOf_cons]; exact hge (j + 1) (by omega)]
    · have h0 := hge 0 (by simp)
      obtain ⟨done, t, fc, h1, h2, h3, h4, h5, h6⟩ := ih2 fun i hi => by
        rw [replyOf_cons]; exact hge (i + 1) (by simpa using hi)
      rw [hs, if_neg (by omega), h1]
      refine ⟨_, _, _, rfl, ?_, by simp [h3], fun i x hx => ?_, fun k => ?_, ?_⟩
      · rw [h2]
        simp [askedOf, afterReply, State.tell, State.raiseLines, State.elapsed]
      · cases i with
        | zero =>
          simp only [List.getElem?_cons_zero, Option.some.injEq] at hx
          subst hx
          rfl
        | succ i =>
          have := h4 i x (by simpa using hx)
          rw [replyOf_cons] at this
          exact this
      · rw [h5 k]
        have hi : (afterReply s e l).iStat.getLsbD k = true ↔
            s.iStat.getLsbD k = true ∨ k < s.params.nIrq ∧ (replyOf s (e :: l) 0).raised.getLsbD k = true := by
          unfold afterReply
          rw [raiseLines_iStat, BitVec.getLsbD_or, BitVec.getLsbD_and, getLsbD_lineMask]
          simp only [tell_iStat, tell_params, Bool.or_eq_true, Bool.and_eq_true, decide_eq_true_eq]
          constructor
          · rintro (h | ⟨h, _, h'⟩)
            · exact .inl h
            · exact .inr ⟨of_decide_eq_true h', h⟩
          · rintro (h | ⟨h, h'⟩)
            · exact .inl h
            · exact .inr ⟨h', BitVec.lt_of_getLsbD h', decide_eq_true h⟩
        rw [hi]
        simp only [replyOf_cons]
        constructor
        · rintro ((h | ⟨h, h'⟩) | ⟨h, i, hi, h'⟩)
          · exact .inl h
          · exact .inr ⟨h, 0, by simp, h'⟩
          · exact .inr ⟨h, i + 1, by simpa using hi, h'⟩
        · rintro (h | ⟨h, i, hi, h'⟩)
          · exact .inl (.inl h)
          · cases i with
            | zero => exact .inl (.inr ⟨h, h'⟩)
            | succ i => exact .inr ⟨h, i, by simpa using hi, h'⟩
      · simp only [Bool.or_eq_true, Bool.and_eq_true, beq_iff_eq, h6, replyOf_cons]
        constructor
        · rintro (⟨h, h'⟩ | ⟨i, x, hx, hg, h'⟩)
          · exact ⟨0, e, rfl, h, h'⟩
          · exact ⟨i + 1, x, by simpa using hx, hg, h'⟩
        · rintro ⟨i, x, hx, hg, h'⟩
          cases i with
          | zero =>
            simp only [List.getElem?_cons_zero, Option.some.injEq] at hx
            subst hx
            exact .inl ⟨hg, h'⟩
          | succ i => exact .inr ⟨i, x, by simpa using hx, hg, h'⟩

/-- The pass has one of two ends: the fault of the first negative distance, or all of them natural. -/
theorem syncDevices_ends (l : List SchedEntry) (s : State) :
    (∃ i e, l[i]? = some e ∧ (replyOf s l i).next < 0 ∧ ∀ j, j < i → 0 ≤ (replyOf s l j).next) ∨
      ∀ i, i < l.length → 0 ≤ (replyOf s l i).next := by
  by_cases h : ∃ i, i < l.length ∧ (replyOf s l i).next < 0
  · obtain ⟨h1, h2⟩ := Nat.find_spec h
    refine .inl ⟨Nat.find h, l[Nat.find h], List.getElem?_eq_getElem h1, h2, fun j hj => ?_⟩
    by_contra hn
    exact Nat.find_min h hj ⟨by omega, by omega⟩
  · exact .inr fun i hi => by
      by_contra hn
      exact h ⟨i, hi, by omega⟩

end Sys2Proof.Machine
end

