-- ==== Sys2Proof/Laws/Step.lean ====
section
/-! SUPPORT. What stands around the instruction: when a state can run (spec/10_state.md R27,
spec/70_reset_and_hazards.md R391), and how a step ends (spec/60_exceptions.md R354, R355, R360). -/

namespace Sys2Proof.Machine

/-! ## The states a step can run from -/

theorem isNegative_iff (i : Int) : isNegative i = true ↔ i < 0 := by
  cases i with
  | ofNat n => exact ⟨fun h => (by cases h), fun h => absurd h (Int.natCast_nonneg n).not_gt⟩
  | negSucc n => exact ⟨fun _ => Int.negSucc_lt_zero n, fun _ => rfl⟩

theorem violation_misaligned {s : State} (h : aligned4 s.pc = false ∨ aligned4 s.npc = false) :
    s.violation = some .misalignedPc := by
  unfold State.violation
  rcases h with h | h <;> rw [h] <;> simp

/-- Exactly a runnable state violates nothing. -/
theorem violation_eq_none (s : State) : s.violation = none ↔ Runnable s := by
  unfold State.violation
  by_cases h : (aligned4 s.pc && aligned4 s.npc) = true
  · rw [if_pos h, Option.map_eq_none_iff, List.find?_eq_none]
    rw [Bool.and_eq_true] at h
    constructor
    · intro hn
      refine ⟨h.1, h.2, fun e he => ?_⟩
      have := hn e he
      rw [isNegative_iff] at this
      omega
    · intro hr e he
      rw [isNegative_iff]
      have := hr.next_natural e he
      omega
  · rw [if_neg h]
    constructor
    · intro hn
      cases hn
    · intro hr
      exact absurd (by rw [hr.pc_aligned, hr.npc_aligned]; rfl) h

/-- With aligned addresses the violation is a negative distance, of a device that has one. -/
theorem violation_negative {s : State} (hp : aligned4 s.pc = true) (hn : aligned4 s.npc = true)
    (h : ∃ e ∈ s.sched, e.next < 0) :
    ∃ e ∈ s.sched, e.next < 0 ∧ s.violation = some (.negativeNextEvent e.device) := by
  have hf : (s.sched.find? fun e => isNegative e.next).isSome = true := by
    rw [List.find?_isSome]
    obtain ⟨e, he, hlt⟩ := h
    exact ⟨e, he, (isNegative_iff _).mpr hlt⟩
  obtain ⟨e, he⟩ := Option.isSome_iff_exists.mp hf
  have hp' : isNegative e.next = true := by simpa using List.find?_some he
  refine ⟨e, List.mem_of_find?_eq_some he, (isNegative_iff _).mp hp', ?_⟩
  unfold State.violation
  rw [hp, hn, he]
  rfl

theorem runnable_of_inv {s : State} (h : Inv s) : Runnable s :=
  ⟨h.pc_aligned, h.npc_aligned, h.next_natural⟩

/-- A step of a runnable state. -/
theorem step_of_runnable {s : State} (h : Runnable s) : step s =
    match instructionCycle (sampleInterrupt s) with
    | .next t => finishStep t
    | .fault f => .fault f
    | .refused r => .refused r := by
  have hv := (violation_eq_none s).mpr h
  unfold step
  split
  · next f hf => rw [hv] at hf; cases hf
  · rfl

theorem step_of_violation {s : State} {f : Fault} (h : s.violation = some f) : step s = .fault f := by
  unfold step
  rw [h]

/-! ## The end of a step -/

/-- What the end of a step leaves alone, and what of the invariant it sets up. -/
structure StepEnd (s t : State) : Prop where
  clk : t.clk = (s.clk + s.params.cyclesBase) % 2 ^ s.params.clkBits
  burst : t.burst < Config.quantum
  params : t.params = s.params
  bios : t.bios = s.bios
  devices : t.sched.map SchedEntry.device = s.sched.map SchedEntry.device
  inv : ExecInv s → ExecInv t

/-- A step ends in a next state or in the fault of a negative distance. -/
theorem finishStep_cases (s : State) :
    (∃ t, finishStep s = .next t ∧ StepEnd s t) ∨ ∃ d, finishStep s = .fault (.negativeNextEvent d) := by
  by_cases hq : Config.quantum ≤ (s.charge s.params.cyclesBase).burst
  · have hf : finishStep s = syncPass (s.charge s.params.cyclesBase) := if_pos hq
    generalize hu : s.charge s.params.cyclesBase = u at *
    obtain ⟨h1, h2⟩ := syncDevices_spec u.sched u
    rcases syncDevices_ends u.sched u with ⟨i, e, he, hlt, hge⟩ | hge
    · refine .inr ⟨e.device, ?_⟩
      rw [hf]
      unfold syncPass
      rw [h1 i e he hlt hge]
    · obtain ⟨done, t, fc, a1, a2, a3, a4, a5, _⟩ := h2 hge
      have hm : ∀ x ∈ done, x.lastSync = u.clk ∧ 0 ≤ x.next := by
        intro x hx
        obtain ⟨i, hi, rfl⟩ := List.getElem_of_mem hx
        have := a4 i u.sched[i] (List.getElem?_eq_getElem (by omega))
        rw [List.getElem?_eq_getElem hi, Option.some.injEq] at this
        rw [this]
        exact ⟨rfl, hge i (by omega)⟩
      have hd : done.map SchedEntry.device = u.sched.map SchedEntry.device := by
        apply List.ext_getElem (by simp [a3])
        intro i b1 b2
        have hi : i < u.sched.length := by simpa using b2
        have := a4 i u.sched[i] (List.getElem?_eq_getElem hi)
        rw [List.getElem?_eq_getElem (by omega), Option.some.injEq] at this
        simp only [List.getElem_map, this]
      refine .inl ⟨{ t with sched := done, burst := 0, frameDone := fc }, ?_, ?_, ?_, ?_, ?_, ?_, ?_⟩
      · rw [hf]
        unfold syncPass
        rw [a1]
      · rw [a2, ← hu]
        rfl
      · show (0 : Nat) < Config.quantum
        decide
      · rw [a2, ← hu]
        rfl
      · rw [a2, ← hu]
        rfl
      · rw [← hu] at hd
        exact hd
      · intro hs
        have hi : ExecInv u := hu ▸ hs.charge _
        have hw : t.iStat &&& u.lineMask = t.iStat := by
          apply BitVec.eq_of_getLsbD_eq
          intro k hk
          rw [BitVec.getLsbD_and, getLsbD_lineMask]
          cases hb : t.iStat.getLsbD k with
          | false => rfl
          | true =>
            have : k < u.params.nIrq := by
              rcases (a5 k).mp hb with h | ⟨h, _⟩
              · rw [← hi.stat_width, BitVec.getLsbD_and, getLsbD_lineMask] at h
                simp only [Bool.and_eq_true, decide_eq_true_eq] at h
                exact h.2.2
              · exact h
            simp [hk, this]
        rw [a2]
        exact { hi with
          stat_width := hw
          burst_width := Nat.two_pow_pos _
          sync_width := fun x hx => by
            rw [(hm x hx).1]
            exact hi.clk_width
          next_natural := fun x hx => (hm x hx).2 }
  · exact .inl ⟨{ s.charge s.params.cyclesBase with frameDone := false }, if_neg hq, rfl, Nat.lt_of_not_le hq, rfl, rfl,
      rfl, fun hs => { hs.charge s.params.cyclesBase with }⟩

end Sys2Proof.Machine
end

