-- ==== Sys2Proof/Laws/Windows.lean ====
section
/-! SUPPORT. A bus write to each window that is no storage, and one turn of the DMA loop, in the words of
Sys2Proof/Safety.lean: what it leaves, bit by bit. -/

namespace Sys2Proof.Machine

/-! ## Byte lanes -/

theorem isLaneRead_laneRead (o : Nat) (n : Width) (r : Word) : IsLaneRead o n r (laneRead n o r) :=
  getLsbD_laneRead n o r

theorem isLaneWrite_laneWrite (o : Nat) (n : Width) (old x : Word) : IsLaneWrite o n old x (laneWrite n o old x) := by
  intro k hk
  rw [getLsbD_laneWrite n o old x hk]
  exact ⟨fun h => if_pos h, fun h => if_neg h⟩

/-! ## Reads -/

/-- A read of the interrupt controller is the lanes of its register (R335, R336). -/
theorem intcRead_lanes {s : State} {o : Nat} {r : Word} (h : IntcRegIs s o r) (n : Width) :
    IsLaneRead o n r (intcRead s o n) := by
  have hr : ∀ l : IrqLines, (∀ k, r.getLsbD k = (decide (k < s.params.nIrq) && l.getLsbD k)) → l &&& s.lineMask = r := by
    intro l hl
    apply BitVec.eq_of_getLsbD_eq
    intro k hk
    rw [BitVec.getLsbD_and, getLsbD_lineMask, hl, Bool.and_comm, decide_eq_true hk, Bool.true_and]
  unfold intcRead
  rcases h with ⟨ho, h⟩ | ⟨ho, h⟩
  · rw [ho, hr _ h]
    exact isLaneRead_laneRead o n r
  · rw [ho, hr _ h]
    exact isLaneRead_laneRead o n r

/-- The places of a channel's registers in the map (R340). -/
theorem dmaReg_channel {nDma o : Nat} {c : Channel} (hc : c.val < nDma) :
    (o / 4 = 4 * c.val → dmaReg nDma o = .madr c) ∧ (o / 4 = 4 * c.val + 1 → dmaReg nDma o = .bcr c) ∧
      (o / 4 = 4 * c.val + 2 → dmaReg nDma o = .chcr c) ∧ (o / 4 = 4 * c.val + 3 → dmaReg nDma o = .unused) := by
  have h : ∀ j, o / 4 = 4 * c.val + j → j < 4 → ∃ h : o / 16 < Config.maxDma, o / 16 < nDma ∧
      (⟨o / 16, h⟩ : Channel) = c ∧ o / 4 % 4 = j := by
    intro j ho hj
    have h16 : o / 16 = c.val := by omega
    exact ⟨by rw [h16]; exact c.isLt, by rw [h16]; exact hc, Fin.ext h16, by omega⟩
  refine ⟨fun ho => ?_, fun ho => ?_, fun ho => ?_, fun ho => ?_⟩
  · obtain ⟨h1, h2, h3, h4⟩ := h 0 ho (by omega)
    unfold dmaReg
    rw [dif_pos h1, if_pos h2, h4, h3]
    rfl
  · obtain ⟨h1, h2, h3, h4⟩ := h 1 ho (by omega)
    unfold dmaReg
    rw [dif_pos h1, if_pos h2, h4, h3]
    rfl
  · obtain ⟨h1, h2, h3, h4⟩ := h 2 ho (by omega)
    unfold dmaReg
    rw [dif_pos h1, if_pos h2, h4, h3]
    rfl
  · obtain ⟨h1, h2, h3, h4⟩ := h 3 ho (by omega)
    unfold dmaReg
    rw [dif_pos h1, if_pos h2, h4]
    rfl

/-- The places after the channels'. -/
theorem dmaReg_control (nDma o : Nat) : (o / 4 = 0x1C → dmaReg nDma o = .dpcr) ∧
    (o / 4 = 0x1D → dmaReg nDma o = .dicr) ∧ (o / 4 = 0x1E ∨ o / 4 = 0x1F → dmaReg nDma o = .unused) := by
  have h : 0x1C ≤ o / 4 → ¬ o / 16 < Config.maxDma := by unfold Config.maxDma; omega
  refine ⟨fun ho => ?_, fun ho => ?_, fun ho => ?_⟩
  · unfold dmaReg
    rw [dif_neg (h (by omega)), ho]
    rfl
  · unfold dmaReg
    rw [dif_neg (h (by omega)), ho]
    rfl
  · unfold dmaReg
    rw [dif_neg (h (by omega))]
    rcases ho with ho | ho <;> rw [ho] <;> rfl

theorem dicrRefreshed_of_consistent {d : Word} (h : d.getLsbD 31 = dmaIrq d) : dicrRefreshed d = d := by
  apply BitVec.eq_of_getLsbD_eq
  intro i hi
  by_cases h31 : i < 31
  · exact getLsbD_dicrRefreshed h31
  · obtain rfl : i = 31 := by omega
    rw [bit31_dicrRefreshed, h]

/-- A read of the DMA block is the lanes of its register (R340, R336). -/
theorem dmaRead_lanes {s : State} {o : Nat} {r : Word} (hd : s.dicr.getLsbD 31 = dmaIrq s.dicr) (h : DmaRegIs s o r)
    (n : Width) : IsLaneRead o n r (dmaRead s o n).1 := by
  have hr : dmaRegValue s (dmaReg s.params.nDma o) = r := by
    rcases h with ⟨c, hc, h⟩ | ⟨ho, rfl⟩ | ⟨ho, rfl⟩ | ⟨ho, rfl⟩
    · rcases h with ⟨ho, rfl⟩ | ⟨ho, rfl⟩ | ⟨ho, rfl⟩ | ⟨ho, rfl⟩
      · rw [(dmaReg_channel hc).1 ho]; rfl
      · rw [(dmaReg_channel hc).2.1 ho]; rfl
      · rw [(dmaReg_channel hc).2.2.1 ho]; rfl
      · rw [(dmaReg_channel hc).2.2.2 ho]; rfl
    · rw [(dmaReg_control _ _).1 ho]; rfl
    · rw [(dmaReg_control _ _).2.1 ho]
      exact dicrRefreshed_of_consistent hd
    · rw [(dmaReg_control _ _).2.2 ho]; rfl
  unfold dmaRead
  rw [hr]
  exact isLaneRead_laneRead o n r

/-- The word a fetch gets from a window that is no storage. -/
theorem windowRead_windowWord {s : State} {k : WindowKind} {o : Nat} {w : Word} (h : WindowWord s k o w) :
    (windowRead s k o .word).1 = w ∧ (windowRead s k o .word).2 = s.afterRead k o .word := by
  have hx : ∀ {r a b : Word}, IsLaneRead o .word r a → IsLaneRead o .word r b → a = b := fun ha hb =>
    BitVec.eq_of_getLsbD_eq fun k _ => (ha k).trans (hb k).symm
  cases k with
  | ram => cases h
  | bios => cases h
  | intc =>
    obtain ⟨r, hr, hw⟩ := h
    exact ⟨hx (intcRead_lanes hr .word) hw, rfl⟩
  | dma =>
    obtain ⟨hd, r, hr, hw⟩ := h
    exact ⟨hx (dmaRead_lanes hd hr .word) hw, windowRead_state (fun _ => hd) o .word⟩
  | device d =>
    cases h
    exact ⟨rfl, rfl⟩

/-! ## Writes -/

/-- A store to a device window (R76, R353, R357). -/
theorem storeMem_device {u : State} {ea x : Word} {n : Width} {w : DevWindow} {o cost : Nat}
    (hm : misaligned ea n = false) (hi : u.params.iscDropsStores = true → u.isc = false)
    (hr : resolve u ea = some (.device w, o)) (hc : u.latency ea n true = cost) :
    DeviceTold w o cost u n x (storeMem ea n x u) := by
  refine ⟨truncTo n x, truncTo_toNat n x, fun hp => ?_, fun hp => ?_⟩
  · rw [storeMem_mapped hm hi hr (rearm_ok _ hp), hc]
    rfl
  · obtain ⟨f, hf⟩ := rearm_negative (s := u.tell (.devWrite w o n (truncTo n x))) _ hp
    obtain ⟨d, y, hd, hy, rfl⟩ := rearm_error _ hf
    refine ⟨d, y, hd, hy, ?_⟩
    have : windowWrite u (.device w) o n x = .error (.negativeNextEvent d) := hf
    unfold storeMem
    rw [memWrite_mapped hm hi hr, this]

/-- A store to the interrupt controller (R335, R336). -/
theorem storeMem_intc {u : State} {ea x : Word} {n : Width} {o cost : Nat} (hm : misaligned ea n = false)
    (hi : u.params.iscDropsStores = true → u.isc = false) (hr : resolve u ea = some (.intc, o))
    (hc : u.latency ea n true = cost) : IntcStored o cost u n x (storeMem ea n x u) := by
  refine ⟨_, storeMem_mapped hm hi hr rfl, ?_, fun ho => ?_, fun ho => ?_, fun ho k hk => ?_⟩
  · rw [hc]
    unfold intcWrite
    split <;> rfl
  · unfold intcWrite
    rw [ho]
    refine ⟨rfl, fun k _ hk => ?_⟩
    have hb : (u.iStat &&& (lanePlace n o x ||| ~~~laneMask n o)).getLsbD k = (u.iStat.getLsbD k &&
        (if 8 * (o % 4) ≤ k ∧ k < 8 * (o % 4) + 8 * n.bytes then x.getLsbD (k - 8 * (o % 4)) else true)) := by
      rw [BitVec.getLsbD_and, BitVec.getLsbD_or, BitVec.getLsbD_not, getLsbD_lanePlace n o x hk, getLsbD_laneMask n o hk]
      by_cases h : 8 * (o % 4) ≤ k ∧ k < 8 * (o % 4) + 8 * n.bytes
      · simp [h, hk]
      · simp only [h, hk, decide_true, decide_false, Bool.not_false, Bool.and_true, Bool.false_and, Bool.or_true,
          if_false]
    refine ⟨fun h => hb.trans (congrArg _ (if_pos h)),
      fun h => hb.trans ((congrArg _ (if_neg h)).trans (Bool.and_true _))⟩
  · unfold intcWrite
    rw [ho]
    refine ⟨rfl, fun k hn hk => ?_⟩
    have hb : (laneWrite n o u.iMask x &&& u.lineMask).getLsbD k = (laneWrite n o u.iMask x).getLsbD k := by
      rw [BitVec.getLsbD_and, getLsbD_lineMask, decide_eq_true hn, decide_eq_true hk, Bool.and_self, Bool.and_true]
    have hl := isLaneWrite_laneWrite o n u.iMask x k hk
    exact ⟨fun h => hb.trans (hl.1 h), fun h => hb.trans (hl.2 h)⟩
  · unfold intcWrite
    rcases ho with ho | ho <;> rw [ho]
    · exact ⟨fun h => (BitVec.getLsbD_and ..).trans (by rw [h, Bool.false_and]), fun h => h⟩
    · refine ⟨fun h => h, fun _ => (BitVec.getLsbD_and ..).trans ?_⟩
      rw [getLsbD_lineMask, decide_eq_false (p := k < u.params.nIrq) (by omega), Bool.and_false, Bool.and_false]

/-- A store to a place of the DMA block: the register's own write, then the closing `DmaRecompute()`. -/
theorem storeMem_dma {u : State} {ea x : Word} {n : Width} {o cost : Nat} (hm : misaligned ea n = false)
    (hi : u.params.iscDropsStores = true → u.isc = false) (hr : resolve u ea = some (.dma, o))
    (hc : u.latency ea n true = cost) :
    storeMem ea n x u = .next ((dmaRecompute (dmaRegWrite u o n x)).charge cost).advanced := by
  rw [storeMem_mapped hm hi hr rfl, hc]
  rfl

/-- A store to a register that only stores (R340). -/
theorem storeMem_dmaStored {u : State} {ea x : Word} {n : Width} {o cost : Nat} (hm : misaligned ea n = false)
    (hi : u.params.iscDropsStores = true → u.isc = false) (hr : resolve u ea = some (.dma, o))
    (hc : u.latency ea n true = cost) (hd : u.dicr.getLsbD 31 = dmaIrq u.dicr) :
    DmaStored o cost u n x (storeMem ea n x u) := by
  have hn : ∀ {v : State}, dmaRegWrite u o n x = v → v.dicr = u.dicr →
      storeMem ea n x u = .next (v.charge cost).advanced := by
    intro v hv hdv
    rw [storeMem_dma hm hi hr hc, hv, dmaRecompute_of_consistent (by rw [hdv]; exact hd)]
  refine ⟨fun c hlt => ⟨fun ho => ?_, fun ho => ?_, fun ho => ?_⟩, fun ho => ?_⟩
  · refine ⟨_, isLaneWrite_laneWrite o n _ x,
      hn (v := { u with dma := u.dma.set c { u.dma[c] with madr := laneWrite n o u.dma[c].madr x } }) ?_ rfl⟩
    unfold dmaRegWrite
    rw [(dmaReg_channel hlt).1 ho]
  · refine ⟨_, isLaneWrite_laneWrite o n _ x,
      hn (v := { u with dma := u.dma.set c { u.dma[c] with bcr := laneWrite n o u.dma[c].bcr x } }) ?_ rfl⟩
    unfold dmaRegWrite
    rw [(dmaReg_channel hlt).2.1 ho]
  · refine hn ?_ rfl
    unfold dmaRegWrite
    rw [(dmaReg_channel hlt).2.2.2 ho]
  · refine hn ?_ rfl
    unfold dmaRegWrite
    rw [(dmaReg_control _ _).2.2 ho]

theorem dmaLoop_consistent (fuel : Nat) : ∀ {s : State}, s.dicr.getLsbD 31 = dmaIrq s.dicr →
    (dmaLoop fuel s).dicr.getLsbD 31 = dmaIrq (dmaLoop fuel s).dicr := by
  induction fuel with
  | zero => exact fun h => h
  | succ n ih =>
    intro s h
    unfold dmaLoop
    split
    · exact h
    · exact ih (dicr_irq_dmaRecompute _)

theorem dmaService_consistent {s : State} (h : s.dicr.getLsbD 31 = dmaIrq s.dicr) :
    (dmaService s).dicr.getLsbD 31 = dmaIrq (dmaService s).dicr := dmaLoop_consistent _ h

/-- A store to a register that starts channels (R343). -/
theorem storeMem_dmaStarted {u : State} {ea x : Word} {n : Width} {o cost : Nat} (hm : misaligned ea n = false)
    (hi : u.params.iscDropsStores = true → u.isc = false) (hr : resolve u ea = some (.dma, o))
    (hc : u.latency ea n true = cost) (hd : u.dicr.getLsbD 31 = dmaIrq u.dicr) :
    DmaStarted o cost u n x (storeMem ea n x u) := by
  have hn : ∀ {v : State}, dmaRegWrite u o n x = dmaService v → v.dicr = u.dicr →
      storeMem ea n x u = .next ((dmaService v).charge cost).advanced := by
    intro v hv hdv
    rw [storeMem_dma hm hi hr hc, hv, dmaRecompute_of_consistent (dmaService_consistent (by rw [hdv]; exact hd))]
  refine ⟨fun c hlt ho => ?_, fun ho => ?_⟩
  · refine ⟨_, isLaneWrite_laneWrite o n _ x,
      hn (v := { u with dma := u.dma.set c { u.dma[c] with chcr := laneWrite n o u.dma[c].chcr x } }) ?_ rfl⟩
    unfold dmaRegWrite
    rw [(dmaReg_channel hlt).2.2.1 ho]
  · refine ⟨_, isLaneWrite_laneWrite o n _ x, hn (v := { u with dpcr := laneWrite n o u.dpcr x }) ?_ rfl⟩
    unfold dmaRegWrite
    rw [(dmaReg_control _ _).1 ho]

/-- The composite interrupt in the bits of DICR (R342). -/
theorem dmaIrq_iff (d : Word) : dmaIrq d = true ↔ DmaIrqBits d := by
  have hx : (d.extractLsb' 16 7 &&& d.extractLsb' 24 7 != 0) = true ↔
      ∃ c, c < 7 ∧ d.getLsbD (16 + c) = true ∧ d.getLsbD (24 + c) = true := by
    rw [bne_iff_ne]
    constructor
    · intro h
      by_contra hn
      apply h
      apply BitVec.eq_of_getLsbD_eq
      intro i hi
      rw [BitVec.getLsbD_and, BitVec.getLsbD_extractLsb', BitVec.getLsbD_extractLsb', decide_eq_true hi,
        Bool.true_and, Bool.true_and]
      simp only [BitVec.ofNat_eq_ofNat, BitVec.getLsbD_zero, Bool.and_eq_false_imp]
      intro h1
      by_contra h2
      exact hn ⟨i, hi, h1, by simpa using h2⟩
    · rintro ⟨c, hc, h1, h2⟩ h
      have := congrArg (fun v : BitVec 7 => v.getLsbD c) h
      simp [hc, h1, h2] at this
  unfold dmaIrq DmaIrqBits
  rw [Bool.or_eq_true, Bool.and_eq_true, hx]

/-- Bit 31 after `DmaRecompute()` (R342). -/
theorem bit31_dmaRecompute (s : State) :
    (dmaRecompute s).dicr.getLsbD 31 = true ↔ DmaIrqBits (dmaRecompute s).dicr := by
  rw [dicr_irq_dmaRecompute, dmaIrq_iff]

/-- Line 3 after `DmaRecompute()`, in terms of bit 31 before and after (R348). -/
theorem line_dmaRecompute (s : State) (k : Nat) : (dmaRecompute s).iStat.getLsbD k = true ↔
    s.iStat.getLsbD k = true ∨
      k = 3 ∧ 3 < s.params.nIrq ∧ (dmaRecompute s).dicr.getLsbD 31 = true ∧ s.dicr.getLsbD 31 = false := by
  rw [bit_dmaRecompute_iStat, dmaRecompute_dicr, bit31_dicrRefreshed]

/-- Bits of DICR other than 31 after the guest's write (R345). -/
theorem getLsbD_dicrWrite (n : Width) (o : Nat) (d x : Word) {k : Nat} (hk : k < 31) :
    (dicrWrite n o d x).getLsbD k = ((laneWrite n o d x).getLsbD k && dicrStored.getLsbD k ||
      d.getLsbD k && !(lanePlace n o x).getLsbD k && dicrFlags.getLsbD k) := by
  unfold dicrWrite
  have h31 : (0x80000000#32).getLsbD k = false := by interval_cases k <;> rfl
  simp only [BitVec.getLsbD_or, BitVec.getLsbD_and, BitVec.getLsbD_not, h31, Bool.and_false, Bool.or_false,
    show k < 32 by omega, decide_true, Bool.true_and]

/-- A store to DICR (R341, R342, R345, R348). -/
theorem storeMem_dicr {u : State} {ea x : Word} {n : Width} {o cost : Nat} (hm : misaligned ea n = false)
    (hi : u.params.iscDropsStores = true → u.isc = false) (hr : resolve u ea = some (.dma, o))
    (hc : u.latency ea n true = cost) (ho : o / 4 = 0x1D) : DicrStored o cost u n x (storeMem ea n x u) := by
  have hw : dmaRegWrite u o n x = { u with dicr := dicrWrite n o u.dicr x } := by
    unfold dmaRegWrite
    rw [(dmaReg_control _ _).2.1 ho]
  have hbit : ∀ {k}, k < 31 → (dmaRecompute { u with dicr := dicrWrite n o u.dicr x }).dicr.getLsbD k =
      (dicrWrite n o u.dicr x).getLsbD k := fun hk => getLsbD_dicrRefreshed hk
  refine ⟨_, storeMem_dma hm hi hr hc, ?_, fun k hk => ?_, fun k h1 h2 => ?_, fun k h1 h2 => ?_, ?_, fun k => ?_⟩ <;>
    rw [hw]
  · rfl
  · have hlt : k < 31 := by omega
    have hs : dicrStored.getLsbD k = true := by
      rcases hk with h | h | h
      · interval_cases k <;> rfl
      · subst h; rfl
      · obtain ⟨h1, h2⟩ := h
        interval_cases k <;> rfl
    have hf : dicrFlags.getLsbD k = false := by
      rcases hk with h | h | h
      · interval_cases k <;> rfl
      · subst h; rfl
      · obtain ⟨h1, h2⟩ := h
        interval_cases k <;> rfl
    have hb : (dicrWrite n o u.dicr x).getLsbD k = (laneWrite n o u.dicr x).getLsbD k := by
      rw [getLsbD_dicrWrite n o _ _ hlt, hs, hf, Bool.and_true, Bool.and_false, Bool.or_false]
    have hl := isLaneWrite_laneWrite o n u.dicr x k (by omega)
    exact ⟨fun h => (hbit hlt).trans (hb.trans (hl.1 h)), fun h => (hbit hlt).trans (hb.trans (hl.2 h))⟩
  · refine (hbit (by omega)).trans ?_
    rw [getLsbD_dicrWrite n o _ _ (by omega)]
    have hs : dicrStored.getLsbD k = false := by interval_cases k <;> rfl
    have hf : dicrFlags.getLsbD k = false := by interval_cases k <;> rfl
    rw [hs, hf, Bool.and_false, Bool.and_false, Bool.or_false]
  · have hs : dicrStored.getLsbD k = false := by interval_cases k <;> rfl
    have hf : dicrFlags.getLsbD k = true := by interval_cases k <;> rfl
    have hb : (dicrWrite n o u.dicr x).getLsbD k = (u.dicr.getLsbD k && !(lanePlace n o x).getLsbD k) := by
      rw [getLsbD_dicrWrite n o _ _ h2, hs, hf, Bool.and_false, Bool.and_true, Bool.false_or]
    have hp := getLsbD_lanePlace n o x (k := k) (by omega)
    refine ⟨fun h => (hbit h2).trans (hb.trans ?_), fun h => (hbit h2).trans (hb.trans ?_)⟩
    · rw [hp, decide_eq_true (p := 8 * (o % 4) ≤ k ∧ k < 8 * (o % 4) + 8 * n.bytes) h, Bool.true_and]
    · rw [hp, decide_eq_false (p := 8 * (o % 4) ≤ k ∧ k < 8 * (o % 4) + 8 * n.bytes) h, Bool.false_and, Bool.not_false,
        Bool.and_true]
  · exact bit31_dmaRecompute _
  · refine (line_dmaRecompute _ k).trans ?_
    have h31 : (dicrWrite n o u.dicr x).getLsbD 31 = u.dicr.getLsbD 31 := by
      unfold dicrWrite dicrStored dicrFlags
      simp
    rw [h31]
    rfl

/-! ## One turn of the DMA loop (R343, R344) -/

/-- `ready(c)` in the bits of CHCR and DPCR (R343). -/
theorem dmaReady_iff (s : State) (c : Channel) : dmaReady s c = true ↔ ChannelReady s c := by
  have hx : (s.dma[c].chcr.extractLsb' 9 2 != 0) = true ↔
      s.dma[c].chcr.getLsbD 9 = true ∨ s.dma[c].chcr.getLsbD 10 = true := by
    generalize s.dma[c].chcr = v
    have h0 : (v.extractLsb' 9 2).getLsbD 0 = v.getLsbD 9 := by simp
    have h1 : (v.extractLsb' 9 2).getLsbD 1 = v.getLsbD 10 := by simp
    rw [← h0, ← h1]
    generalize v.extractLsb' 9 2 = w
    revert w
    decide
  unfold dmaReady ChannelReady
  simp only [Bool.and_eq_true, Bool.or_eq_true, decide_eq_true_eq, hx]
  tauto

/-- `DmaComplete(c)` in one piece (R344). -/
theorem dmaComplete_eq (u : State) (c : Channel) : dmaComplete u c = dmaRecompute { u with
    dicr := if u.dicr.getLsbD (16 + c.val) then u.dicr ||| (1#32 <<< (24 + c.val)) else u.dicr } := by
  unfold dmaComplete
  split <;> rfl

/-- The flag `DmaComplete(c)` sets, bit by bit. -/
theorem bit_setFlag (d : Word) (c : Channel) {k : Nat} (hk : k < 32) :
    (if d.getLsbD (16 + c.val) then d ||| (1#32 <<< (24 + c.val)) else d).getLsbD k =
      (d.getLsbD k || decide (k = 24 + c.val) && d.getLsbD (16 + c.val)) := by
  split
  · next h =>
    have hf : (1#32 <<< (24 + c.val)).getLsbD k = decide (k = 24 + c.val) := by
      have := c.isLt
      unfold Config.maxDma at this
      generalize c.val = j at *
      interval_cases j <;> interval_cases k <;> rfl
    rw [BitVec.getLsbD_or, hf, h, Bool.and_true]
  · next h =>
    have h : d.getLsbD (16 + c.val) = false := by simpa using h
    rw [h, Bool.and_false, Bool.or_false]

theorem dmaServe_served (s : State) (c : Channel) : Served s (dmaServe s c) c
    (Config.dmaRun (.dmaRun c s.dma[c].madr s.dma[c].bcr s.dma[c].chcr s.ram :: s.portLog)) := by
  have hd : (dmaServe s c).dma = (dmaRun s c).dma.set c
      { (dmaRun s c).dma[c] with chcr := (dmaRun s c).dma[c].chcr &&& 0xEEFFFFFF#32 } := by
    unfold dmaServe
    rw [dmaComplete_dma]
  have he : dmaServe s c = dmaRecompute { dmaRun s c with
      dma := (dmaServe s c).dma
      dicr := if s.dicr.getLsbD (16 + c.val) then s.dicr ||| (1#32 <<< (24 + c.val)) else s.dicr } := by
    rw [hd]
    exact dmaComplete_eq _ c
  have hc : (dmaServe s c).dma[c] = ⟨(Config.dmaRun (.dmaRun c s.dma[c].madr s.dma[c].bcr s.dma[c].chcr s.ram ::
      s.portLog)).madr, (Config.dmaRun (.dmaRun c s.dma[c].madr s.dma[c].bcr s.dma[c].chcr s.ram :: s.portLog)).bcr,
      s.dma[c].chcr &&& 0xEEFFFFFF#32⟩ := by
    rw [hd]
    unfold dmaRun
    simp [State.tell]
  refine ⟨?_, ?_, ?_, fun k => ?_, fun d hne => ?_, fun hw p => ?_, fun k hk => ?_, ?_, fun k => ?_⟩
  · rw [he]
    rfl
  · rw [hc]
  · rw [hc]
  · rw [hc]
    show (s.dma[c].chcr &&& 0xEEFFFFFF#32).getLsbD k = _
    rw [BitVec.getLsbD_and, Bool.and_comm]
    by_cases hk : k < 32
    · interval_cases k <;> rfl
    · rw [BitVec.getLsbD_of_ge _ _ (by omega), BitVec.getLsbD_of_ge (s.dma[c].chcr) _ (by omega), Bool.and_false,
        Bool.and_false]
  · have hne : (c : ℕ) ≠ (d : ℕ) := fun h' => hne (Fin.ext h'.symm)
    rw [hd]
    unfold dmaRun
    simp [hne]
  · rw [he]
    exact Memory.get_setAll _ p (Memory.wf_from hw)
  · rw [he, dmaRecompute_dicr, getLsbD_dicrRefreshed hk]
    exact bit_setFlag _ c (by omega)
  · rw [he]
    exact bit31_dmaRecompute _
  · rw [he]
    refine (line_dmaRecompute _ k).trans ?_
    have h31 : (if s.dicr.getLsbD (16 + c.val) then s.dicr ||| (1#32 <<< (24 + c.val)) else s.dicr).getLsbD 31 =
        s.dicr.getLsbD 31 := by
      have := c.isLt
      unfold Config.maxDma at this
      rw [bit_setFlag _ c (by omega), decide_eq_false (by omega), Bool.false_and, Bool.or_false]
    rw [h31]
    rfl

end Sys2Proof.Machine
end

