-- ==== Sys2Proof/Tests/Slice0.lean ====
section
/-! SUPPORT. The model's own tests. Words are written out bit by bit from the encodings of spec/30_encoding.md; the
expected values are rows of spec/95_test_vectors.md (table V-A to V-K) or worked by hand from the rule named. After
them, for every statement with hypotheses, concrete states and operands that meet them. -/

namespace Sys2Proof.Tests

open Machine

set_option maxRecDepth 20000

/-! ## Well-formedness: an ill-formed term for each branch of the check -/

theorem test_wf_rejects_special : (Instr.reserved 0x00000000#32).wf = false := by decide
theorem test_wf_rejects_regimm : (Instr.reserved 0x04110000#32).wf = false := by decide
theorem test_wf_rejects_cop0 : (Instr.reserved 0x42000010#32).wf = false := by decide
theorem test_wf_rejects_cop2 : (Instr.reserved 0x4A000000#32).wf = false := by decide
theorem test_wf_rejects_primary : (Instr.reserved 0x8C220004#32).wf = false := by decide
theorem test_wf_accepts_reserved :
    (Instr.reserved 0xFC000000#32).wf = true ∧ (Instr.reserved 0x0000000F#32).wf = true ∧
    (Instr.reserved 0x04020000#32).wf = true ∧ (Instr.reserved 0x42000001#32).wf = true ∧
    (Instr.reserved 0x48200000#32).wf = true ∧ (Instr.sll 0 0 0).wf = true := by decide

/-! ## Decoding: one word of every constructor, written from R113 to R116 -/

theorem test_decode_shifts :
    decodeWord 0b000000_00000_00010_00011_00100_000000#32 = .sll 3 2 4 ∧
    decodeWord 0b000000_00000_00010_00011_00100_000010#32 = .srl 3 2 4 ∧
    decodeWord 0b000000_00000_00010_00011_00100_000011#32 = .sra 3 2 4 ∧
    decodeWord 0b000000_00001_00010_00011_00000_000100#32 = .sllv 3 2 1 ∧
    decodeWord 0b000000_00001_00010_00011_00000_000110#32 = .srlv 3 2 1 ∧
    decodeWord 0b000000_00001_00010_00011_00000_000111#32 = .srav 3 2 1 := by decide

theorem test_decode_register_alu :
    decodeWord 0b000000_00001_00010_00011_00000_100000#32 = .add 3 1 2 ∧
    decodeWord 0b000000_00001_00010_00011_00000_100001#32 = .addu 3 1 2 ∧
    decodeWord 0b000000_00001_00010_00011_00000_100010#32 = .sub 3 1 2 ∧
    decodeWord 0b000000_00001_00010_00011_00000_100011#32 = .subu 3 1 2 ∧
    decodeWord 0b000000_00001_00010_00011_00000_100100#32 = .and 3 1 2 ∧
    decodeWord 0b000000_00001_00010_00011_00000_100101#32 = .or 3 1 2 ∧
    decodeWord 0b000000_00001_00010_00011_00000_100110#32 = .xor 3 1 2 ∧
    decodeWord 0b000000_00001_00010_00011_00000_100111#32 = .nor 3 1 2 ∧
    decodeWord 0b000000_00001_00010_00011_00000_101010#32 = .slt 3 1 2 ∧
    decodeWord 0b000000_00001_00010_00011_00000_101011#32 = .sltu 3 1 2 := by decide

theorem test_decode_immediate_alu :
    decodeWord 0b001000_00001_00010_1000000000000001#32 = .addi 2 1 0x8001#16 ∧
    decodeWord 0b001001_00001_00010_1000000000000001#32 = .addiu 2 1 0x8001#16 ∧
    decodeWord 0b001010_00001_00010_1000000000000001#32 = .slti 2 1 0x8001#16 ∧
    decodeWord 0b001011_00001_00010_1000000000000001#32 = .sltiu 2 1 0x8001#16 ∧
    decodeWord 0b001100_00001_00010_1000000000000001#32 = .andi 2 1 0x8001#16 ∧
    decodeWord 0b001101_00001_00010_1000000000000001#32 = .ori 2 1 0x8001#16 ∧
    decodeWord 0b001110_00001_00010_1000000000000001#32 = .xori 2 1 0x8001#16 ∧
    decodeWord 0b001111_00000_00010_1000000000000001#32 = .lui 2 0x8001#16 := by decide

theorem test_decode_muldiv :
    decodeWord 0b000000_00001_00010_00000_00000_011000#32 = .mult 1 2 ∧
    decodeWord 0b000000_00001_00010_00000_00000_011001#32 = .multu 1 2 ∧
    decodeWord 0b000000_00001_00010_00000_00000_011010#32 = .div 1 2 ∧
    decodeWord 0b000000_00001_00010_00000_00000_011011#32 = .divu 1 2 ∧
    decodeWord 0b000000_00000_00000_00011_00000_010000#32 = .mfhi 3 ∧
    decodeWord 0b000000_00001_00000_00000_00000_010001#32 = .mthi 1 ∧
    decodeWord 0b000000_00000_00000_00011_00000_010010#32 = .mflo 3 ∧
    decodeWord 0b000000_00001_00000_00000_00000_010011#32 = .mtlo 1 := by decide

theorem test_decode_branches :
    decodeWord 0b000100_00001_00010_1111111111111110#32 = .beq 1 2 0xFFFE#16 ∧
    decodeWord 0b000101_00001_00010_1111111111111110#32 = .bne 1 2 0xFFFE#16 ∧
    decodeWord 0b000110_00001_00000_1111111111111110#32 = .blez 1 0xFFFE#16 ∧
    decodeWord 0b000111_00001_00000_1111111111111110#32 = .bgtz 1 0xFFFE#16 ∧
    decodeWord 0b000001_00001_00000_1111111111111110#32 = .bltz 1 0xFFFE#16 ∧
    decodeWord 0b000001_00001_00001_1111111111111110#32 = .bgez 1 0xFFFE#16 ∧
    decodeWord 0b000001_00001_10000_1111111111111110#32 = .bltzal 1 0xFFFE#16 ∧
    decodeWord 0b000001_00001_10001_1111111111111110#32 = .bgezal 1 0xFFFE#16 := by decide

theorem test_decode_jumps :
    decodeWord 0b000010_10000000000000000000000001#32 = .j 0x2000001#26 ∧
    decodeWord 0b000011_10000000000000000000000001#32 = .jal 0x2000001#26 ∧
    decodeWord 0b000000_00010_00000_00000_00000_001000#32 = .jr 2 ∧
    decodeWord 0b000000_00010_00000_11111_00000_001001#32 = .jalr 31 2 := by decide

theorem test_decode_loads :
    decodeWord 0b100000_00001_00010_1111111111111100#32 = .lb 2 1 0xFFFC#16 ∧
    decodeWord 0b100001_00001_00010_1111111111111100#32 = .lh 2 1 0xFFFC#16 ∧
    decodeWord 0b100010_00001_00010_1111111111111100#32 = .lwl 2 1 0xFFFC#16 ∧
    decodeWord 0b100011_00001_00010_1111111111111100#32 = .lw 2 1 0xFFFC#16 ∧
    decodeWord 0b100100_00001_00010_1111111111111100#32 = .lbu 2 1 0xFFFC#16 ∧
    decodeWord 0b100101_00001_00010_1111111111111100#32 = .lhu 2 1 0xFFFC#16 ∧
    decodeWord 0b100110_00001_00010_1111111111111100#32 = .lwr 2 1 0xFFFC#16 := by decide

theorem test_decode_stores :
    decodeWord 0b101000_00001_00010_1111111111111100#32 = .sb 2 1 0xFFFC#16 ∧
    decodeWord 0b101001_00001_00010_1111111111111100#32 = .sh 2 1 0xFFFC#16 ∧
    decodeWord 0b101010_00001_00010_1111111111111100#32 = .swl 2 1 0xFFFC#16 ∧
    decodeWord 0b101011_00001_00010_1111111111111100#32 = .sw 2 1 0xFFFC#16 ∧
    decodeWord 0b101110_00001_00010_1111111111111100#32 = .swr 2 1 0xFFFC#16 := by decide

theorem test_decode_system :
    decodeWord 0b010000_00000_00010_01100_00000_000000#32 = .mfc0 2 12 ∧
    decodeWord 0b010000_00100_00010_01100_00000_000000#32 = .mtc0 2 12 ∧
    decodeWord 0b010000_10000_00000_00000_00000_010000#32 = .rfe ∧
    decodeWord 0b000000_00000_00000_00000_00000_001100#32 = .syscall ∧
    decodeWord 0b000000_00000_00000_00000_00000_001101#32 = .breakpoint ∧
    decodeWord 0b010001_00000000000000000000000000#32 = .cop1 ∧
    decodeWord 0b010011_11111111111111111111111111#32 = .cop3 := by decide

theorem test_decode_cop2 :
    decodeWord 0b010010_00000_00010_11111_00000_000000#32 = .mfc2 2 31 ∧
    decodeWord 0b010010_00010_00010_11111_00000_000000#32 = .cfc2 2 31 ∧
    decodeWord 0b010010_00100_00010_11111_00000_000000#32 = .mtc2 2 31 ∧
    decodeWord 0b010010_00110_00010_11111_00000_000000#32 = .ctc2 2 31 ∧
    decodeWord 0b010010_10000110000000000000000001#32 = .cop2 0x0180001#25 ∧
    decodeWord 0b110010_00001_00011_0000000000001000#32 = .lwc2 3 1 0x0008#16 ∧
    decodeWord 0b111010_00001_00011_0000000000001000#32 = .swc2 3 1 0x0008#16 := by decide

/-- Reserved words of V-G, and fields an instruction ignores (R117). -/
theorem test_decode_reserved_and_ignored :
    decodeWord 0xFC000000#32 = .reserved 0xFC000000#32 ∧ decodeWord 0x0000000F#32 = .reserved 0x0000000F#32 ∧
    decodeWord 0x04020000#32 = .reserved 0x04020000#32 ∧ decodeWord 0x42000001#32 = .reserved 0x42000001#32 ∧
    decodeWord 0x41000000#32 = .reserved 0x41000000#32 ∧ decodeWord 0x44000000#32 = .cop1 ∧
    decodeWord 0x43FFFFD0#32 = .rfe ∧ decodeWord 0x0300F80C#32 = .syscall := by decide

theorem test_decode_bytes :
    decodeBytes [0x20#8, 0x18#8, 0x22#8, 0x00#8, 0xAA#8] = .ok (.add 3 1 2, [0xAA#8]) ∧
    decodeBytes [0x20#8, 0x18#8, 0x22#8] = .error .tooFewBytes := by decide

theorem test_decode_table_word : decodeTableWord 32 0x00221820 = some (.add 3 1 2) ∧
    decodeTableWord 40 0 = none := by decide

/-! ## One machine step from the start state of spec/95_test_vectors.md -/

/-- RAM bytes 0x100 to 0x107 of table V-E. -/
def bytesVE : Memory :=
  [(0x100, 0x80#8), (0x101, 0xFF#8), (0x102, 0x7F#8), (0x103, 0x01#8), (0x104, 0x11#8), (0x105, 0x22#8),
    (0x106, 0x33#8), (0x107, 0x44#8)]

/-- The state a single-instruction vector starts in. -/
def start : State := { State.reset with pc := 0x80001000#32, npc := 0x80001004#32, ram := bytesVE }

/-- Registers `x1` and `x2` set. -/
def start2 (x1 x2 : Word) : State := (start.writeReg 1 x1).writeReg 2 x2

/-- The state after one machine step that runs the word `w`. -/
def after (w : Nat) (s : State) : Option State :=
  match step (s.withFetchWord 32 w) with
  | .next t => some t
  | _ => none

/-- A register and `(PC, NPC)` after the step. -/
def regAfter (w : Nat) (s : State) (r : RegIdx) : Option (Word × Word × Word) :=
  (after w s).map fun t => (t.gpr r, t.pc, t.npc)

/-- HI and LO after the step. -/
def hiLoAfter (w : Nat) (s : State) : Option (Word × Word) := (after w s).map fun t => (t.hi, t.lo)

/-- CAUSE, EPC, BADVADDR and PC after the step. -/
def excAfter (w : Nat) (s : State) : Option (Word × Word × Word × Word) :=
  (after w s).map fun t => (t.readCause, t.epc, t.badvaddr, t.pc)

/-- The word at RAM offset 0x100 after the step. -/
def ramAfter (w : Nat) (s : State) : Option Word :=
  (after w s).map fun t => Memory.readLE t.ram Config.ramSize 0x100 .word

/-! ### V-A -/

theorem test_add : regAfter 0x00221820 (start2 0xFFFFFFFF#32 0x00000001#32) 3 =
    some (0x00000000#32, 0x80001004#32, 0x80001008#32) := by decide
theorem test_add_overflow : excAfter 0x00221820 (start2 0x7FFFFFFF#32 0x00000001#32) =
    some (0x00000030#32, 0x80001000#32, 0#32, 0xBFC00180#32) := by decide
theorem test_addu : regAfter 0x00221821 (start2 0x7FFFFFFF#32 0x00000001#32) 3 =
    some (0x80000000#32, 0x80001004#32, 0x80001008#32) := by decide
theorem test_sub_overflow : excAfter 0x00021822 (start2 0#32 0x80000000#32) =
    some (0x00000030#32, 0x80001000#32, 0#32, 0xBFC00180#32) := by decide
theorem test_sub_same_register : regAfter 0x00210822 (start2 0x12345678#32 0#32) 1 =
    some (0x00000000#32, 0x80001004#32, 0x80001008#32) := by decide
theorem test_subu : regAfter 0x00221823 (start2 0x80000000#32 0x00000001#32) 3 =
    some (0x7FFFFFFF#32, 0x80001004#32, 0x80001008#32) := by decide
theorem test_and : regAfter 0x00221824 (start2 0xFF00FF00#32 0x0FF00FF0#32) 3 =
    some (0x0F000F00#32, 0x80001004#32, 0x80001008#32) := by decide
theorem test_or : regAfter 0x00221825 (start2 0xFF00FF00#32 0x0FF00FF0#32) 3 =
    some (0xFFF0FFF0#32, 0x80001004#32, 0x80001008#32) := by decide
theorem test_xor : regAfter 0x00221826 (start2 0xFF00FF00#32 0x0FF00FF0#32) 3 =
    some (0xF0F0F0F0#32, 0x80001004#32, 0x80001008#32) := by decide
theorem test_nor : regAfter 0x00221827 (start2 0xFF00FF00#32 0x0FF00FF0#32) 3 =
    some (0x000F000F#32, 0x80001004#32, 0x80001008#32) := by decide
theorem test_or_to_register_zero : regAfter 0x00220025 (start2 0xFFFFFFFF#32 0x00000001#32) 0 =
    some (0x00000000#32, 0x80001004#32, 0x80001008#32) := by decide
theorem test_slt : regAfter 0x0022182A (start2 0x80000000#32 0x7FFFFFFF#32) 3 =
    some (0x00000001#32, 0x80001004#32, 0x80001008#32) := by decide
theorem test_sltu : regAfter 0x0022182B (start2 0x80000000#32 0x7FFFFFFF#32) 3 =
    some (0x00000000#32, 0x80001004#32, 0x80001008#32) := by decide
theorem test_sll : regAfter 0x00021FC0 (start2 0#32 0x00000003#32) 3 =
    some (0x80000000#32, 0x80001004#32, 0x80001008#32) := by decide
theorem test_srl : regAfter 0x00021902 (start2 0#32 0xF0000000#32) 3 =
    some (0x0F000000#32, 0x80001004#32, 0x80001008#32) := by decide
theorem test_sra : regAfter 0x00021903 (start2 0#32 0xF0000000#32) 3 =
    some (0xFF000000#32, 0x80001004#32, 0x80001008#32) := by decide
theorem test_sllv_takes_five_bits : regAfter 0x00221804 (start2 0x00000021#32 0xDEADBEEF#32) 3 =
    some (0xBD5B7DDE#32, 0x80001004#32, 0x80001008#32) := by decide
theorem test_srlv_takes_five_bits : regAfter 0x00221806 (start2 0xFFFFFFFF#32 0x80000000#32) 3 =
    some (0x00000001#32, 0x80001004#32, 0x80001008#32) := by decide
theorem test_srav_takes_five_bits : regAfter 0x00221807 (start2 0xFFFFFFE1#32 0x80000000#32) 3 =
    some (0xC0000000#32, 0x80001004#32, 0x80001008#32) := by decide

/-! ### V-B -/

theorem test_addi : regAfter 0x20228000 (start2 0x00008000#32 0#32) 2 =
    some (0x00000000#32, 0x80001004#32, 0x80001008#32) := by decide
theorem test_addi_overflow : excAfter 0x2022FFFF (start2 0x80000000#32 0x00000055#32) =
    some (0x00000030#32, 0x80001000#32, 0#32, 0xBFC00180#32) := by decide
theorem test_addiu : regAfter 0x24220001 (start2 0x7FFFFFFF#32 0#32) 2 =
    some (0x80000000#32, 0x80001004#32, 0x80001008#32) := by decide
theorem test_slti : regAfter 0x2822FFFF (start2 0xFFFFFFFE#32 0#32) 2 =
    some (0x00000001#32, 0x80001004#32, 0x80001008#32) := by decide
theorem test_sltiu_sign_extends : regAfter 0x2C228000 (start2 0x00008000#32 0#32) 2 =
    some (0x00000001#32, 0x80001004#32, 0x80001008#32) := by decide
theorem test_andi : regAfter 0x30228000 (start2 0xFFFFFFFF#32 0#32) 2 =
    some (0x00008000#32, 0x80001004#32, 0x80001008#32) := by decide
theorem test_ori : regAfter 0x3422FFFF (start2 0x12340000#32 0#32) 2 =
    some (0x1234FFFF#32, 0x80001004#32, 0x80001008#32) := by decide
theorem test_xori : regAfter 0x3822FFFF (start2 0xFFFFFFFF#32 0#32) 2 =
    some (0xFFFF0000#32, 0x80001004#32, 0x80001008#32) := by decide
theorem test_lui : regAfter 0x3C011234 (start2 0xFFFFFFFF#32 0#32) 1 =
    some (0x12340000#32, 0x80001004#32, 0x80001008#32) := by decide

/-! ### V-C -/

theorem test_mult : hiLoAfter 0x00220018 (start2 0xFFFFFFFF#32 0x00000001#32) = some (0xFFFFFFFF#32, 0xFFFFFFFF#32) := by decide
theorem test_multu : hiLoAfter 0x00220019 (start2 0xFFFFFFFF#32 0xFFFFFFFF#32) = some (0xFFFFFFFE#32, 0x00000001#32) := by decide
theorem test_div : hiLoAfter 0x0022001A (start2 0xFFFFFFF9#32 0x00000002#32) = some (0xFFFFFFFF#32, 0xFFFFFFFD#32) := by decide
theorem test_div_corner : hiLoAfter 0x0022001A (start2 0x80000000#32 0xFFFFFFFF#32) = some (0x00000000#32, 0x80000000#32) := by decide
theorem test_divu : hiLoAfter 0x0022001B (start2 0xFFFFFFFF#32 0x00000002#32) = some (0x00000001#32, 0x7FFFFFFF#32) := by decide
theorem test_divu_by_zero : hiLoAfter 0x0022001B (start2 0x00000005#32 0#32) = some (0x00000005#32, 0xFFFFFFFF#32) := by decide
theorem test_mfhi : regAfter 0x00001810 { start with hi := 0xCAFEBABE#32, lo := 0x11111111#32 } 3 =
    some (0xCAFEBABE#32, 0x80001004#32, 0x80001008#32) := by decide
theorem test_mflo : regAfter 0x00001812 { start with hi := 0xCAFEBABE#32, lo := 0x11111111#32 } 3 =
    some (0x11111111#32, 0x80001004#32, 0x80001008#32) := by decide
theorem test_mthi : hiLoAfter 0x00200011 { start2 0xA5A5A5A5#32 0 with lo := 0x11111111#32 } = some (0xA5A5A5A5#32, 0x11111111#32) := by decide
theorem test_mtlo : hiLoAfter 0x00200013 { start2 0xA5A5A5A5#32 0 with hi := 0x22222222#32 } = some (0x22222222#32, 0xA5A5A5A5#32) := by decide

/-! ### V-D -/

theorem test_beq_taken : regAfter 0x10220004 (start2 0x00000005#32 0x00000005#32) 1 =
    some (0x00000005#32, 0x80001004#32, 0x80001010#32) := by decide
theorem test_beq_base_npc : regAfter 0x1000FFFF { start with params := { Params.default with branchBase := .npc } } 0 =
    some (0#32, 0x80001004#32, 0x80001000#32) := by decide
theorem test_bne_not_taken : regAfter 0x14210004 (start2 0x00000005#32 0#32) 1 =
    some (0x00000005#32, 0x80001004#32, 0x80001008#32) := by decide
theorem test_blez : regAfter 0x18200003 (start2 0x80000000#32 0#32) 1 =
    some (0x80000000#32, 0x80001004#32, 0x8000100C#32) := by decide
theorem test_bgtz : regAfter 0x1C200003 (start2 0x00000000#32 0#32) 1 =
    some (0x00000000#32, 0x80001004#32, 0x80001008#32) := by decide
theorem test_bltz : regAfter 0x04200003 (start2 0x00000000#32 0#32) 1 =
    some (0x00000000#32, 0x80001004#32, 0x80001008#32) := by decide
theorem test_bgez : regAfter 0x04210003 (start2 0x00000000#32 0#32) 1 =
    some (0x00000000#32, 0x80001004#32, 0x8000100C#32) := by decide
theorem test_bltzal_links_not_taken : regAfter 0x04300003 (start2 0x00000000#32 0#32) 31 =
    some (0x80001008#32, 0x80001004#32, 0x80001008#32) := by decide
theorem test_bltzal_reads_before_link : regAfter 0x07F00003 (start.writeReg 31 0x80000000#32) 31 =
    some (0x80001008#32, 0x80001004#32, 0x8000100C#32) := by decide
theorem test_bgezal : regAfter 0x04118000 start 31 =
    some (0x80001008#32, 0x80001004#32, 0x7FFE1000#32) := by decide
theorem test_j : regAfter 0x0BFFFFFF start 0 =
    some (0x00000000#32, 0x80001004#32, 0x8FFFFFFC#32) := by decide
theorem test_jal : regAfter 0x0C000800 start 31 =
    some (0x80001008#32, 0x80001004#32, 0x80002000#32) := by decide
theorem test_jr : regAfter 0x00200008 (start2 0xBFC00000#32 0#32) 1 =
    some (0xBFC00000#32, 0x80001004#32, 0xBFC00000#32) := by decide
theorem test_jr_misaligned : excAfter 0x00200008 (start2 0x00000401#32 0) =
    some (0x00000010#32, 0x80001000#32, 0x00000401#32, 0xBFC00180#32) := by decide
theorem test_jalr_reads_before_link : regAfter 0x00401009 (start2 0#32 0x80003000#32) 2 =
    some (0x80001008#32, 0x80001004#32, 0x80003000#32) := by decide

/-! ### V-E -/

theorem test_lb : regAfter 0x80220001 (start2 0x80000100#32 0#32) 2 =
    some (0xFFFFFFFF#32, 0x80001004#32, 0x80001008#32) := by decide
theorem test_lbu : regAfter 0x90220001 (start2 0x80000100#32 0#32) 2 =
    some (0x000000FF#32, 0x80001004#32, 0x80001008#32) := by decide
theorem test_lh : regAfter 0x84220000 (start2 0x80000100#32 0#32) 2 =
    some (0xFFFFFF80#32, 0x80001004#32, 0x80001008#32) := by decide
theorem test_lhu : regAfter 0x94220000 (start2 0x80000100#32 0#32) 2 =
    some (0x0000FF80#32, 0x80001004#32, 0x80001008#32) := by decide
theorem test_lw_mirror : regAfter 0x8C220000 (start2 0xA0600100#32 0#32) 2 =
    some (0x017FFF80#32, 0x80001004#32, 0x80001008#32) := by decide
theorem test_lw_unmapped : excAfter 0x8C220000 (start2 0x00800000#32 0x00000055#32) =
    some (0x0000001C#32, 0x80001000#32, 0#32, 0xBFC00180#32) := by decide
theorem test_lwl : regAfter 0x88220001 (start2 0x80000100#32 0xAAAAAAAA#32) 2 =
    some (0xFF80AAAA#32, 0x80001004#32, 0x80001008#32) := by decide
theorem test_lwr : regAfter 0x98220001 (start2 0x80000100#32 0xAAAAAAAA#32) 2 =
    some (0xAA017FFF#32, 0x80001004#32, 0x80001008#32) := by decide

/-! ### V-F -/

theorem test_sb : ramAfter 0xA0220003 (start2 0x80000100#32 0x12345678#32) = some 0x787FFF80#32 := by decide
theorem test_sh : ramAfter 0xA4220002 (start2 0x80000100#32 0x12345678#32) = some 0x5678FF80#32 := by decide
theorem test_sw_mirror : ramAfter 0xAC220000 (start2 0x80200100#32 0x12345678#32) = some 0x12345678#32 := by decide
theorem test_sw_misaligned : excAfter 0xAC220003 (start2 0x80000100#32 0x12345678#32) =
    some (0x00000014#32, 0x80001000#32, 0x80000103#32, 0xBFC00180#32) := by decide
theorem test_swl : ramAfter 0xA8220001 (start2 0x80000100#32 0x12345678#32) = some 0x017F1234#32 := by decide
theorem test_swr : ramAfter 0xB8220001 (start2 0x80000100#32 0x12345678#32) = some 0x34567880#32 := by decide

/-! ### V-G -/

theorem test_syscall : (after 0x0000000C { start with sr := 0x00000401#32 }).map
    (fun t => (t.pc, t.sr, t.readCause, t.epc)) =
    some (0x80000080#32, 0x00000404#32, 0x00000020#32, 0x80001000#32) := by decide
theorem test_syscall_in_delay_slot : (after 0x0000000C
    { start with sr := 0x00000001#32, pc := 0x80001004#32, npc := 0x80001008#32, bds := true }).map
    (fun t => (t.pc, t.sr, t.readCause, t.epc)) =
    some (0x80000080#32, 0x00000004#32, 0x80000020#32, 0x80001000#32) := by decide
theorem test_break : (after 0x0000000D { start with sr := 0x0000002B#32 }).map
    (fun t => (t.pc, t.sr, t.readCause, t.epc)) =
    some (0x80000080#32, 0x0000002C#32, 0x00000024#32, 0x80001000#32) := by decide
theorem test_reserved : excAfter 0xFC000000 { start with sr := 0 } =
    some (0x00000028#32, 0x80001000#32, 0#32, 0x80000080#32) := by decide
theorem test_mfc0_sr : regAfter 0x40026000 start 2 = some (0x00400000#32, 0x80001004#32, 0x80001008#32) := by decide
theorem test_mfc0_unimplemented : excAfter 0x40020000 start =
    some (0x00000028#32, 0x80001000#32, 0#32, 0xBFC00180#32) := by decide
theorem test_mtc0_cause : (after 0x40816800 (start2 0xFFFFFFFF#32 0)).map State.readCause = some 0x00000300#32 := by
  decide
theorem test_mtc0_epc_is_ignored : (after 0x40817000 { start2 0x12345678#32 0 with epc := 0x80001234#32 }).map
    (fun t => (t.epc, t.pc)) = some (0x80001234#32, 0x80001004#32) := by decide
theorem test_rfe : (after 0x42000010 { start with sr := 0x0000040C#32 }).map State.sr = some 0x00000403#32 := by decide
theorem test_cop1 : regAfter 0x44000000 (start2 1 0) 1 = some (1#32, 0x80001004#32, 0x80001008#32) := by decide
theorem test_cop3 : regAfter 0x4FFFFFFF (start2 1 0) 1 = some (1#32, 0x80001004#32, 0x80001008#32) := by decide
theorem test_fetch_from_nowhere : excAfter 0
    { start with sr := 0, pc := 0xC0000000#32, npc := 0xC0000004#32 } =
    some (0x00000018#32, 0xC0000000#32, 0#32, 0x80000080#32) := by decide

/-! ### COP2 (R268 to R275): what the collaborator is told; its answers are free values -/

theorem test_mfc2 : (after 0x4802F800 start).map State.portLog = some [.cop2ReadData 31] := by decide
theorem test_cfc2 : (after 0x4842F800 start).map State.portLog = some [.cop2ReadCtrl 31] := by decide
theorem test_mtc2 : (after 0x4882F800 (start2 0 0xA5A5A5A5#32)).map State.portLog =
    some [.cop2WriteData 31 0xA5A5A5A5#32] := by decide
theorem test_ctc2 : (after 0x48C2F800 (start2 0 0xA5A5A5A5#32)).map State.portLog =
    some [.cop2WriteCtrl 31 0xA5A5A5A5#32] := by decide
theorem test_cop2 : (after 0x4A180001 start).map State.portLog = some [.cop2Command 0x0180001#25] := by decide
theorem test_lwc2 : (after 0xC8230004 (start2 0x80000100#32 0)).map State.portLog =
    some [.cop2WriteData 3 0x44332211#32] := by decide
theorem test_swc2_misaligned : (after 0xE8230001 (start2 0x80000100#32 0)).map (fun t => (t.badvaddr, t.portLog)) =
    some (0x80000101#32, []) := by decide
theorem test_swc2 : (after 0xE8230000 (start2 0x80000100#32 0)).map State.portLog =
    some [.cop2ReadData 3] := by decide

/-! ### V-H, V-I and V-J: the interrupt controller, interrupt sampling, the DMA block -/

theorem test_intc_acknowledge : (after 0xA0220001 { start2 0x1F801070#32 0x000000FD#32 with iStat := 0x705#32 }).map
    (fun t => (t.iStat, t.iMask)) = some (0x505#32, 0#32) := by decide
theorem test_interrupt_taken : (after 0x26940001 { start with
      sr := 0x00000401#32, iStat := 0x001#32, iMask := 0x001#32, bds := true, pc := 0x80001004#32 }).map
    (fun t => (t.gpr 20, t.pc, t.sr, t.readCause, t.epc)) =
    some (1#32, 0x80000084#32, 0x00000404#32, 0x80000400#32, 0x80001000#32) := by decide
theorem test_interrupt_not_enabled : (after 0x24630001 { start with
      sr := 0x00000201#32, cause := ⟨false, 0, 1, 0⟩ }).map (fun t => (t.gpr 3, t.pc, t.epc)) =
    some (1#32, 0x80001004#32, 0#32) := by decide
theorem test_dicr_force : (after 0xAC220000 (start2 0x1F8010F4#32 0x00008000#32)).map (fun t => (t.dicr, t.iStat)) =
    some (0x80008000#32, 0x008#32) := by decide
theorem test_dicr_acknowledge : (after 0xAC220000
      { start2 0x1F8010F4#32 0x04840000#32 with dicr := 0x84840000#32, iStat := 0x008#32 }).map
    (fun t => (t.dicr, t.iStat)) = some (0x00840000#32, 0x008#32) := by decide

/-! ### Reset and the fetch -/

theorem test_reset_pc : (State.reset.pc, State.reset.npc, State.reset.sr) =
    (0xBFC00000#32, 0xBFC00004#32, 0x00400000#32) := by decide
theorem test_reset_first_fetch : regAfter 0x3C011234 State.reset 1 =
    some (0x12340000#32, 0xBFC00004#32, 0xBFC00008#32) := by decide
theorem test_clock : (after 0 start).map (fun t => (t.clk, t.burst)) = some (1, 1) := by decide
theorem test_load_delay : (after 0x8C220004 { start2 0x80000100#32 0x55#32 with
      params := { Params.default with loadDelay := true } }).map (fun t => (t.gpr 2, t.readReg 2)) =
    some (0x44332211#32, 0x55#32) := by decide
/-- R46, R351: CLK and BURST are modulo `2^CLK_BITS`. -/
theorem test_clk_bits : (after 0 { start with
      clk := 15, burst := 15, params := { Params.default with clkBits := 4 } }).map (fun t => (t.clk, t.burst)) =
    some (0, 0) := by decide
/-- R91: LATENCY goes by the window and not by what serves it: two windows of RAM, a write to the second. -/
theorem test_latency_by_window : (after 0xAC220000 { start2 0xA1000000#32 7 with
      params := { Params.default with
        windows := Config.defaultWindows ++ [⟨.other 0, .ram, 0x01000000, 0x1000⟩]
        latency := [⟨.other 0, .word, true, 9⟩, ⟨.ram, .word, true, 2⟩] } }).map (fun t => (t.clk, t.ram.get 0)) =
    some (10, 7#8) := by decide
/-- R330, R335: a core with four lines stores four bits of `I_MASK` and reads no fifth. -/
theorem test_n_irq : (after 0xAC220000 { start2 0x1F801074#32 0xFF#32 with
      params := { Params.default with nIrq := 4 } }).map State.iMask = some 0xF#32 ∧
    regAfter 0x8C220000 { start2 0x1F801070#32 0 with
      iStat := 0x1F#32, params := { Params.default with nIrq := 4 } } 2 =
      some (0xF#32, 0x80001004#32, 0x80001008#32) := by decide
/-- R340: a core with three channels stores to the third and has no fourth. -/
theorem test_n_dma : (after 0xAC220000 { start2 0x1F8010A0#32 0xFF#32 with
      params := { Params.default with nDma := 3 } }).map (fun t => t.dma[2].madr) = some 0xFF#32 ∧
    (after 0xAC220000 { start2 0x1F8010B0#32 0xFF#32 with
      params := { Params.default with nDma := 3 } }).map (fun t => t.dma) = some start.dma := by decide
/-- R391: a negative distance is found by the restore and by the step. -/
theorem test_restore_negative :
    (let s := { start with sched := [⟨.gpu, 0, 5⟩, ⟨.cdrom, 0, -1⟩, ⟨.spu, 0, -2⟩] };
      restore s = .fault (.negativeNextEvent .cdrom) ∧ step s = .fault (.negativeNextEvent .cdrom)) := ⟨rfl, rfl⟩
theorem test_restore_misaligned :
    restore { start with pc := 0x80001001#32, sched := [⟨.gpu, 0, -1⟩] } = .fault .misalignedPc := rfl
theorem test_misaligned_pc : step { start with npc := 0x80001002#32 } = .fault .misalignedPc := by rfl

/-! ## Witnesses: for every statement with hypotheses, states and operands that meet them

`ctx` states are small variations of `start`; clauses are tried at the values where they meet. -/

/-- Does an outcome have a next state? -/
def isNext (o : Host.Outcome State Fault Refusal) : Bool :=
  match o with
  | .next _ => true
  | _ => false

theorem isNext_iff {o : Host.Outcome State Fault Refusal} (h : isNext o = true) : ∃ t, o = .next t := by
  cases o with
  | next t => exact ⟨t, rfl⟩
  | _ => cases h

/-- A state with other parameters. -/
def State.withParams (s : State) (p : Params) : State := { s with params := p }

/-- The canonical form and idleness of `start`: it meets the invariant. -/
theorem start_inv : Inv start where
  params_wf := by decide
  pc_aligned := by decide
  npc_aligned := by decide
  slot0 := by decide
  stale_ok := fun p hp => by cases hp
  ce_zero := by decide
  code_taken := by decide
  dicr_irq := by decide
  dicr_zero := by decide
  stat_width := by decide
  mask_width := by decide
  dma_width := by decide
  clk_width := by decide
  burst_width := by decide
  sync_width := by decide
  next_natural := by
    show ∀ e ∈ Config.defaultDevices.map fun d => SchedEntry.mk d 0 (Config.resetNext d), 0 ≤ e.next
    intro e he
    obtain ⟨d, _, rfl⟩ := List.mem_map.mp he
    exact Int.natCast_nonneg _
  dma_idle := by decide
  ram_wf := by decide
  bios_wf := by decide
  burst_short := by decide

theorem witness_DecodeOfEncode : (Instr.reserved 0xFC000000#32).wf = true ∧ (Instr.add 31 31 31).wf = true := by decide

/-- The words of LogicalInstructions to Jumps and of the later decode clauses: one for every opcode and function code
named there is in the decode tests above; here the fields of some of them. -/
theorem witness_decode_clauses :
    (opcodeOf 0x00221825#32 = 0x00#6 ∧ functOf 0x00221825#32 = 0x25#6) ∧
    (opcodeOf 0x04310003#32 = 0x01#6 ∧ rtOf 0x04310003#32 = 0x11) ∧
    (opcodeOf 0x40826000#32 = 0x10#6 ∧ rsOf 0x40826000#32 = 4) ∧
    (opcodeOf 0x42000010#32 = 0x10#6 ∧ 16 ≤ (rsOf 0x42000010#32).val ∧ functOf 0x42000010#32 = 0x10#6) ∧
    (opcodeOf 0x4A180001#32 = 0x12#6 ∧ 16 ≤ (rsOf 0x4A180001#32).val) ∧
    (opcodeOf 0xE8230008#32 = 0x3A#6) := by decide

/-- TrappingAddition: the largest sum that fits, the smallest that does not, on both sides, and traps off. -/
theorem witness_TrappingAddition :
    (start2 0x7FFFFFFF#32 0).params.overflowTraps = true ∧
    ((start2 0x7FFFFFFF#32 0).readReg 1).toInt + ((start2 0x7FFFFFFF#32 0).readReg 2).toInt = 2147483647 ∧
    ((start2 0x7FFFFFFF#32 1).readReg 1).toInt + ((start2 0x7FFFFFFF#32 1).readReg 2).toInt = 2147483648 ∧
    ((start2 0x80000000#32 1).readReg 1).toInt - ((start2 0x80000000#32 1).readReg 2).toInt = -2147483649 ∧
    ((start2 0x80000000#32 0).readReg 1).toInt + (0xFFFF#16).toInt = -2147483649 ∧
    (State.withParams start { Params.default with overflowTraps := false }).params.overflowTraps = false := by decide

theorem witness_Divisions :
    ((start2 0x80000000#32 1).readReg 2).toInt ≠ 0 ∧
    ¬ (((start2 0x80000000#32 1).readReg 1).toInt = -2147483648 ∧ ((start2 0x80000000#32 1).readReg 2).toInt = -1) ∧
    ((start2 0x80000001#32 0xFFFFFFFF#32).readReg 2).toInt ≠ 0 ∧
    ¬ (((start2 0x80000001#32 0xFFFFFFFF#32).readReg 1).toInt = -2147483648 ∧
      ((start2 0x80000001#32 0xFFFFFFFF#32).readReg 2).toInt = -1) ∧
    ((start2 0 1).readReg 2).toNat ≠ 0 := by decide

theorem witness_DivisionCorners :
    (start2 5 0).params.divCorners = .r3000a ∧ (start2 5 0).readReg 2 = 0 ∧
    (start2 0x80000000#32 0xFFFFFFFF#32).readReg 1 = 0x80000000#32 ∧
    (start2 0x80000000#32 0xFFFFFFFF#32).readReg 2 = 0xFFFFFFFF#32 ∧
    (State.withParams (start2 5 0) { Params.default with divCorners := .other 1 }).params.divCorners = .other 1 ∧
    (State.withParams (start2 5 0) { Params.default with divCorners := .other 1 }).readReg 2 = 0 := by decide

theorem witness_RegisterJumps : ((start2 0x80003000#32 0).readReg 1).toNat % 4 = 0 ∧
    ((start2 0x80003003#32 0).readReg 1).toNat % 4 ≠ 0 := by decide

/-- DelaySlotAlwaysRuns, SpecialRegisterWriters and DelayedLoadLastsOneInstruction: an instruction that completes, one
that raises, one that writes HI, one that writes SR, one that writes CAUSE. -/
theorem witness_exec_next :
    (∃ t, exec (.beq 0 0 4) start = .next t) ∧ (∃ t, exec .syscall start = .next t) ∧
    (∃ t, exec (.mthi 1) (start2 7 0) = .next t ∧ t.hi ≠ (start2 7 0).hi) ∧
    (∃ t, exec (.mtc0 1 12) (start2 7 0) = .next t ∧ t.sr ≠ (start2 7 0).sr) ∧
    (∃ t, exec (.mtc0 1 13) (start2 0x300#32 0) = .next t ∧ t.cause ≠ (start2 0x300#32 0).cause) :=
  ⟨⟨_, rfl⟩, ⟨_, rfl⟩, ⟨_, rfl, by decide⟩, ⟨_, rfl, by decide⟩, ⟨_, rfl, by decide⟩⟩

/-- AlignedLoads, UnalignedLoads, Cop2LoadStore: RAM and BIOS, the last bytes of each. -/
theorem witness_loads :
    resolve start (effectiveAddress (start2 0x80000100#32 0) 1 0) = some (.ram, 0x100) ∧ isStorage .ram = true ∧
    resolve start (effectiveAddress (start2 0x80800000#32 0) 1 0xFFFC#16) = some (.ram, 0x7FFFFC) ∧
    resolve start (effectiveAddress (start2 0xBFC7FFFC#32 0) 1 0) = some (.bios, 0x7FFFC) ∧ isStorage .bios = true ∧
    (effectiveAddress (start2 0xBFC7FFFC#32 0) 1 0).toNat % 4 = 0 ∧
    (effectiveAddress (start2 0x80000100#32 0) 1 2).toNat % 2 = 0 ∧
    resolve start (alignedWord (effectiveAddress (start2 0x80000100#32 0) 1 3)) = some (.ram, 0x100) := by decide

/-- AlignedStores, UnalignedStores, Cop2LoadStore, RamReadsBack: RAM in canonical form, stores not dropped. -/
theorem witness_stores :
    Memory.wf Config.ramSize (start2 0x80000100#32 0).ram = true ∧
    ((start2 0x80000100#32 0).params.iscDropsStores = true → (start2 0x80000100#32 0).isc = false) ∧
    resolve (start2 0x80000100#32 0) (effectiveAddress (start2 0x80000100#32 0) 1 0) = some (.ram, 0x100) ∧
    resolve (start2 0x80000100#32 0) (alignedWord (effectiveAddress (start2 0x80000100#32 0) 1 3)) =
      some (.ram, 0x100) := by decide

/-- RamReadsBack: a word stored through one mirror, at the address of the next instruction, and read through another. -/
theorem witness_RamReadsBack :
    ∃ t, exec (storeInstr .word 2 1 0) (start2 0x80001004#32 0x12345678#32) = .next t ∧
      resolve t (effectiveAddress t 1 0x0#16) = some (.ram, 0x1004) ∧
      (effectiveAddress t 1 0x0#16).toNat % Width.word.bytes = 0 ∧
      resolve t t.pc = some (.ram, 0x1004) ∧ 0x1004 % Config.ramSize = 0x201004 % Config.ramSize ∧
      resolve t 0x00201004#32 = some (.ram, 0x201004) :=
  ⟨_, rfl, by decide, by decide, by decide, by decide, by decide⟩

/-- MisalignedAccesses: every misalignment of a word. -/
theorem witness_MisalignedAccesses :
    (effectiveAddress (start2 0x80000100#32 0) 1 1).toNat % 2 ≠ 0 ∧
    (effectiveAddress (start2 0x80000100#32 0) 1 2).toNat % 4 ≠ 0 ∧
    (effectiveAddress (start2 0xC0000000#32 0) 1 3).toNat % 4 ≠ 0 := by decide

/-- UnmappedAccesses: just past the RAM window, KSEG2, and just before the BIOS. -/
theorem witness_UnmappedAccesses :
    resolve start (effectiveAddress (start2 0x00800000#32 0) 1 0) = none ∧
    resolve start (effectiveAddress (start2 0xC0000000#32 0) 1 0) = none ∧
    resolve start (alignedWord (effectiveAddress (start2 0x1FBFFFFF#32 0) 1 0)) = none ∧
    (effectiveAddress (start2 0x00800000#32 0) 1 0).toNat % 4 = 0 ∧
    (start.params.iscDropsStores = true → start.isc = false) := by decide

/-- DefaultAddressMap: the first and the last address of every clause, which exclude one another. -/
theorem witness_DefaultAddressMap : start.params.windows = Config.defaultWindows ∧
    ∀ p ∈ [(0xFFFFFFFF#32, none), (0xC0000000#32, none), (0xA07FFFFF#32, some (WindowKind.ram, 0x7FFFFF)),
        (0x00000000#32, some (.ram, 0)), (0x00800000#32, none), (0x1F80103F#32, none)] ++
      [(0x1F801040#32, some (.device .peripherals, 0)), (0x1F80105F#32, some (.device .peripherals, 0x1F)),
        (0x1F801060#32, none), (0x1F801070#32, some (.intc, 0)), (0x1F801077#32, some (.intc, 7)), (0x1F801078#32, none),
        (0x1F801080#32, some (.dma, 0)), (0x1F8010FF#32, some (.dma, 0x7F))] ++
      [(0x1F801100#32, some (.device .timers, 0)), (0x1F80112F#32, some (.device .timers, 0x2F)), (0x1F801130#32, none),
        (0x1F801800#32, some (.device .cdrom, 0)), (0x1F801803#32, some (.device .cdrom, 3)), (0x1F801804#32, none)] ++
      [(0x1F801810#32, some (.device .gpu, 0)), (0x1F801817#32, some (.device .gpu, 7)), (0x1F801818#32, none),
        (0x1F801820#32, some (.device .mdec, 0)), (0x1F801827#32, some (.device .mdec, 7)), (0x1F801828#32, none)] ++
      [(0x1F801C00#32, some (.device .spu, 0)), (0x1F801FFF#32, some (.device .spu, 0x3FF)), (0x1F802000#32, none),
        (0x9FC00000#32, some (.bios, 0)), (0xBFC7FFFF#32, some (.bios, 0x7FFFF)), (0xBFC80000#32, none)],
      resolve start p.1 = p.2 := by decide

/-- StoresWithoutEffect: BIOS, its last word by LWL and SWL's address too; with the stores dropped, RAM and a device. -/
theorem witness_StoresWithoutEffect :
    resolve (start2 0xBFC00000#32 0) (effectiveAddress (start2 0xBFC00000#32 0) 1 0) = some (.bios, 0) ∧
    (effectiveAddress (start2 0xBFC00000#32 0) 1 0).toNat % 4 = 0 ∧
    resolve start (alignedWord (effectiveAddress (start2 0xBFC7FFFF#32 0) 1 0)) = some (.bios, 0x7FFFC) ∧
    resolve start (alignedWord (effectiveAddress (start2 0x80000101#32 0) 1 0)) = some (.ram, 0x100) ∧
    resolve start (alignedWord (effectiveAddress (start2 0x1F801815#32 0) 1 0)) = some (.device .gpu, 4) ∧
    (let s := State.withParams { start with sr := 0x00410000#32 } { Params.default with iscDropsStores := true };
      s.params.iscDropsStores = true ∧ s.isc = true) := by decide

/-- DeviceReads and DeviceWrites; the device's answer is a free value, so of the two clauses about a write one holds
and which one is not known. -/
theorem witness_devices :
    resolve start (effectiveAddress (start2 0x1F801810#32 0) 1 4) = some (.device .gpu, 4) ∧
    (effectiveAddress (start2 0x1F801810#32 0) 1 4).toNat % 4 = 0 ∧
    resolve start (effectiveAddress (start2 0x1F801802#32 0) 1 0) = some (.device .cdrom, 2) ∧
    (effectiveAddress (start2 0x1F801802#32 0) 1 0).toNat % 2 = 0 ∧
    resolve start (alignedWord (effectiveAddress (start2 0x1F801803#32 0) 1 0)) = some (.device .cdrom, 0) ∧
    (start.params.iscDropsStores = true → start.isc = false) := by decide

/-- The premises of EveryLoad and EveryStore: a halfword and a word where they can be aligned. -/
theorem witness_every_form :
    (effectiveAddress (start2 0x1F801802#32 0) 1 0).toNat % 2 = 0 ∧
    (effectiveAddress (start2 0x1F801804#32 0) 1 0).toNat % 4 = 0 := by decide

theorem witness_device_answers (answer : List (Device × Int)) :
    (∀ p ∈ answer, 0 ≤ p.2) ∨ ∃ p ∈ answer, p.2 < 0 := by
  by_cases h : ∀ p ∈ answer, 0 ≤ p.2
  · exact .inl h
  · push Not at h
    exact .inr h

/-- DelayedLoadLastsOneInstruction, second clause: with `LOAD_DELAY` a load leaves its register's old value to be read. -/
theorem witness_DelayedLoad :
    ∃ t, exec (.lw 2 1 4) (State.withParams (start2 0x80000100#32 0x55#32) { Params.default with loadDelay := true }) =
      .next t ∧ t.readReg 2 ≠ t.gpr 2 :=
  ⟨_, rfl, by decide⟩

/-- InterruptControllerRegisters: both registers, a byte lane touched and one not, a line below `N_IRQ` and one above. -/
theorem witness_InterruptControllerRegisters :
    resolve start (effectiveAddress (start2 0x1F801070#32 0) 1 1) = some (.intc, 1) ∧ 1 / 4 = 0 ∧
    TouchesBit 1 .byte 8 ∧ ¬ TouchesBit 1 .byte 7 ∧ TouchesBit 1 .byte 10 ∧
    resolve start (effectiveAddress (start2 0x1F801070#32 0) 1 4) = some (.intc, 4) ∧ 4 / 4 = 1 ∧
    TouchesBit 4 .half 10 ∧ ¬ TouchesBit 7 .byte 10 ∧
    resolve start (alignedWord (effectiveAddress (start2 0x1F801077#32 0) 1 0)) = some (.intc, 4) ∧
    10 < start.params.nIrq ∧ ¬ 11 < start.params.nIrq := by
  refine ⟨by decide, by decide, ?_, ?_, ?_, by decide, by decide, ?_, ?_, by decide, by decide, by decide⟩ <;>
    unfold TouchesBit <;> decide

/-- A state with a pending line and a masked one. -/
def lines : State := { start with iStat := 0x400#32, iMask := 0x001#32 }

theorem witness_IntcRegIs : IntcRegIs lines 1 0x400#32 ∧ IntcRegIs lines 4 0x001#32 ∧ IsLaneRead 1 .byte 0x400#32 4#32 ∧
    IsLaneWrite 1 .byte 0x11223344#32 0xAB#32 0x1122AB44#32 := by
  have hb : ∀ {w v : Word}, (∀ k, k < 32 → w.getLsbD k = (decide (k < 11) && v.getLsbD k)) →
      ∀ k, w.getLsbD k = (decide (k < 11) && v.getLsbD k) := by
    intro w v h k
    by_cases hk : k < 32
    · exact h k hk
    · rw [BitVec.getLsbD_of_ge _ _ (by omega), BitVec.getLsbD_of_ge v _ (by omega), Bool.and_false]
  refine ⟨.inl ⟨rfl, hb (by decide)⟩, .inr ⟨rfl, hb (by decide)⟩, fun k => ?_, ?_⟩
  · by_cases hk : k < 32
    · interval_cases k <;> rfl
    · rw [BitVec.getLsbD_of_ge _ _ (by omega), BitVec.getLsbD_of_ge (0x400#32) _ (by omega), Bool.and_false]
  · unfold IsLaneWrite TouchesBit
    decide

theorem witness_DicrWrite :
    resolve start (effectiveAddress (start2 0x1F8010F4#32 0) 1 3) = some (.dma, 0x77) ∧ 0x77 / 4 = 0x1D ∧
    TouchesBit 0x77 .byte 30 ∧ ¬ TouchesBit 0x77 .byte 23 ∧ TouchesBit 0x74 .word 15 := by
  refine ⟨by decide, by decide, ?_, ?_, ?_⟩ <;> unfold TouchesBit <;> decide

/-- DmaRegisterMap and DmaRunsToIdle: the first and the last channel, DPCR, DICR and the unused offsets. -/
theorem witness_dma_registers :
    start.dicr.getLsbD 31 = dmaIrq start.dicr ∧
    resolve start 0x1F801080#32 = some (.dma, 16 * (0 : Channel).val) ∧
    resolve start 0x1F8010E4#32 = some (.dma, 16 * (6 : Channel).val + 4) ∧
    resolve start 0x1F8010E8#32 = some (.dma, 16 * (6 : Channel).val + 8) ∧
    resolve start 0x1F8010EC#32 = some (.dma, 16 * (6 : Channel).val + 12) ∧
    resolve start 0x1F8010F0#32 = some (.dma, 0x70) ∧ resolve start 0x1F8010F4#32 = some (.dma, 0x74) ∧
    resolve start 0x1F8010F8#32 = some (.dma, 0x78) ∧ resolve start 0x1F8010FC#32 = some (.dma, 0x7C) := by decide

/-- DmaRegIs: the first and the last register of a channel, the control registers and the unused places. -/
theorem witness_DmaRegIs : DmaRegIs start 0 0 ∧ DmaRegIs start 0x6B 0 ∧ DmaRegIs start 0x6C 0 ∧
    DmaRegIs start 0x70 0x07654321#32 ∧ DmaRegIs start 0x77 0 ∧ DmaRegIs start 0x78 0 ∧ DmaRegIs start 0x7F 0 := by
  refine ⟨.inl ⟨0, by decide, .inl ⟨rfl, rfl⟩⟩, .inl ⟨6, by decide, .inr (.inr (.inl ⟨rfl, rfl⟩))⟩,
    .inl ⟨6, by decide, .inr (.inr (.inr ⟨rfl, rfl⟩))⟩, .inr (.inl ⟨rfl, rfl⟩), .inr (.inr (.inl ⟨rfl, rfl⟩)),
    .inr (.inr (.inr ⟨.inl rfl, rfl⟩)), .inr (.inr (.inr ⟨.inr rfl, rfl⟩))⟩

/-- DmaRunsToIdle: of two bytes for one index of an array of 4 the later one counts; the index is taken within it. -/
theorem test_setAll_last : (Memory.setAll 4 [(1, 5#8), (5, 6#8), (2, 7#8)] []).get 1 = 6#8 := by decide

/-- A state whose channels 2 and 6 are ready (table V-J): channel 2 by its trigger, channel 6 by its sync mode. -/
def ready26 : State := { start with
  dpcr := 0x08654821#32
  dma := (start.dma.set 2 ⟨0, 0, 0x11000002#32⟩).set 6 ⟨0, 0, 0x01000201#32⟩ }

/-- DmaRunsToIdle and DmaArbitration: channels that are ready and one that is not, and a core that does not have it. -/
theorem witness_ChannelReady : ChannelReady ready26 2 ∧ ChannelReady ready26 6 ∧ ¬ ChannelReady start 2 ∧
    ¬ ChannelReady (State.withParams ready26 { Params.default with nDma := 6 }) 6 ∧
    dmaPick start = none ∧ dmaPick ready26 = some 6 := by
  refine ⟨?_, ?_, ?_, ?_, by decide, by decide⟩ <;> unfold ChannelReady <;> decide

theorem witness_cop0 : (1 : RegIdx) ∉ [(3 : RegIdx), 5, 6, 7, 8, 9, 11, 12, 13, 14, 15] ∧
    start.params.cop0UnimplFaults = true ∧
    (State.withParams start { Params.default with cop0UnimplFaults := false }).params.cop0UnimplFaults = false := by
  decide

theorem witness_ReturnFromException : ∃ t, exec .rfe (afterRaise .syscall start) = .next t := ⟨_, rfl⟩

theorem witness_ExceptionEntry : start.bds = false ∧ ({ start with bds := true } : State).bds = true := by decide

theorem start_runnable : Runnable start := runnable_of_inv start_inv

/-- InterruptTakenBeforeFetch, and FetchFromNowhere and StepRunsDecodedInstruction, where none is due. -/
theorem witness_step :
    (let s := { start with sr := 0x00000401#32, iStat := 0x001#32, iMask := 0x001#32 };
      Runnable s ∧ s.params.wf = true ∧ s.intPending = true) ∧
    (let s := { start with pc := 0xC0000000#32 };
      Runnable s ∧ s.intPending = false ∧ resolve s s.pc = none) ∧
    (let s := start.withFetchWord 32 0x00221820;
      Runnable s ∧ s.intPending = false ∧ resolve s s.pc = some (.ram, 0x1000) ∧
      decodeBytes [s.storedByte .ram 0x1000, s.storedByte .ram 0x1001, s.storedByte .ram 0x1002,
        s.storedByte .ram 0x1003] = .ok (.add 3 1 2, [])) :=
  ⟨⟨{ start_runnable with }, by decide, by decide⟩,
    ⟨{ start_runnable with pc_aligned := by decide }, by decide, by decide⟩,
    ⟨⟨by decide, by decide, start_runnable.next_natural⟩, by decide, by decide, by decide⟩⟩

/-- StepRunsDecodedInstruction, the windows that are no storage: `SLL x0,x0,16` in `I_STAT`, `DPCR` as it stands after
reset, and what a device answers. -/
theorem witness_WindowWord :
    (let s := { lines with pc := 0x1F801070#32 };
      Runnable s ∧ s.intPending = false ∧ resolve s s.pc = some (.intc, 0) ∧ WindowWord s .intc 0 0x400#32 ∧
      decodeBytes [byteOf 0x400#32 0, byteOf 0x400#32 1, byteOf 0x400#32 2, byteOf 0x400#32 3] = .ok (.sll 0 0 16, [])) ∧
    (let s := { start with pc := 0x1F8010F0#32 };
      Runnable s ∧ resolve s s.pc = some (.dma, 0x70) ∧ WindowWord s .dma 0x70 0x07654321#32) ∧
    (let s := { start with pc := 0x1F801810#32 };
      Runnable s ∧ resolve s s.pc = some (.device .gpu, 0) ∧
      WindowWord s (.device .gpu) 0 (Config.devRead (.devRead .gpu 0 .word :: s.portLog))) := by
  have hl : ∀ v : Word, IsLaneRead 0 .word v v := by
    intro v k
    by_cases hk : k < 32
    · show v.getLsbD k = (decide (k < 32) && v.getLsbD (k + 0))
      rw [decide_eq_true hk]
      rfl
    · rw [BitVec.getLsbD_of_ge _ _ (by omega), BitVec.getLsbD_of_ge v _ (by omega), Bool.and_false]
  refine ⟨⟨{ start_runnable with pc_aligned := by decide }, by decide, by decide, ⟨_, witness_IntcRegIs.1, hl _⟩,
    by decide⟩, ⟨{ start_runnable with pc_aligned := by decide }, by decide, by decide,
    ⟨_, witness_DmaRegIs.2.2.2.1, hl _⟩⟩, ⟨{ start_runnable with pc_aligned := by decide }, by decide, rfl⟩⟩

/-- RegisterZero, StepKeepsInvariant, EveryStepCompletes, ConstantsStay and ClockAdvance: `start` meets the invariant,
has no latencies, and its step has a next state. -/
theorem witness_step_next : Inv start ∧ start.params.latency = [] ∧ ∃ t, step start = .next t :=
  ⟨start_inv, by decide, isNext_iff (by decide)⟩

/-- EndOfStep: a step short of the quantum, one that reaches it, and, whatever the devices answer, one of the two ends of
a pass. -/
theorem witness_EndOfStep : (start.charge start.params.cyclesBase).burst < 128 ∧
    128 ≤ (({ start with burst := 127 } : State).charge start.params.cyclesBase).burst ∧
    ((∃ i e, start.sched[i]? = some e ∧ (replyOf start start.sched i).next < 0 ∧
        ∀ j, j < i → 0 ≤ (replyOf start start.sched j).next) ∨
      ∀ i, i < start.sched.length → 0 ≤ (replyOf start start.sched i).next) :=
  ⟨by decide, by decide, syncDevices_ends start.sched start⟩

theorem witness_MisalignedPc : start.pc.toNat % 4 = 0 ∧ ({ start with npc := 0x80001002#32 } : State).npc.toNat % 4 ≠ 0 := by
  decide

/-- InvariantAtReset, ResetValues and FirstInstruction: an image of the right size that begins with `LUI x1,0x1234`. -/
theorem witness_construct :
    let image := [0x34#8, 0x12#8, 0x01#8, 0x3C#8] ++ List.replicate 524284 0#8
    image.length = 524288 ∧ image.take 4 = [0x34#8, 0x12#8, 0x01#8, 0x3C#8] ∧ Params.default.wf = true ∧
      (∃ s, construct Params.default Config.defaultDevices image = .ok s) ∧ ([] : List Byte).length ≠ 524288 := by
  have h : ([0x34#8, 0x12#8, 0x01#8, 0x3C#8] ++ List.replicate 524284 0#8).length = 524288 := by
    rw [List.length_append, List.length_replicate]
    rfl
  exact ⟨h, by rw [List.take_append_of_le_length (by decide)]; rfl, by decide, ⟨_, if_pos h⟩, by decide⟩

/-- InvariantAtReset: a state that meets the invariant, an image loaded into it, and snapshots that do not. -/
theorem witness_InvariantAtReset : Inv start ∧
    (∃ t, loadImage ⟨0x80010000#32, 1, 0x801FFFFF#32, 1, 0x801FFF00#32, 0⟩ [0xAA#8] start = .ok t) ∧
    aligned4 0x80001002#32 = false ∧ aligned4 start.pc = true ∧ aligned4 start.npc = true ∧
    ∃ e ∈ ({ start with sched := [⟨.gpu, 0, -1⟩] } : State).sched, e.next < 0 :=
  ⟨start_inv, ⟨_, rfl⟩, by decide, by decide, by decide, ⟨_, List.mem_singleton.mpr rfl, by decide⟩⟩

/-- ImageLoader: an image that ends at the last byte of RAM, and one past it, one outside the window, one too short. -/
theorem witness_ImageLoader :
    (let h : ImageHeader := ⟨0x80010000#32, 1, 0x801FFFFF#32, 1, 0x801FFF00#32, 0⟩;
      h.dest.toNat % 0x20000000 < 0x800000 ∧ h.dest.toNat % 0x20000000 % 0x200000 + h.size ≤ 0x200000 ∧
      h.size ≤ [0xAA#8].length ∧ h.pc0.toNat % 4 = 0 ∧ Memory.wf Config.ramSize start.ram = true) ∧
    0x200000 < (0x801FFFFF#32).toNat % 0x20000000 % 0x200000 + 2 ∧ 0x800000 ≤ (0x80800000#32).toNat % 0x20000000 ∧
    [0xAA#8].length < 2 ∧ (0x80010002#32).toNat % 4 ≠ 0 := by decide

end Sys2Proof.Tests
end

section
/-! PROOFS. The scope of the model (spec/00_scope.md R12): every step from a state of the invariant ends safely. -/

namespace Sys2Proof

open Machine

/-- `retireLoad` is the one ending of an instruction that is not a `.next` by its shape alone. -/
theorem safeOutcome_of_ending {i : Instr} {s : State} {o : Result} (h : Ending i s o) : SafeOutcome o := by
  cases h with
  | completes u _ => exact .inl ⟨_, rfl⟩
  | transfers u n _ _ _ => exact .inl ⟨_, rfl⟩
  | loads rt v u _ _ _ => exact .inl ⟨_, rfl⟩
  | raises e u _ _ _ => exact .inl ⟨_, rfl⟩
  | faults d => exact .inr ⟨d, rfl⟩

/-- A fetch answers a word, which is always decoded and executed, or raises BusErrorFetch; the decoder is total (R105)
and no meaning refuses. -/
theorem safeOutcome_instructionCycle (s : State) : SafeOutcome (instructionCycle s) := by
  unfold instructionCycle
  rcases fetch_cases s with ⟨k, o, _, hf⟩ | ⟨_, hf⟩
  · rw [hf]
    exact safeOutcome_of_ending (exec_cases _ _)
  · rw [hf]
    exact .inl ⟨_, raise_eq s .busErrorFetch⟩

theorem safeOutcome_finishStep (s : State) : SafeOutcome (finishStep s) := by
  rcases finishStep_cases s with ⟨t, h, _⟩ | ⟨d, h⟩
  · exact .inl ⟨t, h⟩
  · exact .inr ⟨d, h⟩

/-- Of the invariant only what the machine checks before a step is needed. -/
theorem safeOutcome_step_of_runnable {s : State} (h : Runnable s) : SafeOutcome (step s) := by
  rw [step_of_runnable h]
  rcases safeOutcome_instructionCycle (sampleInterrupt s) with ⟨t, hc⟩ | ⟨d, hc⟩
  · rw [hc]
    exact safeOutcome_finishStep t
  · rw [hc]
    exact .inr ⟨d, rfl⟩

/-- Settles O56: a state of the invariant is runnable, and the instruction cycle and the end of the step are each safe
(`witness_step_next` has a state of the invariant). -/
theorem everyStepCompletes : Obligations.EveryStepCompletes :=
  fun _ h => safeOutcome_step_of_runnable (runnable_of_inv h)

end Sys2Proof
end

section
/-! PROOFS. The state (spec/10_state.md): what every step keeps, what an instruction can change, which instruction a
step runs, and what the host's calls leave. -/

namespace Sys2Proof

open Machine

/-! ## A step that answers a next state -/

/-- `t` is `s` after the instruction `i` completed: what it did leaves `u`, then comes Commit. A delayed load leaves a
stale read as well, and writes its register here. -/
structure Completed (i : Instr) (s u t : State) : Prop where
  work : Work i s u
  rest : t = { u with pc := s.npc, npc := t.npc, bds := t.bds, regs := t.regs, stale := t.stale }
  transfer : t.bds = true → i.mnemonic ∈ transferMnemonics
  sequential : t.bds = false → t.npc = s.npc + 4

theorem npc_of_work {i : Instr} {s u : State} (h : Work i s u) : u.npc = s.npc := by
  have hf := h.frame
  unfold WorkFrame at hf
  rw [hf]

/-- An instruction that answers a next state has completed or has raised an exception of Execute. -/
theorem exec_next_cases {i : Instr} {s t : State} (h : exec i s = .next t) :
    (∃ u, Completed i s u t) ∨ ∃ e u, e.ofExecute ∧ BusFrame s u ∧ t = afterRaise e u := by
  have he := exec_cases i s
  rw [h] at he
  generalize ho : Host.Outcome.next t = o at he
  cases he with
  | completes u hw =>
    cases ho
    refine .inl ⟨u, hw, ?_, fun hb => (by cases hb), fun _ => rfl⟩
    rw [← npc_of_work hw]
    rfl
  | transfers u n hw hm _ =>
    cases ho
    refine .inl ⟨u, hw, ?_, fun _ => hm, fun hb => by cases hb⟩
    rw [← npc_of_work hw]
    rfl
  | loads rt v u hf hi _ =>
    obtain ⟨t', ht', hl⟩ := retireLoad_loaded u rt v
    obtain rfl : t = t' := Host.Outcome.next.inj (ho.trans ht')
    have hr := hl.rest
    refine .inl ⟨u, .ofBus hf hi, ?_, fun hb => ?_, fun _ => ?_⟩
    · rw [← hf.npc, hr]
      rfl
    · rw [hr] at hb
      cases hb
    · rw [hr, ← hf.npc]
      rfl
  | raises e u he hf _ =>
    cases ho
    exact .inr ⟨e, u, he, hf, rfl⟩
  | faults d => cases ho

/-- A step that answers a next state started from a runnable state, and neither its cycle nor its end faulted. -/
theorem step_next {s t : State} (h : step s = .next t) :
    Runnable s ∧ ∃ u, instructionCycle (sampleInterrupt s) = .next u ∧ finishStep u = .next t := by
  cases hv : s.violation with
  | some f =>
    rw [step_of_violation hv] at h
    cases h
  | none =>
    have hr := (violation_eq_none s).mp hv
    rw [step_of_runnable hr] at h
    refine ⟨hr, ?_⟩
    split at h
    · next u hu => exact ⟨u, hu, h⟩
    · cases h
    · cases h

/-- A cycle that answers a next state ran the fetched instruction, or took BusErrorFetch. -/
theorem instructionCycle_next {s t : State} (h : instructionCycle s = .next t) :
    (∃ w u, fetch s = .done w u ∧ BusFrame s u ∧ exec (decodeWord w) u = .next t) ∨
      t = afterRaise .busErrorFetch s := by
  unfold instructionCycle at h
  rcases fetch_cases s with ⟨k, o, _, hf⟩ | ⟨_, hf⟩
  · rw [hf] at h
    have hw := windowRead_frame s k o .word
    exact .inl ⟨_, _, hf, hw.trans (chargeLatency_frame s _ hw.params _ _ _), h⟩
  · rw [hf] at h
    exact .inr (Host.Outcome.next.inj h).symm

/-- The end of a step that answers a next state. -/
theorem stepEnd_of_finishStep {s t : State} (h : finishStep s = .next t) : StepEnd s t := by
  rcases finishStep_cases s with ⟨t', ht', he⟩ | ⟨d, hd⟩
  · rw [ht'] at h
    cases h
    exact he
  · rw [hd] at h
    cases h

/-! ## The invariant (R20, R21, R27, R35, R44 to R46) -/

theorem ExecInv.exec {i : Instr} {s t : State} (h : ExecInv s) (ht : exec i s = .next t) : ExecInv t := by
  have he := exec_cases i s
  rw [ht] at he
  generalize ho : Host.Outcome.next t = o at he
  cases he with
  | completes u hw =>
    cases ho
    exact (hw.inv h).commit (aligned4_add_four h.npc_aligned) false
  | transfers u n hw _ hn =>
    cases ho
    exact (hw.inv h).commit (hn h) true
  | loads rt v u _ hi _ => exact (hi h).retireLoad ho.symm
  | raises e u he _ hi =>
    cases ho
    obtain ⟨hcop, _⟩ := he
    exact (hi h).afterRaise hcop
  | faults d => cases ho

theorem ExecInv.instructionCycle {s t : State} (h : ExecInv s) (ht : instructionCycle s = .next t) : ExecInv t := by
  rcases instructionCycle_next ht with ⟨w, u, hf, _, he⟩ | rfl
  · exact (h.fetch hf).exec he
  · exact h.afterRaise (by simp)

theorem ExecInv.sampleInterrupt {s : State} (h : ExecInv s) : ExecInv (sampleInterrupt s) := by
  unfold Machine.sampleInterrupt
  split
  · exact h.enterException (by simp)
  · exact h

/-- Settles O55: the interrupt sample, the cycle and the end of the step each keep what every instruction keeps, and the
end leaves BURST below the quantum (`witness_step_next` has a state of the invariant whose step has a next state). -/
theorem stepKeepsInvariant : Obligations.StepKeepsInvariant := by
  intro s t hs ht
  obtain ⟨_, u, hc, hf⟩ := step_next ht
  have he := stepEnd_of_finishStep hf
  have hu : ExecInv u := hs.toExecInv.sampleInterrupt.instructionCycle hc
  exact { he.inv hu with burst_short := he.burst }

/-! ## The delay slot (R28, R29) -/

theorem exceptionVector_of_bus {s u : State} (h : BusFrame s u) : exceptionVector u = exceptionVector s := by
  rw [h.rest]
  rfl

theorem restartAddress_of_bus {s u : State} (h : BusFrame s u) : restartAddress u = restartAddress s := by
  rw [h.rest]
  rfl

/-- Settles O19: Commit moves NPC into PC and only a transfer's Commit sets BDS; an exception entry depends on nothing
a bus access before it has changed (`witness_exec_next`). -/
theorem delaySlotAlwaysRuns : Obligations.DelaySlotAlwaysRuns := by
  intro i s t ht
  rcases exec_next_cases ht with ⟨u, hc⟩ | ⟨e, u, _, hf, rfl⟩
  · exact .inl ⟨by rw [hc.rest], hc.transfer, hc.sequential⟩
  · have hv := exceptionVector_of_bus hf
    exact .inr ⟨hv, congrArg (· + 4) hv, rfl, restartAddress_of_bus hf⟩

/-! ## HI, LO and the COP0 registers (R23, R24, R34 to R38) -/

/-- What `Enter(E, info)` writes to SR, CAUSE, EPC, BADVADDR and PC is the same after a bus access. -/
theorem entry_of_bus {s u : State} (h : BusFrame s u) (e : Exc) :
    ((afterRaise e u).sr, (afterRaise e u).cause, (afterRaise e u).epc, (afterRaise e u).badvaddr,
        (afterRaise e u).pc) =
      ((enterException e s).sr, (enterException e s).cause, (enterException e s).epc, (enterException e s).badvaddr,
        (enterException e s).pc) := by
  rw [h.rest]
  rfl

/-- Settles O48: an instruction that completes has written these registers only as `Work` says; one that raised has
written HI and LO nowhere and left the rest to the entry (`witness_exec_next`). -/
theorem specialRegisterWriters : Obligations.SpecialRegisterWriters := by
  intro i s t ht
  rcases exec_next_cases ht with ⟨u, hc⟩ | ⟨e, u, he, hf, rfl⟩
  · have hw := hc.work
    have hf := hw.frame
    unfold WorkFrame at hf
    have hcause : u.cause = { s.cause with ip := u.cause.ip } := by rw [hf]
    rw [hc.rest]
    exact ⟨hw.hi, hw.lo, .inr ⟨by rw [hf], by rw [hf], hw.sr, fun hne => ⟨hw.cause hne, hcause⟩⟩⟩
  · have hhi : (afterRaise e u).hi = s.hi := by rw [hf.rest]; rfl
    have hlo : (afterRaise e u).lo = s.lo := by rw [hf.rest]; rfl
    obtain ⟨hcop, hint, hfetch⟩ := he
    exact ⟨fun h => absurd hhi h, fun h => absurd hlo h, .inl ⟨e, hcop, hint, hfetch, entry_of_bus hf e⟩⟩

/-! ## What no step changes (R7, R47, R49) -/

/-- The parameters, the BIOS image and the list of devices of `t` are those of `s`. -/
structure SameConstants (s t : State) : Prop where
  params : t.params = s.params
  bios : t.bios = s.bios
  devices : t.sched.map SchedEntry.device = s.sched.map SchedEntry.device

theorem SameConstants.trans {s t u : State} (h : SameConstants s t) (h' : SameConstants t u) : SameConstants s u :=
  ⟨h'.params.trans h.params, h'.bios.trans h.bios, h'.devices.trans h.devices⟩

theorem sameConstants_of_bus {s u : State} (h : BusFrame s u) : SameConstants s u :=
  ⟨h.params, by rw [h.rest], h.devices⟩

theorem sameConstants_afterRaise (e : Exc) (s : State) : SameConstants s (afterRaise e s) := ⟨rfl, rfl, rfl⟩

theorem sameConstants_exec {i : Instr} {s t : State} (h : exec i s = .next t) : SameConstants s t := by
  rcases exec_next_cases h with ⟨u, hc⟩ | ⟨e, u, _, hf, rfl⟩
  · have hf := hc.work.frame
    unfold WorkFrame at hf
    have hu : SameConstants s u := ⟨by rw [hf], by rw [hf], hc.work.devices⟩
    rw [hc.rest]
    exact hu.trans ⟨rfl, rfl, rfl⟩
  · exact (sameConstants_of_bus hf).trans (sameConstants_afterRaise e u)

theorem sameConstants_instructionCycle {s t : State} (h : instructionCycle s = .next t) : SameConstants s t := by
  rcases instructionCycle_next h with ⟨w, u, _, hf, he⟩ | rfl
  · exact (sameConstants_of_bus hf).trans (sameConstants_exec he)
  · exact sameConstants_afterRaise _ s

theorem sameConstants_sampleInterrupt (s : State) : SameConstants s (sampleInterrupt s) := by
  unfold sampleInterrupt
  split <;> exact ⟨rfl, rfl, rfl⟩

/-- Settles O54: the interrupt sample, the cycle and the end of the step each keep the three. -/
theorem constantsStay : Obligations.ConstantsStay := by
  intro s t ht
  obtain ⟨_, u, hc, hf⟩ := step_next ht
  have he := stepEnd_of_finishStep hf
  have h : SameConstants s t := ((sameConstants_sampleInterrupt s).trans (sameConstants_instructionCycle hc)).trans
    ⟨he.params, he.bios, he.devices⟩
  exact ⟨h.params, h.bios, h.devices⟩

/-! ## Register 0 (R21) -/

/-- The hidden state of `LOAD_DELAY` is never about register 0. -/
theorem readReg_zero_of_inv {s : State} (h : ExecInv s) : s.readReg 0 = 0 := by
  unfold State.readReg
  split
  · exact gpr_zero s
  · next p hp =>
    rw [if_neg (h.stale_ok p hp).2.symm]
    exact gpr_zero s

/-- Settles O49: by what a read gives after a write, and because the invariant bars a stale read of register 0. -/
theorem registerZero : Obligations.RegisterZero := by
  refine ⟨fun s v => ⟨gpr_zero s, writeReg_zero s v⟩, fun s i v hi => ⟨?_, writeReg_eq s i v, fun j hj => ?_⟩,
    fun s hs => readReg_zero_of_inv hs.toExecInv⟩
  · rw [gpr_writeReg, if_pos ⟨rfl, hi⟩]
  · rw [gpr_writeReg, if_neg fun h => hj h.1]

/-! ## The instruction a step runs (R28, R82, R360) -/

theorem decodeWord_of_decodeBytes {b0 b1 b2 b3 : Byte} {i : Instr} (h : decodeBytes [b0, b1, b2, b3] = .ok (i, [])) :
    decodeWord (wordOfBytes b0 b1 b2 b3) = i := by
  unfold decodeBytes at h
  cases h
  rfl

/-- With no interrupt due, the cycle executes what the window's word decodes to. -/
theorem instructionCycle_runs {s : State} {k : WindowKind} {o : Nat} {i : Instr} (hp : s.intPending = false)
    (hk : resolve s s.pc = some (k, o)) (hs : (windowRead s k o .word).2 = s.afterRead k o .word)
    (hi : decodeWord (windowRead s k o .word).1 = i) :
    instructionCycle (sampleInterrupt s) = exec i ((s.afterRead k o .word).charge (s.latency s.pc .word false)) := by
  have hsample : sampleInterrupt s = s := if_neg (by rw [hp]; simp)
  unfold instructionCycle fetch
  rw [hsample, hk]
  dsimp only
  rw [hs, hi]

/-- Settles O50: the fetch reads the word the window answers, RAM and BIOS from their four bytes, and the cycle executes
what it decodes to (`witness_step`, `witness_WindowWord`). -/
theorem stepRunsDecodedInstruction : Obligations.StepRunsDecodedInstruction := by
  intro s k o i hr hp hk h
  have hc : instructionCycle (sampleInterrupt s) =
      exec i ((s.afterRead k o .word).charge (s.latency s.pc .word false)) := by
    rcases h with ⟨hst, hd⟩ | ⟨w, hw, hd⟩
    · have hdma : k = .dma → s.dicr.getLsbD 31 = dmaIrq s.dicr := fun he => by
        rw [he] at hst
        cases hst
      refine instructionCycle_runs hp hk (windowRead_state hdma o .word) ?_
      rw [windowRead_storage_word s hst o]
      exact decodeWord_of_decodeBytes hd
    · obtain ⟨hword, hstate⟩ := windowRead_windowWord hw
      refine instructionCycle_runs hp hk hstate ?_
      rw [hword, ← wordOfBytes_bytes w]
      exact decodeWord_of_decodeBytes hd
  have hstep := step_of_runnable hr
  rw [hc] at hstep
  exact hstep

/-! ## Misaligned addresses (R12, R27) -/

theorem aligned4_eq_false_iff (a : Word) : aligned4 a = false ↔ a.toNat % 4 ≠ 0 := by
  rw [← Bool.not_eq_true, aligned4_iff]

/-- With both addresses aligned a step can only fault for a negative distance. -/
theorem step_ne_misalignedPc {s : State} (hp : aligned4 s.pc = true) (hn : aligned4 s.npc = true) :
    step s ≠ .fault .misalignedPc := by
  intro h
  by_cases hneg : ∃ e ∈ s.sched, e.next < 0
  · obtain ⟨e, _, _, hv⟩ := violation_negative hp hn hneg
    rw [step_of_violation hv] at h
    cases h
  · have hr : Runnable s := ⟨hp, hn, fun e he => not_lt.mp fun hlt => hneg ⟨e, he, hlt⟩⟩
    rcases safeOutcome_step_of_runnable hr with ⟨t, ht⟩ | ⟨d, hd⟩
    · rw [ht] at h
      cases h
    · rw [hd] at h
      cases h

/-- Settles O51: a misaligned address is the first violation looked for, and nothing later in a step gives this
fault (`witness_MisalignedPc`). -/
theorem misalignedPcIsAFault : Obligations.MisalignedPcIsAFault := by
  intro s
  rw [← aligned4_eq_false_iff, ← aligned4_eq_false_iff]
  constructor
  · intro h
    by_contra hn
    rw [not_or, Bool.not_eq_false, Bool.not_eq_false] at hn
    exact step_ne_misalignedPc hn.1 hn.2 h
  · exact fun h => step_of_violation (violation_misaligned h)

/-! ## Reset and the host (R48; spec/70_reset_and_hazards.md R380, R388, R389, R391) -/

theorem boot_inv {p : Params} (hp : p.wf = true) (ds : List Device) {bios : Memory}
    (hb : Memory.wf Config.biosSize bios = true) : Inv (State.boot p ds bios) := by
  have hvec : aligned4 p.vecReset = true := by
    simp only [Params.wf, Bool.and_eq_true] at hp
    obtain ⟨⟨⟨⟨_, hv⟩, _⟩, _⟩, _⟩ := hp
    exact hv
  have hdma : ∀ c : Channel, (State.boot p ds bios).dma[c] = ⟨0, 0, 0⟩ := fun c => Vector.getElem_replicate c.isLt
  have hsched : ∀ e ∈ (State.boot p ds bios).sched, e.lastSync = 0 ∧ 0 ≤ e.next := by
    intro e he
    obtain ⟨d, _, rfl⟩ := List.mem_map.mp he
    exact ⟨rfl, Int.natCast_nonneg _⟩
  exact {
    params_wf := hp
    pc_aligned := hvec
    npc_aligned := aligned4_add_four hvec
    slot0 := rfl
    stale_ok := fun _ h => by cases h
    ce_zero := rfl
    code_taken := List.mem_cons_self
    dicr_irq := (by decide : (0 : Word).getLsbD 31 = dmaIrq 0)
    dicr_zero := (by decide : (0 : Word).extractLsb' 6 9 = 0)
    stat_width := BitVec.zero_and
    mask_width := BitVec.zero_and
    dma_width := fun c _ => hdma c
    clk_width := Nat.two_pow_pos _
    burst_width := Nat.two_pow_pos _
    sync_width := fun e he => by rw [(hsched e he).1]; exact Nat.two_pow_pos _
    next_natural := fun e he => (hsched e he).2
    dma_idle := fun c => by unfold dmaReady; rw [hdma c]; simp
    ram_wf := rfl
    bios_wf := hb
    burst_short := Nat.zero_lt_succ _ }

theorem construct_inv {p : Params} {ds : List Device} {image : List Byte} {s : State} (hp : p.wf = true)
    (h : construct p ds image = .ok s) : Inv s := by
  unfold construct at h
  split at h
  · next hlen =>
    cases h
    exact boot_inv hp ds (Memory.wf_load image (by omega) rfl)
  · cases h

theorem hostReset_inv {s : State} (h : Inv s) : Inv (hostReset s) :=
  { boot_inv h.params_wf (s.sched.map SchedEntry.device) h.bios_wf with }

theorem withStackPointer_inv {s : State} (hd : ImageHeader) (h : ExecInv s) : ExecInv (withStackPointer hd s) := by
  unfold withStackPointer
  split
  · exact h
  · exact (h.writeReg _ _).writeReg _ _

theorem withStackPointer_burst (hd : ImageHeader) (s : State) : (withStackPointer hd s).burst = s.burst := by
  unfold withStackPointer
  split
  · rfl
  · simp

theorem loadImage_inv {hd : ImageHeader} {blob : List Byte} {s t : State} (h : Inv s)
    (ht : loadImage hd blob s = .ok t) : Inv t := by
  unfold loadImage at ht
  split at ht
  · cases ht
  · next hbounds =>
    split at ht
    · cases ht
    · next hpc =>
      rw [Bool.not_eq_false] at hpc
      have hlen : imageBase hd % Config.ramSize + (blob.take hd.size).length ≤ Config.ramSize := by
        rw [List.length_take]
        omega
      cases ht
      refine { withStackPointer_inv hd (ExecInv.writeReg ?_ 28 hd.gp0) with burst_short := ?_ }
      · exact { h.toExecInv with
          pc_aligned := hpc
          npc_aligned := aligned4_add_four hpc
          ram_wf := Memory.wf_load _ hlen h.ram_wf }
      · rw [withStackPointer_burst, writeReg_burst]
        exact h.burst_short

theorem restore_of_runnable {s : State} (h : Runnable s) : restore s = .next s := by
  unfold restore
  rw [(violation_eq_none s).mpr h]

theorem restore_of_violation {s : State} {f : Fault} (h : s.violation = some f) : restore s = .fault f := by
  unfold restore
  rw [h]

/-- Settles O57: reset and construction are `State.boot` with a canonical BIOS, the loader writes within RAM and an
aligned PC, and restore and step look for the same violation first (`witness_construct`, `witness_InvariantAtReset`). -/
theorem invariantAtReset : Obligations.InvariantAtReset := by
  refine ⟨boot_inv (by decide) _ rfl, fun p ds image s hp hs => construct_inv hp hs, fun s => hostReset_inv,
    fun h blob s t => loadImage_inv, fun s => ⟨fun hs => restore_of_runnable (runnable_of_inv hs), fun hm => ?_,
      fun hp hn hneg => ?_⟩⟩
  · have hv := violation_misaligned hm
    exact ⟨restore_of_violation hv, step_of_violation hv⟩
  · obtain ⟨e, he, hlt, hv⟩ := violation_negative hp hn hneg
    exact ⟨e, he, hlt, restore_of_violation hv, step_of_violation hv⟩

end Sys2Proof
end

section
/-! PROOFS. Memory (spec/20_memory.md): the default address map, what RAM gives back, the stores that store nothing, and
the reads and writes of a device window. -/

namespace Sys2Proof

open Machine

/-! ## The default address map (R69, R70, R72, R79) -/

theorem holds_iff (w : Window) (pa : Nat) : Window.holds w pa = true ↔ w.base ≤ pa ∧ pa < w.base + w.size := by
  unfold Window.holds
  rw [Bool.and_eq_true, decide_eq_true_eq, decide_eq_true_eq]

/-- In a table whose windows follow one another, the first window that holds an address is the only one. -/
theorem find_holds_of_sorted {ws : List Window} (hs : ws.Pairwise fun a b => a.base + a.size ≤ b.base) {w : Window}
    (hw : w ∈ ws) {pa : Nat} (hp : Window.holds w pa = true) : (ws.find? fun x => Window.holds x pa) = some w := by
  induction ws with
  | nil => cases hw
  | cons v ws ih =>
    obtain ⟨hv, hs⟩ := List.pairwise_cons.mp hs
    rcases List.mem_cons.mp hw with rfl | hw
    · exact List.find?_cons_of_pos hp
    · have hbefore : ¬ Window.holds v pa = true := by
        have := hv w hw
        rw [holds_iff] at hp ⊢
        omega
      rw [List.find?_cons_of_neg (p := fun x => Window.holds x pa) hbefore]
      exact ih hs hw

theorem defaultWindows_sorted : Config.defaultWindows.Pairwise fun a b => a.base + a.size ≤ b.base := by decide

theorem resolve_kseg2 (s : State) {va : Word} (h : 0xC0000000 ≤ va.toNat) : resolve s va = none := by
  unfold resolve windowAt
  rw [if_pos ((inKseg2_iff va).mpr h)]
  rfl

/-- Below KSEG2 an address goes by its low 29 bits. -/
theorem resolve_mapped (s : State) {va : Word} (h : va.toNat < 0xC0000000) : resolve s va =
    (s.params.windows.find? fun w => Window.holds w (va.toNat % 0x20000000)).map
      fun w => (w.kind, va.toNat % 0x20000000 - w.base) := by
  unfold resolve windowAt
  rw [if_neg (by rw [inKseg2_iff]; omega), physical_eq]

theorem resolve_default_window {s : State} {va : Word} (hs : s.params.windows = Config.defaultWindows)
    (h : va.toNat < 0xC0000000) (w : Window) (hw : w ∈ Config.defaultWindows)
    (hp : w.base ≤ va.toNat % 0x20000000 ∧ va.toNat % 0x20000000 < w.base + w.size) :
    resolve s va = some (w.kind, va.toNat % 0x20000000 - w.base) := by
  rw [resolve_mapped s h, hs, find_holds_of_sorted defaultWindows_sorted hw ((holds_iff w _).mpr hp)]
  rfl

theorem resolve_default_gap {s : State} {va : Word} (hs : s.params.windows = Config.defaultWindows)
    (h : va.toNat < 0xC0000000)
    (hp : ∀ w ∈ Config.defaultWindows, va.toNat % 0x20000000 < w.base ∨ w.base + w.size ≤ va.toNat % 0x20000000) :
    resolve s va = none := by
  have hnone : ∀ w ∈ Config.defaultWindows, ¬ Window.holds w (va.toNat % 0x20000000) = true := by
    intro w hw
    have := hp w hw
    rw [holds_iff]
    omega
  rw [resolve_mapped s h, hs, List.find?_eq_none.mpr hnone]
  rfl

/-- Settles O26: the ten windows follow one another, so each address below KSEG2 is held by at most one
(`witness_DefaultAddressMap`). -/
theorem defaultAddressMap : Obligations.DefaultAddressMap := by
  intro s va hs pa
  refine ⟨resolve_kseg2 s, fun h => ?_⟩
  have hwin := resolve_default_window hs h
  refine ⟨fun hp => hwin ⟨.ram, .ram, 0x00000000, 0x800000⟩ (by decide) ⟨Nat.zero_le _, by omega⟩,
    hwin ⟨.peripherals, .device .peripherals, 0x1F801040, 0x20⟩ (by decide),
    hwin ⟨.intc, .intc, 0x1F801070, 8⟩ (by decide),
    hwin ⟨.dma, .dma, 0x1F801080, 0x80⟩ (by decide),
    hwin ⟨.timers, .device .timers, 0x1F801100, 0x30⟩ (by decide),
    hwin ⟨.cdrom, .device .cdrom, 0x1F801800, 4⟩ (by decide),
    hwin ⟨.gpu, .device .gpu, 0x1F801810, 8⟩ (by decide),
    hwin ⟨.mdec, .device .mdec, 0x1F801820, 8⟩ (by decide),
    hwin ⟨.spu, .device .spu, 0x1F801C00, 0x400⟩ (by decide),
    hwin ⟨.bios, .bios, 0x1FC00000, 0x80000⟩ (by decide), fun hp => resolve_default_gap hs h ?_⟩
  simp only [Config.defaultWindows, List.forall_mem_cons, List.not_mem_nil, false_implies, implies_true, and_true]
  omega

/-! ## RAM gives back what was stored (R78, R88) -/

theorem fetch_mapped {s : State} {k : WindowKind} {o : Nat} (hr : resolve s s.pc = some (k, o)) :
    fetch s = .done (windowRead s k o .word).1 ((windowRead s k o .word).2.charge (s.latency s.pc .word false)) := by
  unfold fetch
  rw [hr]

/-- What an aligned SB, SH or SW to RAM leaves in it, read at any offset of the same byte of the array. -/
theorem storeInstr_ram {s t : State} {rt rs : RegIdx} {imm : BitVec 16} {n : Width} {o : Nat}
    (hw : Memory.wf Config.ramSize s.ram = true) (hi : s.params.iscDropsStores = true → s.isc = false)
    (ha : (effectiveAddress s rs imm).toNat % n.bytes = 0)
    (hr : resolve s (effectiveAddress s rs imm) = some (.ram, o)) (ht : exec (storeInstr n rt rs imm) s = .next t) :
    t.params = s.params ∧ ∀ o', o' % Config.ramSize = o % Config.ramSize →
      Memory.readLE t.ram Config.ramSize o' n = truncTo n (s.readReg rt) := by
  rw [exec_storeInstr, storeMem_ram (misaligned_eq_false ha) hi hr] at ht
  cases ht
  refine ⟨rfl, fun o' ho => ?_⟩
  rw [Memory.readLE_congr fun i => Nat.ModEq.add_right i ho]
  exact Memory.readLE_writeLE (by decide) (Memory.wf_from hw)

/-- Settles O27: the store leaves the address map alone, and a load and a fetch at an alias read the bytes it wrote
(`witness_RamReadsBack`). -/
theorem ramReadsBack : Obligations.RamReadsBack := by
  intro s t rt rs imm n o ea hw hi ha hr ht
  obtain ⟨hp, hread⟩ := storeInstr_ram hw hi ha hr ht
  constructor
  · intro r rs' imm' o' ea' ha' hr' ho
    obtain ⟨u, hu, hl⟩ := loadReg_mapped (misaligned_eq_false ha') ((resolve_congr hp ea').trans hr') r id
    refine ⟨u, _, (exec_loadInstr n r rs' imm' t).trans hu, hl, ?_⟩
    rw [← truncTo_toNat, ← hread o' ho]
    rfl
  · intro o' hn hr' ho
    subst hn
    have hword : (windowRead t .ram o' .word).1 = s.readReg rt := hread o' ho
    rw [fetch_mapped ((resolve_congr hp t.pc).trans hr'), hword]
    rfl

/-! ## Stores that store nothing (R74, R83) -/

/-- A store that `ISC_DROPS_STORES` drops. -/
theorem storeMem_dropped {s : State} {ea v : Word} {n : Width} (hm : misaligned ea n = false)
    (hp : s.params.iscDropsStores = true) (hi : s.isc = true) : storeMem ea n v s = .next s.advanced := by
  unfold storeMem
  rw [memWrite_dropped hm hp hi]
  rfl

/-- SWL and SWR both end as the write of the merged word does, when that does not depend on the word. -/
theorem mergedStores_eq {s u : State} {rt rs : RegIdx} {imm : BitVec 16} {k : WindowKind} {o : Nat}
    (hr : resolve s (alignedWord (effectiveAddress s rs imm)) = some (k, o))
    (h : ∀ x, storeMem (alignedWord (effectiveAddress s rs imm)) .word x ((windowRead s k o .word).2.charge
      (s.latency (alignedWord (effectiveAddress s rs imm)) .word false)) = .next u) :
    exec (.swl rt rs imm) s = .next u ∧ exec (.swr rt rs imm) s = .next u := by
  obtain ⟨⟨_, hswl, _⟩, ⟨_, hswr, _⟩⟩ := everyMergedStore_of (rt := rt) (P := fun _ out => out = .next u) hr h
  exact ⟨hswl, hswr⟩

theorem afterRead_params (s : State) (k : WindowKind) (o : Nat) (n : Width) :
    (s.afterRead k o n).params = s.params := by
  cases k <;> rfl

theorem afterRead_isc (s : State) (k : WindowKind) (o : Nat) (n : Width) : (s.afterRead k o n).isc = s.isc := by
  cases k <;> rfl

/-- Settles O28: a store to BIOS leaves the state it was made in and a dropped one is not made; the read that SWL and SWR
make before it is the only other effect (`witness_StoresWithoutEffect`). -/
theorem storesWithoutEffect : Obligations.StoresWithoutEffect := by
  intro s rt rs imm ea wa
  refine ⟨fun hi => ⟨fun o hr => everyStore_of fun log n x ha => ?_, fun o hr => mergedStores_eq hr fun x => ?_⟩,
    fun hp hi => ⟨everyStore_of fun log n x ha => ?_, fun k o hr hd => mergedStores_eq hr fun x => ?_⟩⟩
  · exact storeMem_mapped (s := { s with portLog := log }) (misaligned_eq_false ha) hi hr rfl
  · exact storeMem_mapped (s := s.charge (s.latency wa .word false)) (misaligned_alignedWord _) hi hr rfl
  · exact storeMem_dropped (misaligned_eq_false ha) hp hi
  · rw [windowRead_state hd]
    exact storeMem_dropped (misaligned_alignedWord _)
      ((congrArg Params.iscDropsStores (afterRead_params s k o .word)).trans hp)
      ((afterRead_isc s k o .word).trans hi)

/-! ## Device windows (R76) -/

/-- Settles O29: a read of a device window is one `DevRead`, and the loads take the low bytes of its answer
(`witness_devices`). -/
theorem deviceReads : Obligations.DeviceReads := by
  intro s rt rs imm w o ea wa answer
  refine ⟨fun hr => everyLoad_congr (everyLoad_mapped hr rt) (fun _ => rfl) fun n j hj => ?_,
    fun hr => everyMergedLoad_mapped hr rt⟩
  have hread : (windowRead s (.device w) o n).1 = truncTo n (answer n) := rfl
  rw [hread]
  exact byte_truncTo hj

/-- Settles O30: each form is one bus write, SWL's and SWR's in the state after the one read, and a bus write to a device
window ends as `storeMem_device` says (`witness_devices`, `witness_device_answers`). -/
theorem deviceWrites : Obligations.DeviceWrites := by
  intro s rt rs imm w o ea wa hi
  refine ⟨fun hr => everyStore_of fun log n x ha => ?_, fun hr => everyMergedStore_of hr fun x => ?_⟩
  · exact storeMem_device (misaligned_eq_false ha) hi hr rfl
  · exact storeMem_device (misaligned_alignedWord _) hi hr rfl

end Sys2Proof
end

section
/-! PROOFS. Encoding (spec/30_encoding.md): the fields of a word, the round trip, and the opcode table against the
decoder. -/

namespace Sys2Proof

open Laws.SelectedByRow (mask_special mask_regimm mask_opcodeJ mask_cop)

/-! ## The fields of a word (R101) -/

theorem rdOf_val (w : Word) : (rdOf w).val = w.toNat / 2 ^ 11 % 32 := by
  simp [rdOf, Nat.shiftRight_eq_div_pow]

theorem shamtOf_toNat (w : Word) : (shamtOf w).toNat = w.toNat / 2 ^ 6 % 32 := by
  simp [shamtOf, Nat.shiftRight_eq_div_pow]

theorem immOf_toNat (w : Word) : (immOf w).toNat = w.toNat % 2 ^ 16 := by
  simp [immOf]

theorem targetOf_toNat (w : Word) : (targetOf w).toNat = w.toNat % 2 ^ 26 := by
  simp [targetOf]

/-- Settles O1: one lemma per field. -/
theorem fieldsAreSlices : Obligations.FieldsAreSlices := fun w =>
  ⟨opcodeOf_toNat w, rsOf_val w, rtOf_val w, rdOf_val w, shamtOf_toNat w, functOf_toNat w, immOf_toNat w,
    targetOf_toNat w⟩

/-! ## Reserved words (R118) -/

/-- The check of Sys2Proof/WellFormed.lean, written in the fields the decoder reads. -/
theorem reservedWord_eq (w : Word) : reservedWord w =
    if opcodeOf w = 0x00#6 then !(specialFuncts.contains (functOf w).toNat)
    else if opcodeOf w = 0x01#6 then !([0x00, 0x01, 0x10, 0x11].contains (rtOf w).val)
    else if opcodeOf w = 0x10#6 then !(rsOf w = 0x00 || rsOf w = 0x04 || (w.getLsbD 25 && functOf w == 0x10#6))
    else if opcodeOf w = 0x12#6 then
      !(rsOf w = 0x00 || rsOf w = 0x02 || rsOf w = 0x04 || rsOf w = 0x06 || w.getLsbD 25)
    else !(plainOpcodes.contains (opcodeOf w).toNat) := by
  unfold reservedWord
  rw [bit25, ← opcodeOf_toNat, ← rsOf_val, ← rtOf_val, ← functOf_toNat]
  simp only [← BitVec.toNat_inj, ← Fin.val_inj, beq_eq_decide]
  rfl

theorem decodeSpecial_reserved {w : Word} (h : !(specialFuncts.contains (functOf w).toNat)) :
    decodeSpecial w = .reserved w := by
  unfold decodeSpecial
  split
  case h_29 => rfl
  all_goals next hf => rw [hf] at h; exact absurd h (by decide)

theorem decodeRegimm_reserved {w : Word} (h : !([0x00, 0x01, 0x10, 0x11].contains (rtOf w).val)) :
    decodeRegimm w = .reserved w := by
  unfold decodeRegimm
  split
  case h_5 => rfl
  all_goals next ht => rw [ht] at h; exact absurd h (by decide)

theorem decodeCop0_reserved {w : Word}
    (h : !(rsOf w = 0x00 || rsOf w = 0x04 || (w.getLsbD 25 && functOf w == 0x10#6))) :
    decodeCop0 w = .reserved w := by
  simp only [Bool.not_eq_true', Bool.or_eq_false_iff, decide_eq_false_iff_not] at h
  obtain ⟨⟨hmf, hmt⟩, hrfe⟩ := h
  rw [decodeCop0, if_neg hmf, if_neg hmt, hrfe, if_neg Bool.false_ne_true]

theorem decodeCop2_reserved {w : Word}
    (h : !(rsOf w = 0x00 || rsOf w = 0x02 || rsOf w = 0x04 || rsOf w = 0x06 || w.getLsbD 25)) :
    decodeCop2 w = .reserved w := by
  simp only [Bool.not_eq_true', Bool.or_eq_false_iff, decide_eq_false_iff_not] at h
  obtain ⟨⟨⟨⟨hmf, hcf⟩, hmt⟩, hct⟩, hc⟩ := h
  rw [decodeCop2, if_neg hmf, if_neg hcf, if_neg hmt, if_neg hct, hc, if_neg Bool.false_ne_true]

theorem decodeWord_reserved {w : Word} (h : reservedWord w = true) : decodeWord w = .reserved w := by
  rw [reservedWord_eq] at h
  unfold decodeWord
  split
  case h_1 ho => rw [ho] at h; exact decodeSpecial_reserved h
  case h_2 ho => rw [ho] at h; exact decodeRegimm_reserved h
  case h_17 ho => rw [ho] at h; exact decodeCop0_reserved h
  case h_19 ho => rw [ho] at h; exact decodeCop2_reserved h
  case h_35 => rfl
  all_goals next ho => rw [ho] at h; exact absurd h Bool.false_ne_true

/-! ## The round trip (R61, R123) -/

/-- Bit 25 is the top bit of `rs`, so none of the four moves to and from COP2 has it. -/
theorem decodeCop2_of_bit25 {w : Word} (h : w.getLsbD 25 = true) : decodeCop2 w = .cop2 (commandOf w) := by
  have hrs : 16 ≤ (rsOf w).val := of_decide_eq_true (bit25 w ▸ h)
  have hne {r : RegIdx} (hr : r.val < 16) : rsOf w ≠ r := by rintro rfl; omega
  rw [decodeCop2, if_neg (hne (by decide)), if_neg (hne (by decide)), if_neg (hne (by decide)),
    if_neg (hne (by decide)), if_pos h]

theorem decodeWord_encodeCop2 (c : BitVec 25) : decodeWord (encode (.cop2 c)) = .cop2 c := by
  have ho : opcodeOf (encode (.cop2 c)) = 0x12#6 := opcodeOf_encodeJ ..
  rw [decodeWord, ho]
  exact (decodeCop2_of_bit25 (bit25_encodeCop2 c)).trans (congrArg _ (commandOf_encodeCop2 c))

/-- For every constructor without a row here, the field lemmas of its format give each operand back. -/
theorem decodeWord_encode {i : Instr} (h : i.wf = true) : decodeWord (encode i) = i := by
  cases i
  case reserved w => exact decodeWord_reserved h
  case cop2 c => exact decodeWord_encodeCop2 c
  case rfe => decide
  all_goals simp [encode, decodeWord, decodeSpecial, decodeRegimm, decodeCop0, decodeCop2]

theorem decodeBytes_bytesOfWord (w : Word) (rest : List Byte) :
    decodeBytes (bytesOfWord w ++ rest) = .ok (decodeWord w, rest) := by
  simp [bytesOfWord, decodeBytes]

/-- Settles O3: the round trip of the word, and the word of its four bytes (`witness_DecodeOfEncode`). -/
theorem decodeOfEncode : Obligations.DecodeOfEncode := fun i rest h =>
  ⟨decodeWord_encode h, by rw [decodeBytes_bytesOfWord, decodeWord_encode h]⟩

/-! ## Every word is its fields put together, in each format (R102) -/

theorem regBits_rsOf (w : Word) : regBits (rsOf w) = w.extractLsb' 21 5 := rfl

theorem regBits_rtOf (w : Word) : regBits (rtOf w) = w.extractLsb' 16 5 := rfl

theorem regBits_rdOf (w : Word) : regBits (rdOf w) = w.extractLsb' 11 5 := rfl

theorem encodeR_fields (w : Word) :
    encodeR (opcodeOf w) (rsOf w) (rtOf w) (rdOf w) (shamtOf w) (functOf w) = w := by
  apply BitVec.eq_of_getLsbD_eq
  intro k hk
  interval_cases k <;>
    simp [encodeR, getElem_place, regBits_rsOf, regBits_rtOf, regBits_rdOf, opcodeOf, shamtOf, functOf]

theorem encodeI_fields (w : Word) : encodeI (opcodeOf w) (rsOf w) (rtOf w) (immOf w) = w := by
  apply BitVec.eq_of_getLsbD_eq
  intro k hk
  interval_cases k <;> simp [encodeI, getElem_place, regBits_rsOf, regBits_rtOf, opcodeOf, immOf]

theorem encodeJ_fields (w : Word) : encodeJ (opcodeOf w) (targetOf w) = w := by
  apply BitVec.eq_of_getLsbD_eq
  intro k hk
  interval_cases k <;> simp [encodeJ, getElem_place, opcodeOf, targetOf]

/-! ## What a row selects -/

theorem opcodeOf_of_selects {r : TableRow} {w : Word} (hr : r ∈ opcodeTable) (h : r.selects w = true) :
    opcodeOf r.pattern = opcodeOf w := by
  have hm : ∀ r ∈ opcodeTable, opcodeOf r.mask = BitVec.allOnes 6 := by decide
  rw [← eq_of_beq h, opcodeOf, BitVec.extractLsb'_and]
  exact (congrArg _ (hm r hr)).trans BitVec.and_allOnes

theorem functOf_of_selects {r : TableRow} {w : Word} (hm : functOf r.mask = BitVec.allOnes 6)
    (h : r.selects w = true) : functOf r.pattern = functOf w := by
  rw [← eq_of_beq h, functOf, BitVec.extractLsb'_and]
  exact (congrArg _ hm).trans BitVec.and_allOnes

/-- A row does not tell two words apart that agree on a mask which contains its own. -/
theorem selects_congr {r : TableRow} {v w m : Word} (hm : m &&& r.mask = r.mask) (h : v &&& m = w &&& m) :
    r.selects v = r.selects w := by
  rw [TableRow.selects, TableRow.selects, ← hm, ← BitVec.and_assoc, ← BitVec.and_assoc, h]

/-! ## The table against the decoder (R123)

The rows under one primary opcode and the decoder look at the same few bits of a word. So `TableAgrees` passes from a
word in which every other bit is 0 to all words with the same bits there, and only those few words are left to check. -/

/-- Does the opcode table agree with the decoder on this word? -/
def TableAgrees (w : Word) : Prop :=
  (opcodeTable.filter fun r => r.selects w).map TableRow.mnemonic =
    if (decodeWord w).mnemonic = "RESERVED" then [] else [(decodeWord w).mnemonic]

theorem TableAgrees.congr {v w : Word} (ho : opcodeOf v = opcodeOf w)
    (hd : (decodeWord v).mnemonic = (decodeWord w).mnemonic)
    (hs : ∀ r ∈ opcodeTable, opcodeOf r.pattern = opcodeOf w → r.selects v = r.selects w)
    (h : TableAgrees v) : TableAgrees w := by
  have hfilter : opcodeTable.filter (fun r => r.selects v) = opcodeTable.filter fun r => r.selects w :=
    List.filter_congr fun r hr => by
      by_cases hp : opcodeOf r.pattern = opcodeOf w
      · exact hs r hr hp
      · have hno {u : Word} (hu : opcodeOf u = opcodeOf w) : r.selects u = false :=
          Bool.eq_false_iff.mpr fun hsel => hp ((opcodeOf_of_selects hr hsel).trans hu)
        rw [hno ho, hno rfl]
  unfold TableAgrees at h ⊢
  rw [← hfilter, ← hd, h]

theorem TableAgrees.of_mask {v w : Word} (m : Word) (ho : opcodeOf v = opcodeOf w)
    (hd : (decodeWord v).mnemonic = (decodeWord w).mnemonic)
    (hm : ∀ r ∈ opcodeTable, opcodeOf r.pattern = opcodeOf w → m &&& r.mask = r.mask) (he : v &&& m = w &&& m)
    (h : TableAgrees v) : TableAgrees w :=
  h.congr ho hd fun r hr hp => selects_congr (hm r hr hp) he

section

variable (rs rt rd : RegIdx) (sh : BitVec 5) (fn : BitVec 6)

/-- R114: `opcode` and `funct`. -/
theorem tableAgrees_special : TableAgrees (encodeR 0x00#6 rs rt rd sh fn) := by
  have hrep : ∀ fn, TableAgrees (encodeR 0x00#6 0 0 0 0 fn) := by unfold TableAgrees; decide
  refine (hrep fn).of_mask 0xFC00003F#32 (by simp) ?_ ?_ (by rw [mask_special, mask_special])
  · simp only [decodeWord, decodeSpecial, opcodeOf_encodeR, functOf_encodeR]
    split <;> simp only [Instr.mnemonic]
  · rw [opcodeOf_encodeR]
    decide

/-- R115: `opcode` and `rt`. -/
theorem tableAgrees_regimm (imm : BitVec 16) : TableAgrees (encodeI 0x01#6 rs rt imm) := by
  have hrep : ∀ rt, TableAgrees (encodeI 0x01#6 0 rt 0) := by unfold TableAgrees; decide
  refine (hrep rt).of_mask 0xFC1F0000#32 (by simp) ?_ ?_ (by rw [mask_regimm, mask_regimm])
  · simp only [decodeWord, decodeRegimm, opcodeOf_encodeI, rtOf_encodeI]
    split <;> simp only [Instr.mnemonic]
  · rw [opcodeOf_encodeI]
    decide

theorem mask_rsFunct (op : BitVec 6) :
    encodeR op rs rt rd sh fn &&& 0xFFE0003F#32 = place 26 op ||| place 21 (regBits rs) ||| place 0 fn := by
  apply BitVec.eq_of_getLsbD_eq
  intro k hk
  interval_cases k <;> simp [encodeR, getElem_place]

/-- R116: `opcode` and `rs`, where `funct` is RFE's. -/
theorem tableAgrees_cop0_rfe : TableAgrees (encodeR 0x10#6 rs rt rd sh 0x10#6) := by
  have hrep : ∀ rs, TableAgrees (encodeR 0x10#6 rs 0 0 0 0x10#6) := by unfold TableAgrees; decide
  refine (hrep rs).of_mask 0xFFE0003F#32 (by simp) ?_ ?_ (by rw [mask_rsFunct, mask_rsFunct])
  · simp only [decodeWord, decodeCop0, opcodeOf_encodeR, rsOf_encodeR, bit25, functOf_encodeR]
    split_ifs <;> simp only [Instr.mnemonic]
  · rw [opcodeOf_encodeR]
    decide

/-- R116: `opcode` and `rs`, where `funct` is not RFE's. -/
theorem tableAgrees_cop0 {fn : BitVec 6} (hf : fn ≠ 0x10#6) : TableAgrees (encodeR 0x10#6 rs rt rd sh fn) := by
  have hrep : ∀ rs, TableAgrees (encodeR 0x10#6 rs 0 0 0 0x00#6) := by unfold TableAgrees; decide
  have hrow : ∀ r ∈ opcodeTable, opcodeOf r.pattern = 0x10#6 → 0xFFE00000#32 &&& r.mask = r.mask ∨
      functOf r.mask = BitVec.allOnes 6 ∧ functOf r.pattern = 0x10#6 := by decide
  refine (hrep rs).congr (by simp) ?_ fun r hr hp => ?_
  · simp only [decodeWord, decodeCop0, opcodeOf_encodeR, rsOf_encodeR, bit25, functOf_encodeR,
      beq_eq_false_iff_ne.mpr hf, show (0x00#6 == 0x10#6) = false from rfl, Bool.and_false]
    split_ifs <;> simp only [Instr.mnemonic]
  · rw [opcodeOf_encodeR] at hp
    rcases hrow r hr hp with hm | ⟨hm, hrfe⟩
    · exact selects_congr hm (by rw [mask_cop, mask_cop])
    · have hno {u : Word} (hu : functOf u ≠ 0x10#6) : r.selects u = false :=
        Bool.eq_false_iff.mpr fun hsel => hu ((functOf_of_selects hm hsel).symm.trans hrfe)
      rw [hno (by simp), hno (by rwa [functOf_encodeR])]

/-- R116: `opcode` and `rs`. -/
theorem tableAgrees_cop2 : TableAgrees (encodeR 0x12#6 rs rt rd sh fn) := by
  have hrep : ∀ rs, TableAgrees (encodeR 0x12#6 rs 0 0 0 0) := by unfold TableAgrees; decide
  refine (hrep rs).of_mask 0xFFE00000#32 (by simp) ?_ ?_ (by rw [mask_cop, mask_cop])
  · simp only [decodeWord, decodeCop2, opcodeOf_encodeR, rsOf_encodeR, bit25]
    split_ifs <;> simp only [Instr.mnemonic]
  · rw [opcodeOf_encodeR]
    decide

end

/-- The primary opcodes with a table of their own (R114 to R116). -/
def groupOpcodes : List (BitVec 6) := [0x00#6, 0x01#6, 0x10#6, 0x12#6]

/-- R113: `opcode` alone. -/
theorem tableAgrees_primary {op : BitVec 6} (h : op ∉ groupOpcodes) (target : BitVec 26) :
    TableAgrees (encodeJ op target) := by
  have hrep : ∀ op, op ∉ groupOpcodes → TableAgrees (encodeJ op 0) := by unfold TableAgrees; decide
  have hrow : ∀ r ∈ opcodeTable, opcodeOf r.pattern ∉ groupOpcodes → 0xFC000000#32 &&& r.mask = r.mask := by decide
  refine (hrep op h).of_mask 0xFC000000#32 (by simp) ?_ (fun r hr hp => hrow r hr ?_)
    (by rw [mask_opcodeJ, mask_opcodeJ])
  · simp only [decodeWord, opcodeOf_encodeJ]
    split
    case h_1 | h_2 | h_17 | h_19 => exact absurd (by decide) h
    all_goals simp only [Instr.mnemonic]
  · rwa [hp, opcodeOf_encodeJ]

/-- Settles O2: every word is an encoding of one of the formats, and `opcode` says which bits of it count. -/
theorem opcodeTableAgrees : Obligations.OpcodeTableAgrees := by
  intro w
  show TableAgrees w
  by_cases hg : opcodeOf w ∈ groupOpcodes
  · have hR := encodeR_fields w
    have hI := encodeI_fields w
    simp only [groupOpcodes, List.mem_cons, List.not_mem_nil, or_false] at hg
    rcases hg with ho | ho | ho | ho <;> rw [ho] at hR hI
    · exact hR ▸ tableAgrees_special ..
    · exact hI ▸ tableAgrees_regimm ..
    · by_cases hf : functOf w = 0x10#6
      · rw [hf] at hR
        exact hR ▸ tableAgrees_cop0_rfe ..
      · exact hR ▸ tableAgrees_cop0 _ _ _ _ hf
    · exact hR ▸ tableAgrees_cop2 ..
  · exact encodeJ_fields w ▸ tableAgrees_primary hg _

end Sys2Proof
end

section
/-! PROOFS. Register-register and register-immediate ALU (spec/40_alu_register.md, spec/41_alu_immediate.md): how a
result is written or a signed overflow kept from being written, and what each result is as arithmetic. -/

namespace Sys2Proof

open Machine

/-! ## Results (R130, R147) -/

/-- An instruction that ends by writing a result completes, and what holds of the result holds of what it wrote. -/
theorem exists_wroteReg {i : Instr} {s : State} {rd : RegIdx} {v : Word} {P : Word → Prop}
    (he : exec i s = writeResult rd v s) (hv : P v) : ∃ t v, exec i s = .next t ∧ WroteReg s t rd v ∧ P v := by
  obtain ⟨t, ht, hw⟩ := writeResult_wrote s rd v
  exact ⟨t, v, he.trans ht, hw, hv⟩

theorem exceeds32_iff (r : Int) : exceeds32 r = true ↔ r < -2147483648 ∨ 2147483647 < r := by
  rw [exceeds32, Bool.or_eq_true, decide_eq_true_eq, decide_eq_true_eq]

theorem exceeds32_eq_false_iff (r : Int) : exceeds32 r = false ↔ -2147483648 ≤ r ∧ r ≤ 2147483647 := by
  rw [← Bool.not_eq_true, exceeds32_iff]
  omega

/-- An instruction that guards its result with the exact value `r` completes where `r` fits 32 bits or traps are off,
and raises Overflow, which skips the write, where it does not. -/
theorem completes_or_overflows {i : Instr} {s : State} {rd : RegIdx} {v : Word} {r : Int} {P : Word → Prop}
    (he : exec i s = writeTrapping (exceeds32 r) rd v s) (hv : P v) :
    (s.params.overflowTraps = false ∨ (-2147483648 ≤ r ∧ r ≤ 2147483647) →
      ∃ t v, exec i s = .next t ∧ WroteReg s t rd v ∧ P v) ∧
    (s.params.overflowTraps = true → (r < -2147483648 ∨ 2147483647 < r) →
      exec i s = .next (afterRaise .overflow s)) := by
  unfold writeTrapping at he
  constructor
  · intro h
    rw [← exceeds32_eq_false_iff, ← Bool.and_eq_false_iff] at h
    rw [h, if_neg Bool.false_ne_true] at he
    exact exists_wroteReg he hv
  · intro ht hr
    rw [ht, (exceeds32_iff r).mpr hr, Bool.and_self, if_pos rfl] at he
    exact he.trans (raise_eq s .overflow)

/-! ## Immediates and amounts (R106, R108, R109, R111) -/

theorem sext16_toNat (imm : BitVec 16) : ((sext16 imm).toNat : Int) = imm.toInt % 4294967296 := by
  simpa [sext16_toInt] using toNat_add_toInt 0 (sext16 imm)

theorem getLsbD_zext16 (imm : BitVec 16) {k : Nat} (hk : k < 32) : (zext16 imm).getLsbD k = imm.getLsbD k := by
  rw [zext16, BitVec.getLsbD_setWidth, decide_eq_true hk, Bool.true_and]

theorem upper16_toNat (imm : BitVec 16) : (upper16 imm).toNat = imm.toNat * 65536 := by
  have := imm.isLt
  rw [upper16, place, BitVec.toNat_shiftLeft, BitVec.toNat_setWidth, Nat.shiftLeft_eq]
  omega

theorem shiftAmount_toNat (v : Word) : (shiftAmount v).toNat = v.toNat % 32 := by
  rw [shiftAmount, BitVec.extractLsb'_toNat]
  rfl

/-! ## Differences, comparisons and shifts -/

/-- A 32-bit difference as integer arithmetic modulo 2^32. -/
theorem toNat_sub_emod (a b : Word) : ((a - b).toNat : Int) = ((a.toNat : Int) - b.toNat) % 4294967296 := by
  have := b.isLt
  rw [BitVec.toNat_sub]
  omega

theorem boolWord_decide_toNat (p : Prop) [Decidable p] : (boolWord (decide p)).toNat = if p then 1 else 0 := by
  by_cases h : p
  · rw [decide_eq_true h, if_pos h]
    rfl
  · rw [decide_eq_false h, if_neg h]
    rfl

section

variable (x : Word) (n : Nat)

theorem toNat_shiftLeft_mul : (x <<< n).toNat = x.toNat * 2 ^ n % 4294967296 := by
  rw [BitVec.toNat_shiftLeft, Nat.shiftLeft_eq]

theorem toNat_ushiftRight_div : (x >>> n).toNat = x.toNat / 2 ^ n := by
  rw [BitVec.toNat_ushiftRight, Nat.shiftRight_eq_div_pow]

theorem toInt_sshiftRight_fdiv : (x.sshiftRight n).toInt = x.toInt.fdiv (2 ^ n) := by
  rw [BitVec.toInt_sshiftRight, Int.shiftRight_eq_div_pow, Int.fdiv_eq_ediv_of_nonneg _ (by positivity)]
  push_cast
  rfl

end

/-! ## Sign bits (R147) -/

theorem getLsbD_31_eq_neg (a : Word) : a.getLsbD 31 = decide (a.toInt < 0) := by
  rw [← BitVec.msb_eq_toInt, BitVec.msb_eq_getLsbD_last]

/-- A wrapped sum has another sign than both its operands just where the exact sum does not fit. -/
theorem sum_exceeds_iff_signs (a b : Word) : (a.toInt + b.toInt < -2147483648 ∨ 2147483647 < a.toInt + b.toInt) ↔
    (a.getLsbD 31 = b.getLsbD 31 ∧ (a + b).getLsbD 31 ≠ a.getLsbD 31) := by
  simp only [getLsbD_31_eq_neg, ne_eq, decide_eq_decide, BitVec.toInt_add, Int.bmod]
  have := a.toInt_lt
  have := a.le_toInt
  have := b.toInt_lt
  have := b.le_toInt
  omega

/-- A wrapped difference has another sign than its minuend, and the operands' signs differ, just where the exact
difference does not fit. -/
theorem difference_exceeds_iff_signs (a b : Word) :
    (a.toInt - b.toInt < -2147483648 ∨ 2147483647 < a.toInt - b.toInt) ↔
      (a.getLsbD 31 ≠ b.getLsbD 31 ∧ (a - b).getLsbD 31 ≠ a.getLsbD 31) := by
  simp only [getLsbD_31_eq_neg, ne_eq, decide_eq_decide, BitVec.toInt_sub, Int.bmod]
  have := a.toInt_lt
  have := a.le_toInt
  have := b.toInt_lt
  have := b.le_toInt
  omega

/-- Settles O8: the sign bits by the wrapped result's signed value, the model's tests by `exceeds32_iff`. -/
theorem overflowBySignBits : Obligations.OverflowBySignBits := fun a b =>
  ⟨sum_exceeds_iff_signs a b, difference_exceeds_iff_signs a b, exceeds32_iff _, exceeds32_iff _⟩

/-! ## The words of `opcode` 0x00 (R114) -/

theorem decodeWord_special {w : Word} (h : opcodeOf w = 0x00#6) : decodeWord w = decodeSpecial w := by
  simp only [decodeWord, h]

/-! ## The instructions -/

/-- Settles O5: each result is the bitwise operation on the two words, read bit by bit. -/
theorem logicalInstructions : Obligations.LogicalInstructions := by
  refine ⟨fun s rd rs rt => ⟨?_, ?_, ?_, ?_⟩, fun s rt rs imm => ⟨?_, ?_, ?_⟩, fun w => ⟨fun ho => ?_, ?_, ?_, ?_⟩⟩
  · exact exists_wroteReg rfl fun k _ => BitVec.getLsbD_or
  · exact exists_wroteReg rfl fun k _ => BitVec.getLsbD_and
  · exact exists_wroteReg rfl fun k _ => BitVec.getLsbD_xor
  · exact exists_wroteReg rfl fun k hk => by
      rw [BitVec.getLsbD_not, BitVec.getLsbD_or, decide_eq_true hk, Bool.true_and]
  · exact exists_wroteReg rfl fun k hk => by rw [BitVec.getLsbD_and, getLsbD_zext16 imm hk]
  · exact exists_wroteReg rfl fun k hk => by rw [BitVec.getLsbD_or, getLsbD_zext16 imm hk]
  · exact exists_wroteReg rfl fun k hk => by rw [BitVec.getLsbD_xor, getLsbD_zext16 imm hk]
  · rw [decodeWord_special ho]
    refine ⟨?_, ?_, ?_, ?_⟩ <;> intro hf <;> simp only [decodeSpecial, hf]
  all_goals intro ho; simp only [decodeWord, ho]

/-- Settles O6: the sum and the difference of words are those of the integers modulo 2^32. -/
theorem wrappingAddition : Obligations.WrappingAddition := by
  refine ⟨fun s rd rs rt => ⟨?_, ?_⟩, fun s rt rs imm => ?_, fun w => ⟨fun ho => ?_, fun ho => ?_⟩⟩
  · exact exists_wroteReg rfl (BitVec.toNat_add _ _)
  · exact exists_wroteReg rfl (toNat_sub_emod _ _)
  · exact exists_wroteReg rfl (by rw [toNat_add_toInt, sext16_toInt])
  · rw [decodeWord_special ho]
    refine ⟨?_, ?_⟩ <;> intro hf <;> simp only [decodeSpecial, hf]
  · simp only [decodeWord, ho]

/-- Settles O7: all three are guarded by their exact result (`witness_TrappingAddition`). -/
theorem trappingAddition : Obligations.TrappingAddition := by
  refine ⟨fun s rd rs rt => ⟨?_, ?_⟩, fun s rt rs imm => ?_, fun w => ⟨fun ho => ?_, fun ho => ?_⟩⟩
  · exact completes_or_overflows rfl (BitVec.toNat_add _ _)
  · exact completes_or_overflows rfl (toNat_sub_emod _ _)
  · dsimp only
    rw [← sext16_toInt]
    exact completes_or_overflows rfl (toNat_add_toInt _ _)
  · rw [decodeWord_special ho]
    refine ⟨?_, ?_⟩ <;> intro hf <;> simp only [decodeSpecial, hf]
  · simp only [decodeWord, ho]

/-- Settles O9: each result is 1 or 0 by its comparison, and a sign-extended immediate is the immediate modulo 2^32. -/
theorem comparisons : Obligations.Comparisons := by
  refine ⟨fun s rd rs rt => ⟨?_, ?_⟩, fun s rt rs imm => ⟨?_, ?_⟩, fun w => ⟨fun ho => ?_, fun ho => ?_, fun ho => ?_⟩⟩
  · exact exists_wroteReg rfl (boolWord_decide_toNat _)
  · exact exists_wroteReg rfl (boolWord_decide_toNat _)
  · rw [← sext16_toInt]
    exact exists_wroteReg rfl (boolWord_decide_toNat _)
  · simp only [← sext16_toNat, Int.ofNat_lt]
    exact exists_wroteReg rfl (boolWord_decide_toNat _)
  · rw [decodeWord_special ho]
    refine ⟨?_, ?_⟩ <;> intro hf <;> simp only [decodeSpecial, hf]
  · simp only [decodeWord, ho]
  · simp only [decodeWord, ho]

/-- Settles O10: a shift multiplies or divides by a power of 2, whichever way its amount is given. -/
theorem shiftsAndLoadUpper : Obligations.ShiftsAndLoadUpper := by
  refine ⟨fun s rt imm => exists_wroteReg rfl (upper16_toNat imm), fun w ho => ?_, fun s rd rt shamt => ⟨?_, ?_, ?_⟩,
    fun s rd rt rs => ?_, fun w ho => ?_⟩
  · simp only [decodeWord, ho]
  · exact exists_wroteReg rfl (toNat_shiftLeft_mul _ _)
  · exact exists_wroteReg rfl (toNat_ushiftRight_div _ _)
  · exact exists_wroteReg rfl (toInt_sshiftRight_fdiv _ _)
  · rw [← shiftAmount_toNat]
    exact ⟨exists_wroteReg rfl (toNat_shiftLeft_mul _ _), exists_wroteReg rfl (toNat_ushiftRight_div _ _),
      exists_wroteReg rfl (toInt_sshiftRight_fdiv _ _)⟩
  · rw [decodeWord_special ho]
    refine ⟨?_, ?_, ?_, ?_, ?_, ?_⟩ <;> intro hf <;> simp only [decodeSpecial, hf]

end Sys2Proof
end

section
/-! PROOFS. Multiply, divide and the HI/LO moves (spec/42_muldiv.md): what HI and LO hold after a product and after a
division outside its corners, as arithmetic, and what `DIV_CORNERS` gives in them. -/

namespace Sys2Proof

open Machine

/-! ## HI and LO written (R180) -/

theorem writeHiLo_eq (hi lo : Word) (s : State) :
    writeHiLo hi lo s = .next { s.advanced with hi := hi, lo := lo } := rfl

/-- An instruction that ends by writing HI and LO completes, and what holds of the two words holds of what it wrote. -/
theorem exists_wroteHiLo {i : Instr} {s : State} {hi lo : Word} {P : Word → Word → Prop}
    (he : exec i s = writeHiLo hi lo s) (h : P hi lo) :
    ∃ hi lo : Word, exec i s = .next { s.advanced with hi := hi, lo := lo } ∧ P hi lo :=
  ⟨hi, lo, he.trans (writeHiLo_eq hi lo s), h⟩

/-! ## Products (R181, R182) -/

/-- A doubleword is its two halves, the upper one read as unsigned. -/
theorem toNat_upper_lower (p : BitVec 64) :
    (p.extractLsb' 32 32).toNat * 4294967296 + (p.extractLsb' 0 32).toNat = p.toNat := by
  rw [BitVec.extractLsb'_toNat, BitVec.extractLsb'_toNat]
  omega

/-- A doubleword is its two halves, the upper one read as signed. -/
theorem toInt_upper_lower (p : BitVec 64) :
    (p.extractLsb' 32 32).toInt * 4294967296 + (p.extractLsb' 0 32).toNat = p.toInt :=
  calc (p.extractLsb' 32 32).toInt * 4294967296 + (p.extractLsb' 0 32).toNat
      = (p.extractLsb' 32 32 ++ p.extractLsb' 0 32).toInt := by
        rw [BitVec.toInt_append, if_neg (by decide), Int.mul_comm]
        rfl
    _ = p.toInt := congrArg BitVec.toInt BitVec.extractLsb'_append_extractLsb'

theorem toInt_ofInt_mul (a b : Word) : (BitVec.ofInt 64 (a.toInt * b.toInt)).toInt = a.toInt * b.toInt := by
  have hl : -4611686018427387904 ≤ a.toInt * b.toInt := BitVec.le_toInt_mul_toInt
  have hu : a.toInt * b.toInt ≤ 4611686018427387904 := BitVec.toInt_mul_toInt_le
  exact BitVec.toInt_ofInt_eq_self (by decide) (by omega) (by omega)

theorem toNat_ofNat_mul (a b : Word) : (BitVec.ofNat 64 (a.toNat * b.toNat)).toNat = a.toNat * b.toNat := by
  rw [BitVec.toNat_ofNat, Nat.mod_eq_of_lt BitVec.toNat_mul_toNat_lt]

/-- Settles O11: the product of two words fits a doubleword, whose halves are HI and LO. -/
theorem products : Obligations.Products := by
  refine ⟨fun s rs rt => ⟨exists_wroteHiLo rfl ?_, exists_wroteHiLo rfl ?_⟩, fun w ho => ?_⟩
  · rw [toInt_upper_lower, toInt_ofInt_mul]
  · rw [toNat_upper_lower, toNat_ofNat_mul]
  · rw [decodeWord_special ho]
    refine ⟨?_, ?_⟩ <;> intro hf <;> simp only [decodeSpecial, hf]

/-! ## Divisions (R183, R185) -/

/-- Whatever DIV computes, it completes with the quotient in LO and the remainder in HI. -/
theorem exec_div {s : State} {rs rt : RegIdx} {q r : Word}
    (h : signedDivision s (s.readReg rs) (s.readReg rt) = (q, r)) : exec (.div rs rt) s = writeHiLo r q s :=
  congrArg (fun p : Word × Word => writeHiLo p.2 p.1 s) h

/-- Whatever DIVU computes, it completes with the quotient in LO and the remainder in HI. -/
theorem exec_divu {s : State} {rs rt : RegIdx} {q r : Word}
    (h : unsignedDivision s (s.readReg rs) (s.readReg rt) = (q, r)) : exec (.divu rs rt) s = writeHiLo r q s :=
  congrArg (fun p : Word × Word => writeHiLo p.2 p.1 s) h

theorem signedDivision_eq_sdiv_srem (s : State) {n d : Word} (hd : d.toInt ≠ 0)
    (ho : ¬ (n.toInt = -2147483648 ∧ d.toInt = -1)) : signedDivision s n d = (n.sdiv d, n.srem d) := by
  have hq : BitVec.ofInt 32 (n.toInt.tdiv d.toInt) = n.sdiv d :=
    BitVec.eq_of_toInt_eq ((BitVec.toInt_ofInt _).trans (BitVec.toInt_sdiv n d).symm)
  rw [signedDivision, if_neg (not_or.mpr ⟨hd, ho⟩), hq, ← BitVec.toInt_srem, BitVec.ofInt_toInt]

theorem unsignedDivision_eq_udiv_umod (s : State) {n d : Word} (hd : d.toNat ≠ 0) :
    unsignedDivision s n d = (n / d, n % d) := by
  rw [unsignedDivision, if_neg hd, BitVec.udiv_def, BitVec.umod_def]

/-- Only -2^31 / -1 has a quotient that does not fit a word. -/
theorem sdiv_toInt {n d : Word} (ho : ¬ (n.toInt = -2147483648 ∧ d.toInt = -1)) :
    (n.sdiv d).toInt = n.toInt.tdiv d.toInt :=
  BitVec.toInt_sdiv_of_ne_or_ne n d
    ((not_and_or.mp ho).imp (fun h hn => h (by rw [hn]; rfl)) (fun h hd => h (by rw [hd]; rfl)))

theorem tmod_nonpos {n : Int} (d : Int) (h : n ≤ 0) : n.tmod d ≤ 0 := by
  have := Int.tmod_nonneg d (Int.neg_nonneg.mpr h)
  rw [Int.neg_tmod] at this
  omega

theorem natAbs_tmod_lt (n : Int) {d : Int} (h : d ≠ 0) : (n.tmod d).natAbs < d.natAbs := by
  rw [Int.natAbs_tmod]
  exact Nat.mod_lt _ (Int.natAbs_pos.mpr h)

/-- Settles O12: the quotient fits a word, and quotient and remainder are those of the integers or the naturals
(`witness_Divisions`). -/
theorem divisions : Obligations.Divisions := by
  refine ⟨fun s rs rt hd ho => ?_, fun s rs rt hd => ?_, fun w hw => ?_⟩
  · refine exists_wroteHiLo (exec_div (signedDivision_eq_sdiv_srem s hd ho)) ?_
    rw [sdiv_toInt ho, BitVec.toInt_srem]
    exact ⟨Int.tdiv_mul_add_tmod _ _, natAbs_tmod_lt _ hd, Int.tmod_nonneg _, tmod_nonpos _⟩
  · refine exists_wroteHiLo (exec_divu (unsignedDivision_eq_udiv_umod s hd)) ?_
    rw [BitVec.toNat_udiv, BitVec.toNat_umod]
    exact ⟨Nat.div_add_mod' _ _, Nat.mod_lt _ (Nat.pos_of_ne_zero hd)⟩
  · rw [decodeWord_special hw]
    refine ⟨?_, ?_⟩ <;> intro hf <;> simp only [decodeSpecial, hf]

/-! ## The corners of a division (R184) -/

theorem signedDivision_corner (s : State) {n d : Word} (h : d = 0 ∨ (n = 0x80000000#32 ∧ d = 0xFFFFFFFF#32)) :
    signedDivision s n d = divCorners s true n d := by
  refine if_pos (h.imp ?_ ?_)
  · rintro rfl
    rfl
  · rintro ⟨rfl, rfl⟩
    exact ⟨rfl, rfl⟩

theorem unsignedDivision_zero (s : State) (n : Word) : unsignedDivision s n 0 = divCorners s false n 0 := if_pos rfl

theorem divCorners_r3000a {s : State} (h : s.params.divCorners = .r3000a) (signed : Bool) (n d : Word) :
    divCorners s signed n d = divCornersR3000a signed n d := by
  rw [divCorners, h]

theorem divCorners_other {s : State} {k : Nat} (h : s.params.divCorners = .other k) (signed : Bool) (n d : Word) :
    divCorners s signed n d = Config.divCornersOther k signed n d := by
  rw [divCorners, h]

theorem divCornersR3000a_signed_zero (n : Word) :
    divCornersR3000a true n 0 = (if n.toInt < 0 then 0x00000001#32 else 0xFFFFFFFF#32, n) := by
  simp only [divCornersR3000a, if_true, Bool.true_and, getLsbD_31_eq_neg, decide_eq_true_eq]

/-- Settles O13: in a corner both instructions write what `DIV_CORNERS` gives for the operands, which the state decides
by the parameter alone (`witness_DivisionCorners`). -/
theorem divisionCorners : Obligations.DivisionCorners := by
  refine ⟨fun s rs rt hp => ⟨fun hd => ⟨?_, ?_⟩, fun hn hd => ?_⟩, fun k n d => ⟨fun h => ?_, fun h => ?_⟩⟩
  · have hv : signedDivision s (s.readReg rs) (s.readReg rt) =
        (if (s.readReg rs).toInt < 0 then 0x00000001#32 else 0xFFFFFFFF#32, s.readReg rs) := by
      rw [hd, signedDivision_corner s (.inl rfl), divCorners_r3000a hp, divCornersR3000a_signed_zero]
    exact exec_div hv
  · have hv : unsignedDivision s (s.readReg rs) (s.readReg rt) = (0xFFFFFFFF#32, s.readReg rs) := by
      rw [hd, unsignedDivision_zero, divCorners_r3000a hp]
      rfl
    exact exec_divu hv
  · have hv : signedDivision s (s.readReg rs) (s.readReg rt) = (0x80000000#32, 0) := by
      rw [hn, hd, signedDivision_corner s (.inr ⟨rfl, rfl⟩), divCorners_r3000a hp]
      rfl
    exact exec_div hv
  · refine ⟨(Config.divCornersOther k true n d).2, (Config.divCornersOther k true n d).1,
      fun s rs rt hp hn hd => ?_⟩
    have hv : signedDivision s (s.readReg rs) (s.readReg rt) = Config.divCornersOther k true n d := by
      rw [hn, hd, signedDivision_corner s h, divCorners_other hp]
    exact exec_div hv
  · refine ⟨(Config.divCornersOther k false n d).2, (Config.divCornersOther k false n d).1,
      fun s rs rt hp hn hd => ?_⟩
    have hv : unsignedDivision s (s.readReg rs) (s.readReg rt) = Config.divCornersOther k false n d := by
      rw [hn, hd, h, unsignedDivision_zero, divCorners_other hp]
    exact exec_divu hv

/-! ## The moves (R186 to R189) -/

/-- Settles O14: a move from HI or LO is a result written, and a move to one writes the other back as it stands. -/
theorem hiLoMoves : Obligations.HiLoMoves := by
  refine ⟨fun s r => ⟨?_, ?_, ?_, ?_⟩, fun w ho => ?_⟩
  · exact writeResult_wrote s r s.hi
  · exact writeResult_wrote s r s.lo
  · exact writeHiLo_eq (s.readReg r) s.lo s
  · exact writeHiLo_eq s.hi (s.readReg r) s
  · rw [decodeWord_special ho]
    refine ⟨?_, ?_, ?_, ?_⟩ <;> intro hf <;> simp only [decodeSpecial, hf]

end Sys2Proof
end

section
/-! PROOFS. Branches and jumps (spec/43_branch_jump.md): what a conditional branch, a link and a register jump leave, and
the conditions as comparisons of signed words. -/

namespace Sys2Proof

open Machine

/-! ## Conditional branches (R200, R201) -/

/-- An instruction that ends as a conditional branch completes: with the target next where its condition holds, with the
instruction that follows where it does not. -/
theorem exists_branched {i : Instr} {s : State} {imm : BitVec 16} {taken : Bool} {c : Prop}
    (he : exec i s = branchIf taken imm s) (hc : taken = true ↔ c) :
    ∃ t, exec i s = .next t ∧ (c → t = { s.advanced with npc := branchTarget s imm, bds := true }) ∧
      (¬ c → t = { s.advanced with bds := true }) := by
  unfold branchIf at he
  cases taken with
  | true => exact ⟨_, he.trans (retireBranch_taken s _), fun _ => rfl, fun hn => absurd (hc.mp rfl) hn⟩
  | false =>
    exact ⟨_, he.trans (retireBranch_not_taken s _), fun h => absurd (hc.mpr h) Bool.false_ne_true, fun _ => rfl⟩

theorem signBit_iff (a : Word) : a.getLsbD 31 = true ↔ a.toInt < 0 := by
  rw [getLsbD_31_eq_neg, decide_eq_true_eq]

theorem not_signBit_iff (a : Word) : (!a.getLsbD 31) = true ↔ 0 ≤ a.toInt := by
  rw [getLsbD_31_eq_neg, ← decide_not, decide_eq_true_eq, not_lt]

/-! ## Links (R217) -/

/-- An instruction that ends as a branch that links completes, its target next where its condition holds. -/
theorem exists_linked_branch {i : Instr} {s : State} {imm : BitVec 16} {taken : Bool} {c : Prop} [Decidable c]
    (he : exec i s = branchLink taken imm s) (hc : taken = true ↔ c) :
    ∃ t, exec i s = .next t ∧ Linked s t 31 (if c then branchTarget s imm else s.npc + 4) := by
  obtain ⟨t, ht, hl⟩ := retireBranch_linked s 31 taken (branchTarget s imm)
  refine ⟨t, he.trans ht, ?_⟩
  rw [if_congr hc rfl rfl] at hl
  exact hl

/-! ## Register jumps (R203) -/

section

variable {s : State} {target : Word}

theorem jumpReg_aligned (h : target.toNat % 4 = 0) :
    jumpReg none target s = .next { s.advanced with npc := target, bds := true } :=
  (if_pos ((aligned4_iff target).mpr h)).trans (retireBranch_taken s target)

theorem jumpReg_aligned_linked (rd : RegIdx) (h : target.toNat % 4 = 0) :
    ∃ t, jumpReg (some rd) target s = .next t ∧ Linked s t rd target := by
  obtain ⟨t, ht, hl⟩ := retireBranch_linked s rd true target
  exact ⟨t, (if_pos ((aligned4_iff target).mpr h)).trans ht, hl⟩

theorem jumpReg_misaligned (link : Option RegIdx) (h : target.toNat % 4 ≠ 0) :
    jumpReg link target s = .next (afterRaise (.addressErrorLoad target) s) :=
  (if_neg fun ha => h ((aligned4_iff target).mp ha)).trans (raise_eq s _)

end

/-! ## The words of `opcode` 0x01 (R115) -/

theorem decodeWord_regimm {w : Word} (h : opcodeOf w = 0x01#6) : decodeWord w = decodeRegimm w := by
  simp only [decodeWord, h]

/-! ## The instructions -/

/-- Settles O15: each is a conditional branch, BLTZ and BGEZ deciding by the sign bit. -/
theorem conditionalBranches : Obligations.ConditionalBranches := by
  refine ⟨fun s rs rt imm => ⟨_, branchTarget_spec s imm, ?_, ?_, ?_, ?_, ?_, ?_⟩,
    fun w => ⟨fun ho => ?_, fun ho => ?_, fun ho => ?_, fun ho => ?_, fun ho => ?_⟩⟩
  · exact exists_branched rfl beq_iff_eq
  · exact exists_branched rfl bne_iff_ne
  · exact exists_branched rfl decide_eq_true_iff
  · exact exists_branched rfl decide_eq_true_iff
  · exact exists_branched rfl (signBit_iff _)
  · exact exists_branched rfl (not_signBit_iff _)
  · simp only [decodeWord, ho]
  · simp only [decodeWord, ho]
  · simp only [decodeWord, ho]
  · simp only [decodeWord, ho]
  · rw [decodeWord_regimm ho]
    refine ⟨?_, ?_⟩ <;> intro ht <;> simp only [decodeRegimm, ht]

/-- Settles O16: the sign bit of the old `x[rs]` decides the branch only, not the link. -/
theorem branchAndLink : Obligations.BranchAndLink := by
  refine ⟨fun s rs imm => ⟨_, branchTarget_spec s imm, ?_, ?_⟩, fun w ho => ?_⟩
  · exact exists_linked_branch rfl (signBit_iff _)
  · exact exists_linked_branch rfl (not_signBit_iff _)
  · rw [decodeWord_regimm ho]
    refine ⟨?_, ?_⟩ <;> intro ht <;> simp only [decodeRegimm, ht]

/-- Settles O17: a jump is a taken transfer to `jumpTarget`. -/
theorem jumps : Obligations.Jumps := by
  refine ⟨fun s field => ⟨_, jumpTarget_spec s field, (aligned4_iff _).mp (aligned4_jumpTarget s field), ?_, ?_⟩,
    fun w => ⟨fun ho => ?_, fun ho => ?_⟩⟩
  · exact retireBranch_taken s _
  · exact retireBranch_linked s 31 true _
  · simp only [decodeWord, ho]
  · simp only [decodeWord, ho]

/-- Settles O18: the alignment of the old `x[rs]` decides between the transfer and the exception
(`witness_RegisterJumps`). -/
theorem registerJumps : Obligations.RegisterJumps := by
  refine ⟨fun s rd rs => ⟨fun h => ⟨?_, ?_⟩, fun h => ⟨?_, ?_⟩⟩, fun w ho => ?_⟩
  · exact jumpReg_aligned h
  · exact jumpReg_aligned_linked rd h
  · exact jumpReg_misaligned none h
  · exact jumpReg_misaligned (some rd) h
  · rw [decodeWord_special ho]
    refine ⟨?_, ?_⟩ <;> intro hf <;> simp only [decodeSpecial, hf]

end Sys2Proof
end

section
/-! PROOFS. Loads and stores (spec/44_load_store.md): the loads of what RAM and BIOS hold, the stores to RAM, and how
long a delayed load is seen. -/

namespace Sys2Proof

open Machine

/-! ## The bytes of a word (R62) -/

theorem toNat_eq_bytes (v : Word) : v.toNat = 16777216 * (byteOf v 3).toNat + 65536 * (byteOf v 2).toNat +
    256 * (byteOf v 1).toNat + (byteOf v 0).toNat := by
  have := v.isLt
  simp only [byteOf_toNat]
  omega

/-! ## Loads from RAM and BIOS (R80) -/

section

variable {s : State} {rs : RegIdx} {imm : BitVec 16} {k : WindowKind} {o : Nat}

theorem byteOf_storageWord (s : State) (hk : isStorage k = true) (o : Nat) {i : Nat} (hi : i < 4) :
    byteOf (windowRead s k o .word).1 i = s.storedByte k (o + i) :=
  (windowRead_storage hk o .word).2.1 i hi

/-- The loads from RAM and BIOS take the low bytes of the word stored there. -/
theorem everyLoad_storage (hr : resolve s (effectiveAddress s rs imm) = some (k, o)) (hk : isStorage k = true)
    (rt : RegIdx) : EveryLoad s rt rs imm (fun n => s.charge (s.latency (effectiveAddress s rs imm) n false))
      (fun _ => (windowRead s k o .word).1) := by
  refine everyLoad_congr (everyLoad_mapped hr rt) (fun n => ?_) fun n j hj => ?_
  · rw [(windowRead_storage hk o n).1]
  · have hn : n.bytes ≤ 4 := by cases n <;> decide
    rw [(windowRead_storage hk o n).2.1 j hj, byteOf_storageWord s hk o (by omega)]

/-- LWL and LWR from RAM and BIOS merge the aligned word stored there. -/
theorem everyMergedLoad_storage (hr : resolve s (alignedWord (effectiveAddress s rs imm)) = some (k, o))
    (hk : isStorage k = true) (rt : RegIdx) : EveryMergedLoad s rt rs imm
      (s.charge (s.latency (alignedWord (effectiveAddress s rs imm)) .word false)) (windowRead s k o .word).1 := by
  have h := everyMergedLoad_mapped hr rt
  rw [(windowRead_storage hk o .word).1] at h
  exact h

end

/-- Settles O20: each load takes the low bytes of the word stored at its address (`witness_loads`). -/
theorem alignedLoads : Obligations.AlignedLoads := by
  refine ⟨fun s rt rs imm k o => ⟨effectiveAddress_toNat s rs imm, fun hr hk => ?_⟩, fun w => ⟨?_, ?_, ?_, ?_, ?_⟩⟩
  · obtain ⟨hlb, hlbu, hlh, hlhu, hlw, _⟩ := everyLoad_storage hr hk rt
    have hbytes := toNat_eq_bytes (windowRead s k o .word).1
    have hb {i : Nat} (hi : i < 4) := byteOf_storageWord s hk o hi
    rw [hb (by decide : 0 < 4)] at hlb hlbu hlh hlhu hbytes
    rw [hb (by decide : 1 < 4)] at hlh hlhu hbytes
    rw [hb (by decide : 2 < 4), hb (by decide : 3 < 4)] at hbytes
    refine ⟨hlb, hlbu, fun ha => ⟨hlh ha, hlhu ha⟩, fun ha => ?_⟩
    obtain ⟨t, ht, hl⟩ := hlw ha
    exact ⟨t, _, ht, hl, hbytes⟩
  all_goals intro ho; simp only [decodeWord, ho]

/-- Settles O21: both merge the bytes of the aligned word stored there into the register (`witness_loads`). -/
theorem unalignedLoads : Obligations.UnalignedLoads := by
  refine ⟨fun s rt rs imm k o => ⟨alignedWord_toNat _, fun hr hk => ?_⟩, fun w => ⟨?_, ?_⟩⟩
  · obtain ⟨⟨t, v, ht, hl, hv⟩, ⟨t', v', ht', hl', hv'⟩⟩ := everyMergedLoad_storage hr hk rt
    refine ⟨⟨t, v, ht, hl, fun j hj => ?_⟩, ⟨t', v', ht', hl', fun j hj => ?_⟩⟩
    · exact (hv j hj).trans (ite_congr rfl (fun _ => byteOf_storageWord s hk o (by omega)) fun _ => rfl)
    · exact (hv' j hj).trans (ite_congr rfl (fun _ => byteOf_storageWord s hk o (by omega)) fun _ => rfl)
  all_goals intro ho; simp only [decodeWord, ho]

/-! ## Stores to RAM (R81) -/

section

variable {s : State} {rs : RegIdx} {imm : BitVec 16} {o : Nat}

/-- An aligned store to RAM leaves the low bytes of its value there. -/
theorem exists_storedRam (hw : Memory.wf Config.ramSize s.ram = true)
    (hi : s.params.iscDropsStores = true → s.isc = false) {ea : Word} {n : Width} (hm : misaligned ea n = false)
    (hr : resolve s ea = some (.ram, o)) (v : Word) :
    ∃ t, storeMem ea n v s = .next t ∧ StoredRam (s.charge (s.latency ea n true)) t o n.bytes (byteOf v) :=
  ⟨_, storeMem_ram hm hi hr, storedRam_writeLE (s := s.charge (s.latency ea n true)) hw o n v⟩

/-- SWL and SWR to RAM write back the aligned word, merged from its bytes in RAM and those of the register. -/
theorem everyMergedStore_ram (hw : Memory.wf Config.ramSize s.ram = true)
    (hi : s.params.iscDropsStores = true → s.isc = false)
    (hr : resolve s (alignedWord (effectiveAddress s rs imm)) = some (.ram, o)) (rt : RegIdx) :
    EveryMergedStore s rt rs imm (windowRead s .ram o .word).1 fun x out => ∃ t, out = .next t ∧
      StoredRam ((s.charge (s.latency (alignedWord (effectiveAddress s rs imm)) .word false)).charge
        (s.latency (alignedWord (effectiveAddress s rs imm)) .word true)) t o 4 (byteOf x) :=
  everyMergedStore_of hr fun x => exists_storedRam (s := s.charge _) hw hi (misaligned_alignedWord _) hr x

end

/-- Settles O22: each is an aligned store of `x[rt]` (`witness_stores`). -/
theorem alignedStores : Obligations.AlignedStores := by
  refine ⟨fun s rt rs imm o hw hi hr => ⟨?_, fun ha => ?_, fun ha => ?_⟩, fun w => ⟨?_, ?_, ?_⟩⟩
  · exact exists_storedRam hw hi (misaligned_eq_false (n := .byte) (Nat.mod_one _)) hr _
  · exact exists_storedRam hw hi (misaligned_eq_false (n := .half) ha) hr _
  · exact exists_storedRam hw hi (misaligned_eq_false (n := .word) ha) hr _
  all_goals intro ho; simp only [decodeWord, ho]

/-- Settles O23: the word written back differs from the word in RAM in the register's bytes only (`witness_stores`). -/
theorem unalignedStores : Obligations.UnalignedStores := by
  refine ⟨fun s rt rs imm o hw hi hr => ?_, fun w => ⟨?_, ?_⟩⟩
  · have hl : (effectiveAddress s rs imm).toNat % 4 < 4 := Nat.mod_lt _ (by decide)
    have hb {i : Nat} (hi : i < 4) := byteOf_storageWord s (k := .ram) rfl o hi
    obtain ⟨⟨x, ⟨t, ht, hs⟩, hx⟩, ⟨x', ⟨t', ht', hs'⟩, hx'⟩⟩ := everyMergedStore_ram hw hi hr rt
    refine ⟨⟨t, ht, StoredRam.narrow (a := 0) (by omega) hs (fun i hlt => ?_) fun i hlt hn => ?_⟩,
      ⟨t', ht', StoredRam.narrow (by omega) hs' (fun i hlt => ?_) fun i hlt hn => ?_⟩⟩
    · rw [Nat.zero_add]
      exact (hx i (by omega)).trans (if_pos (by omega))
    · exact ((hx i hlt).trans (if_neg (by omega))).trans (hb hlt)
    · exact ((hx' _ (by omega)).trans (if_pos (by omega))).trans (by rw [Nat.add_sub_cancel_left])
    · exact ((hx' i hlt).trans (if_neg (by omega))).trans (hb hlt)
  all_goals intro ho; simp only [decodeWord, ho]

/-! ## Delayed loads (R243) -/

/-- After an instruction every register reads as it stands, or, after a delayed load, as it stood before it. -/
theorem exec_readReg {i : Instr} {s t : State} (h : exec i s = .next t) : (∀ j, t.readReg j = t.gpr j) ∨
    s.params.loadDelay = true ∧ i.mnemonic ∈ loadMnemonics ∧ ∀ j, t.readReg j = s.gpr j := by
  have he := exec_cases i s
  rw [h] at he
  generalize ho : Host.Outcome.next t = o at he
  cases he with
  | completes | transfers | raises =>
    cases ho
    exact .inl fun j => readReg_of_no_stale rfl j
  | faults d => cases ho
  | loads rt v u hf _ hm =>
    obtain ⟨t', ht', hl⟩ := retireLoad_loaded u rt v
    obtain rfl : t = t' := Host.Outcome.next.inj (ho.trans ht')
    have hreads := hl.reads
    rw [hf.params] at hreads
    by_cases hd : s.params.loadDelay = true
    · have hregs : u.regs = s.regs := by rw [hf.rest]
      exact .inr ⟨hd, hm, fun j => ((hreads j).trans (if_pos hd)).trans (gpr_congr hregs j)⟩
    · exact .inl fun j => (hreads j).trans (if_neg hd)

/-- Settles O31: only a delayed load leaves registers that read otherwise than they stand, and those read as before it
(`witness_DelayedLoad`). -/
theorem delayedLoadLastsOneInstruction : Obligations.DelayedLoadLastsOneInstruction := by
  intro i s t h
  rcases exec_readReg h with hr | ⟨hd, hm, hr⟩
  · exact ⟨fun _ => hr, fun j hj => absurd (hr j) hj⟩
  · refine ⟨fun hc => ?_, fun j _ => hr j⟩
    rcases hc with hoff | hother
    · exact absurd (hoff.symm.trans hd) Bool.false_ne_true
    · exact absurd hm hother

end Sys2Proof
end

section
/-! PROOFS. Coprocessor, system and reserved instructions (spec/45_coprocessor_system.md): the COP0 registers and SR's
stack bit by bit, which words decode to RESERVED, and the requests to the COP2 collaborator. -/

namespace Sys2Proof

open Machine

/-! ## The words of `opcode` 0x10 and 0x12 (R116) -/

theorem decodeWord_cop0 {w : Word} (h : opcodeOf w = 0x10#6) : decodeWord w = decodeCop0 w := by
  simp only [decodeWord, h]

theorem decodeWord_cop2 {w : Word} (h : opcodeOf w = 0x12#6) : decodeWord w = decodeCop2 w := by
  simp only [decodeWord, h]

theorem commandOf_toNat (w : Word) : (commandOf w).toNat = w.toNat % 2 ^ 25 := by
  simp [commandOf]

/-! ## The COP0 registers (R32, R36, R41) -/

/-- The indices of the COP0 registers that are implemented (R41). -/
def cop0Indices : List RegIdx := [3, 5, 6, 7, 8, 9, 11, 12, 13, 14, 15]

theorem readCop0_eq_none {rd : RegIdx} (h : rd ∉ cop0Indices) (s : State) : s.readCop0 rd = none := by
  revert h
  fin_cases rd <;> simp [State.readCop0, cop0Indices]

theorem writeCop0_eq_none {rd : RegIdx} (h : rd ∉ cop0Indices) (s : State) (v : Word) : s.writeCop0 rd v = none := by
  revert h
  fin_cases rd <;> simp [State.writeCop0, cop0Indices]

/-- CAUSE as read: the five fields in their places, every other bit 0 (R35, R36). -/
theorem getLsbD_readCause (s : State) {k : Nat} (hk : k < 32) : s.readCause.getLsbD k =
    if k = 31 then s.cause.bd
    else if 28 ≤ k ∧ k < 30 then s.cause.ce.getLsbD (k - 28)
    else if k = 10 then s.composite
    else if 8 ≤ k ∧ k < 10 then s.cause.ip.getLsbD (k - 8)
    else if 2 ≤ k ∧ k < 7 then s.cause.excCode.getLsbD (k - 2)
    else false := by
  unfold State.readCause
  simp only [BitVec.getLsbD_or, getLsbD_place]
  interval_cases k <;> simp (disch := omega) [BitVec.getLsbD_of_ge]

/-! ## Moves from and to COP0 (R261, R262) -/

theorem exists_loaded_of_readCop0 {s : State} {rd : RegIdx} {v : Word} (h : s.readCop0 rd = some v) (rt : RegIdx) :
    ∃ t, exec (.mfc0 rt rd) s = .next t ∧ Loaded s t rt v := by
  show ∃ t, execMfc0 rt rd s = .next t ∧ _
  rw [execMfc0, h]
  exact retireLoad_loaded s rt v

theorem exec_mfc0_unimplemented {rd : RegIdx} (h : rd ∉ cop0Indices) (s : State) (rt : RegIdx) :
    exec (.mfc0 rt rd) s =
      if s.params.cop0UnimplFaults then raise .reservedInstruction s else retireLoad rt 0 s := by
  show execMfc0 rt rd s = _
  rw [execMfc0, readCop0_eq_none h]

theorem exec_mtc0_unimplemented {rd : RegIdx} (h : rd ∉ cop0Indices) (s : State) (rt : RegIdx) :
    exec (.mtc0 rt rd) s = if s.params.cop0UnimplFaults then raise .reservedInstruction s else retire s := by
  show execMtc0 rt rd s = _
  rw [execMtc0, writeCop0_eq_none h]

/-- Settles O37: each index delivers what `readCop0` says, and CAUSE is read bit by bit. -/
theorem moveFromCop0 : Obligations.MoveFromCop0 := by
  refine ⟨fun s rt => ⟨fun p hp => ?_, ?_, fun rd hrd => ⟨fun hf => ?_, fun hf => ?_⟩⟩, fun w ho hrs => ?_⟩
  · refine exists_loaded_of_readCop0 ?_ rt
    revert p
    simp [State.readCop0]
  · obtain ⟨t, ht, hl⟩ := exists_loaded_of_readCop0 (s := s) (rd := 13) rfl rt
    have hbit {k : Nat} (hk : k < 32) := getLsbD_readCause s hk
    refine ⟨t, s.readCause, ht, hl, hbit (by decide), fun k hk => ?_, ?_, fun k hk => ?_, fun k hk => ?_,
      fun k hk => ?_⟩
    · rw [hbit (by omega), if_neg (by omega), if_pos (by omega), Nat.add_sub_cancel_left]
    · rw [← composite_iff, hbit (by decide)]
      rfl
    · rw [hbit (by omega), if_neg (by omega), if_neg (by omega), if_neg (by omega), if_pos (by omega),
        Nat.add_sub_cancel_left]
    · rw [hbit (by omega), if_neg (by omega), if_neg (by omega), if_neg (by omega), if_neg (by omega),
        if_pos (by omega), Nat.add_sub_cancel_left]
    · rw [hbit (by omega), if_neg (by omega), if_neg (by omega), if_neg (by omega), if_neg (by omega),
        if_neg (by omega)]
  · rw [exec_mfc0_unimplemented hrd, if_pos hf, raise_eq]
  · rw [exec_mfc0_unimplemented hrd, hf, if_neg Bool.false_ne_true]
    exact retireLoad_loaded s rt 0
  · rw [decodeWord_cop0 ho, decodeCop0, if_pos hrs]

/-- Settles O38: an implemented index stores what `writeCop0` says, any other raises or does nothing. -/
theorem moveToCop0 : Obligations.MoveToCop0 := by
  refine ⟨fun s rt => ⟨rfl, rfl, rfl, rfl, rfl, rfl, rfl, ⟨_, rfl, by simp, by simp⟩, fun rd hrd => ?_,
    fun rd hrd => ⟨fun hf => ?_, fun hf => ?_⟩⟩, fun w ho hrs => ?_⟩
  · simp only [List.mem_cons, List.not_mem_nil, or_false] at hrd
    rcases hrd with rfl | rfl | rfl <;> rfl
  · rw [exec_mtc0_unimplemented hrd, if_pos hf, raise_eq]
  · rw [exec_mtc0_unimplemented hrd, hf, if_neg Bool.false_ne_true, retire_eq]
  · rw [decodeWord_cop0 ho, decodeCop0, hrs, if_neg (by decide), if_pos rfl]

/-! ## SR's stack (R263, R310) -/

theorem getLsbD_srPop (sr : Word) {k : Nat} (hk : k < 32) :
    (srPop sr).getLsbD k = if k < 4 then sr.getLsbD (k + 2) else sr.getLsbD k := by
  unfold srPop
  interval_cases k <;> simp

theorem getLsbD_srPush (sr : Word) {k : Nat} (hk : k < 32) : (srPush sr).getLsbD k =
    if k < 2 then false else if k < 6 then sr.getLsbD (k - 2) else sr.getLsbD k := by
  unfold srPush
  interval_cases k <;> simp

/-- The pop gives back what the push moved up; the pair the push lost, bits 5:4, stays as the old bits 3:2. -/
theorem getLsbD_srPop_srPush (sr : Word) {k : Nat} (hk : k < 32) : (srPop (srPush sr)).getLsbD k =
    if k = 4 ∨ k = 5 then sr.getLsbD (k - 2) else sr.getLsbD k := by
  rw [getLsbD_srPop _ hk]
  by_cases h4 : k < 4
  · rw [if_pos h4, getLsbD_srPush _ (by omega), if_neg (by omega), if_pos (by omega), if_neg (by omega),
      Nat.add_sub_cancel]
  · rw [if_neg h4, getLsbD_srPush _ hk, if_neg (by omega)]
    exact if_congr (by omega) rfl rfl

/-- Settles O39: RFE is the pop of SR, and exception entry its push (`witness_ReturnFromException`). -/
theorem returnFromException : Obligations.ReturnFromException := by
  refine ⟨fun s => ⟨_, rfl, fun k => getLsbD_srPop s.sr⟩, fun s t e h k hk => ?_, fun w ho hrs hf => ?_⟩
  · obtain rfl := Host.Outcome.next.inj h
    exact getLsbD_srPop_srPush s.sr hk
  · have hne {r : RegIdx} (hr : r.val < 16) : rsOf w ≠ r := by rintro rfl; omega
    rw [decodeWord_cop0 ho, decodeCop0, if_neg (hne (by decide)), if_neg (hne (by decide)), bit25,
      decide_eq_true hrs, hf]
    rfl

/-! ## The words that decode to RESERVED (R118)

Where a decoder falls through to RESERVED, the code it reads is none of those it has compared it with. -/

theorem decodeSpecial_eq_reserved {w v : Word} (h : decodeSpecial w = .reserved v) :
    !(specialFuncts.contains (functOf w).toNat) ∧ v = w := by
  unfold decodeSpecial at h
  split at h
  case h_29 =>
    refine ⟨?_, (Instr.reserved.inj h).symm⟩
    simp only [imp_false] at *
    simp [specialFuncts, BitVec.toNat_eq_nat, *]
  all_goals cases h

theorem decodeRegimm_eq_reserved {w v : Word} (h : decodeRegimm w = .reserved v) :
    !([0x00, 0x01, 0x10, 0x11].contains (rtOf w).val) ∧ v = w := by
  unfold decodeRegimm at h
  split at h
  case h_5 =>
    refine ⟨?_, (Instr.reserved.inj h).symm⟩
    generalize rtOf w = rt at *
    revert rt
    decide
  all_goals cases h

theorem decodeCop0_eq_reserved {w v : Word} (h : decodeCop0 w = .reserved v) :
    !(rsOf w = 0x00 || rsOf w = 0x04 || (w.getLsbD 25 && functOf w == 0x10#6)) ∧ v = w := by
  unfold decodeCop0 at h
  split_ifs at h with hmf hmt hrfe
  rw [decide_eq_false hmf, decide_eq_false hmt, Bool.eq_false_iff.mpr hrfe]
  exact ⟨rfl, (Instr.reserved.inj h).symm⟩

theorem decodeCop2_eq_reserved {w v : Word} (h : decodeCop2 w = .reserved v) :
    !(rsOf w = 0x00 || rsOf w = 0x02 || rsOf w = 0x04 || rsOf w = 0x06 || w.getLsbD 25) ∧ v = w := by
  unfold decodeCop2 at h
  split_ifs at h with hmf hcf hmt hct hc
  rw [decide_eq_false hmf, decide_eq_false hcf, decide_eq_false hmt, decide_eq_false hct, Bool.eq_false_iff.mpr hc]
  exact ⟨rfl, (Instr.reserved.inj h).symm⟩

/-- The converse of `decodeWord_reserved`: RESERVED carries the word it was decoded from, a reserved one. -/
theorem decodeWord_eq_reserved {w v : Word} (h : decodeWord w = .reserved v) : reservedWord w = true ∧ v = w := by
  rw [reservedWord_eq]
  unfold decodeWord at h
  split at h
  case h_1 ho => rw [ho]; exact decodeSpecial_eq_reserved h
  case h_2 ho => rw [ho]; exact decodeRegimm_eq_reserved h
  case h_17 ho => rw [ho]; exact decodeCop0_eq_reserved h
  case h_19 ho => rw [ho]; exact decodeCop2_eq_reserved h
  case h_35 =>
    have hop : opcodeOf w ∉ groupOpcodes ∧ !(plainOpcodes.contains (opcodeOf w).toNat) := by
      simp only [imp_false] at *
      simp [groupOpcodes, plainOpcodes, BitVec.toNat_eq_nat, *]
    obtain ⟨hgroup, hplain⟩ := hop
    simp only [groupOpcodes, List.mem_cons, List.not_mem_nil, or_false, not_or] at hgroup
    obtain ⟨hspecial, hregimm, hcop0, hcop2⟩ := hgroup
    rw [if_neg hspecial, if_neg hregimm, if_neg hcop0, if_neg hcop2]
    exact ⟨hplain, (Instr.reserved.inj h).symm⟩
  all_goals cases h

/-- Settles O40: all three are exception entry alone, and the decoder gives RESERVED to the reserved words only. -/
theorem alwaysRaising : Obligations.AlwaysRaising := by
  refine ⟨fun s => ⟨raise_eq s _, raise_eq s _, fun _ => raise_eq s _⟩, fun w => ⟨fun ho => ?_,
    ⟨decodeWord_reserved, fun h => (decodeWord_eq_reserved h).1⟩, fun v h => (decodeWord_eq_reserved h).2⟩⟩
  rw [decodeWord_special ho]
  refine ⟨?_, ?_⟩ <;> intro hf <;> simp only [decodeSpecial, hf]

/-! ## COP1, COP2 and COP3 (R266 to R275) -/

/-- Settles O41: both are Commit alone. -/
theorem coprocessorNoOps : Obligations.CoprocessorNoOps := by
  refine ⟨fun s => ⟨retire_eq s, retire_eq s⟩, fun w => ⟨?_, ?_⟩⟩
  all_goals intro ho; simp only [decodeWord, ho]

/-- Settles O42: each is Commit, of a load for the two reads, after one request to the collaborator. -/
theorem cop2Port : Obligations.Cop2Port := by
  refine ⟨fun s rt rd c => ⟨?_, ?_, rfl, rfl, rfl⟩, fun w ho => ?_⟩
  · exact retireLoad_loaded (s.tell (.cop2ReadData rd)) rt _
  · exact retireLoad_loaded (s.tell (.cop2ReadCtrl rd)) rt _
  · rw [decodeWord_cop2 ho]
    refine ⟨?_, ?_, ?_, ?_, fun hc => ?_⟩
    · intro hrs; rw [decodeCop2, if_pos hrs]
    · intro hrs; rw [decodeCop2, hrs]; rfl
    · intro hrs; rw [decodeCop2, hrs]; rfl
    · intro hrs; rw [decodeCop2, hrs]; rfl
    · exact ⟨_, decodeCop2_of_bit25 (bit25 w ▸ decide_eq_true hc), commandOf_toNat w⟩

/-- Every aligned form of a store to RAM leaves the low bytes of its value there, SWC2 the collaborator's answer. -/
theorem everyStore_ram {s : State} {rs : RegIdx} {imm : BitVec 16} {o : Nat}
    (hw : Memory.wf Config.ramSize s.ram = true) (hi : s.params.iscDropsStores = true → s.isc = false)
    (hr : resolve s (effectiveAddress s rs imm) = some (.ram, o)) (rt : RegIdx) :
    EveryStore s rt rs imm fun u n x out => ∃ t, out = .next t ∧
      StoredRam (u.charge (s.latency (effectiveAddress s rs imm) n true)) t o n.bytes (byteOf x) :=
  everyStore_of fun log _ x ha => exists_storedRam (s := { s with portLog := log }) hw hi (misaligned_eq_false ha) hr x

/-- Settles O43: LWC2 is the load and SWC2 the store of a word (`witness_loads`, `witness_stores`). -/
theorem cop2LoadStore : Obligations.Cop2LoadStore := by
  refine ⟨fun s rt rs imm k o ha hr => ⟨fun hk => ?_, fun hk hw hi => ?_⟩, fun w => ⟨?_, ?_⟩⟩
  · exact ⟨_, (everyLoad_storage hr hk rt).lwc2 ha, fun j hj => byteOf_storageWord s hk o hj⟩
  · subst hk
    exact (everyStore_ram hw hi hr rt).swc2 ha
  all_goals intro ho; simp only [decodeWord, ho]

end Sys2Proof
end

section
/-! PROOFS. Exceptions, interrupts, DMA and time (spec/60_exceptions.md): the accesses that raise, exception entry and the
interrupt sample, the registers of the two core-owned windows, the DMA arbiter, the clock and the end of a step. -/

namespace Sys2Proof

open Machine

/-! ## Accesses that raise (R303, R304, R306) -/

section

variable {s : State} {e : Exc} {ea : Word} {n : Width} {rt rs : RegIdx} {imm : BitVec 16}

theorem loadReg_of_raised (h : memRead s ea n = .raised e s) (ext : Word → Word) :
    loadReg rt ea n ext s = .next (afterRaise e s) := by
  rw [loadReg, h]
  exact raise_eq s e

theorem exec_lwc2_of_raised (h : memRead s (effectiveAddress s rs imm) .word = .raised e s) :
    exec (.lwc2 rt rs imm) s = .next (afterRaise e s) := by
  show execLwc2 rt rs imm s = _
  rw [execLwc2, h]
  exact raise_eq s e

theorem storeMem_of_raised {v : Word} (h : memWrite s ea n v = .raised e s) :
    storeMem ea n v s = .next (afterRaise e s) := by
  rw [storeMem, h]
  exact raise_eq s e

theorem mergeMem_of_raised (h : memRead s (alignedWord ea) .word = .raised e s) (merge : Word → Word) :
    mergeMem ea merge s = .next (afterRaise e s) := by
  rw [mergeMem, h]
  exact raise_eq s e

end

/-- Settles O24: the alignment test comes before anything else an access does (`witness_MisalignedAccesses`). -/
theorem misalignedAccesses : Obligations.MisalignedAccesses := by
  intro s rt rs imm ea
  refine ⟨fun h => ?_, fun h => ?_⟩
  · have hm := (misaligned_iff ea .half).mpr h
    have hload := memRead_misaligned (s := s) hm
    exact ⟨loadReg_of_raised hload _, loadReg_of_raised hload _, storeMem_of_raised (memWrite_misaligned hm)⟩
  · have hm := (misaligned_iff ea .word).mpr h
    have hload := memRead_misaligned (s := s) hm
    have hswc2 : exec (.swc2 rt rs imm) s = raise (.addressErrorStore ea) s := if_pos hm
    exact ⟨loadReg_of_raised hload _, exec_lwc2_of_raised hload, storeMem_of_raised (memWrite_misaligned hm),
      hswc2.trans (raise_eq s _)⟩

/-- Settles O25: an aligned access resolves its address before it does anything else, a merged store by its read
(`witness_UnmappedAccesses`). -/
theorem unmappedAccesses : Obligations.UnmappedAccesses := by
  intro s rt rs imm ea fails
  refine ⟨fun hr => ?_, fun hr => ?_⟩
  · have hload {n : Width} (ha : ea.toNat % n.bytes = 0) : memRead s ea n = .raised .busErrorData s :=
      memRead_unmapped (misaligned_eq_false ha) hr
    have hbyte := hload (n := .byte) (Nat.mod_one _)
    refine ⟨loadReg_of_raised hbyte _, loadReg_of_raised hbyte _,
      fun ha => ⟨loadReg_of_raised (hload (n := .half) ha) _, loadReg_of_raised (hload (n := .half) ha) _⟩,
      fun ha => ⟨loadReg_of_raised (hload (n := .word) ha) _, exec_lwc2_of_raised (hload (n := .word) ha)⟩,
      fun hi => ?_⟩
    have hstore : EveryStore s rt rs imm fun u _ _ out => out = .next (afterRaise .busErrorData u) :=
      everyStore_of fun _ _ _ ha => storeMem_of_raised (memWrite_unmapped (misaligned_eq_false ha) hi hr)
    exact ⟨hstore.sb, hstore.sh, fun ha => ⟨hstore.sw ha, hstore.swc2 ha⟩⟩
  · have hload := memRead_unmapped (misaligned_alignedWord ea) hr
    exact ⟨loadReg_of_raised hload _, loadReg_of_raised hload _, mergeMem_of_raised hload _,
      mergeMem_of_raised hload _⟩

/-! ## Exception entry (R310, R313, R314) -/

/-- Settles O44: each field is the one `enterException` writes, SR by the push (`witness_ExceptionEntry`). -/
theorem exceptionEntry : Obligations.ExceptionEntry := by
  intro e s t
  refine ⟨rfl, fun hb => ⟨if_neg (by rw [hb]; exact Bool.false_ne_true), hb⟩, fun hb => ⟨?_, hb⟩, rfl, rfl, ?_,
    fun k hk => getLsbD_srPush s.sr hk, rfl, rfl⟩
  · have hepc : t.epc = s.pc - 4 := if_pos hb
    rw [hepc]
    exact toNat_sub_emod s.pc 4
  · cases e <;> rfl

/-! ## Interrupts (R319, R320) -/

/-- `IP` (R319): the composite signal above CAUSE.IP[1:0], the other bits 0. -/
theorem getLsbD_ip (s : State) {k : Nat} (hk : k < 8) :
    s.ip.getLsbD k = if k = 2 then s.composite else s.cause.ip.getLsbD k := by
  unfold State.ip
  interval_cases k <;> simp

/-- A word is 0 unless some bit of it is 1. -/
theorem bne_zero_iff_exists_bit {n : Nat} (v : BitVec n) : (v != 0) = true ↔ ∃ k, v.getLsbD k = true := by
  rw [bne_iff_ne]
  constructor
  · exact fun h => Nat.exists_testBit_of_ne_zero fun h0 => h (BitVec.eq_of_toNat_eq h0)
  · rintro ⟨k, hk⟩ rfl
    exact Bool.false_ne_true (BitVec.getLsbD_zero.symm.trans hk)

/-- IP[2] is the composite signal and IP[1:0] are CAUSE's; no other bit of IP can be 1. -/
theorem ip_and_im_iff (s : State) : (s.ip &&& s.im != 0) = true ↔
    s.composite = true ∧ s.sr.getLsbD 10 = true ∨ s.cause.ip.getLsbD 0 = true ∧ s.sr.getLsbD 8 = true ∨
      s.cause.ip.getLsbD 1 = true ∧ s.sr.getLsbD 9 = true := by
  have hbit {k : Nat} (hk : k < 8) : (s.ip &&& s.im).getLsbD k = true ↔
      (if k = 2 then s.composite else s.cause.ip.getLsbD k) = true ∧ s.sr.getLsbD (8 + k) = true := by
    rw [BitVec.getLsbD_and, getLsbD_ip s hk, State.im, BitVec.getLsbD_extractLsb', decide_eq_true hk, Bool.true_and,
      Bool.and_eq_true]
  rw [bne_zero_iff_exists_bit]
  constructor
  · rintro ⟨k, h⟩
    have hk : k < 8 := BitVec.lt_of_getLsbD h
    obtain ⟨hip, him⟩ := (hbit hk).mp h
    interval_cases k
    · exact .inr (.inl ⟨hip, him⟩)
    · exact .inr (.inr ⟨hip, him⟩)
    · exact .inl ⟨hip, him⟩
    all_goals exact absurd (BitVec.lt_of_getLsbD hip) (by decide)
  · rintro (h | h | h)
    · exact ⟨2, (hbit (by decide)).mpr h⟩
    · exact ⟨0, (hbit (by decide)).mpr h⟩
    · exact ⟨1, (hbit (by decide)).mpr h⟩

/-- Settles O45: `SR.IEc` is bit 0, and what is pending and enabled is read bit by bit. -/
theorem interruptCondition : Obligations.InterruptCondition := by
  intro s
  rw [State.intPending, Bool.and_eq_true, ip_and_im_iff, composite_iff]
  rfl

theorem sampleInterrupt_of_pending {s : State} (h : s.intPending = true) :
    sampleInterrupt s = enterException .interrupt s := if_pos h

theorem sampleInterrupt_of_not_pending {s : State} (h : s.intPending = false) : sampleInterrupt s = s :=
  if_neg (by rw [h]; exact Bool.false_ne_true)

/-- Entry clears `SR.IEc`, so the handler's first instruction runs before the next interrupt. -/
theorem intPending_enterException (e : Exc) (s : State) : (enterException e s).intPending = false := by
  have hiec : (enterException e s).iec = false := getLsbD_srPush s.sr (k := 0) (by decide)
  rw [State.intPending, hiec, Bool.false_and]

theorem Runnable.enterException {s : State} (h : Runnable s) (hp : s.params.wf = true) (e : Exc) :
    Runnable (enterException e s) where
  pc_aligned := aligned4_vector hp
  npc_aligned := aligned4_add_four (aligned4_vector hp)
  next_natural := h.next_natural

/-- Settles O46: the sample enters the interrupt, and of the state after entry it takes none (`witness_step`). -/
theorem interruptTakenBeforeFetch : Obligations.InterruptTakenBeforeFetch := by
  intro s hr hp hi
  have hn := intPending_enterException .interrupt s
  refine ⟨?_, hn⟩
  rw [step_of_runnable hr, step_of_runnable (hr.enterException hp .interrupt), sampleInterrupt_of_pending hi,
    sampleInterrupt_of_not_pending hn]

theorem instructionCycle_unmapped {s : State} (h : resolve s s.pc = none) :
    instructionCycle s = .next (afterRaise .busErrorFetch s) := by
  unfold instructionCycle fetch
  rw [h]
  exact raise_eq s .busErrorFetch

/-- Settles O47: with no interrupt due the cycle is BusErrorFetch's entry (`witness_step`). -/
theorem fetchFromNowhere : Obligations.FetchFromNowhere := by
  intro s hr hi hpc
  rw [step_of_runnable hr, sampleInterrupt_of_not_pending hi, instructionCycle_unmapped hpc]

/-! ## The interrupt controller (R335, R336) -/

/-- Settles O32: the window answers the lanes of its register, and each store is one bus write, SWL's and SWR's in the
state after the read (`witness_InterruptControllerRegisters`, `witness_IntcRegIs`). -/
theorem interruptControllerRegisters : Obligations.InterruptControllerRegisters := by
  intro s rt rs imm o ea wa u
  refine ⟨fun hr => ⟨fun r hreg => ?_, fun hi => ?_⟩, fun hr r hreg => ?_⟩
  · exact ⟨intcRead s o, intcRead_lanes hreg, everyLoad_mapped hr rt⟩
  · exact everyStore_of fun log n x ha => storeMem_intc (misaligned_eq_false ha) hi hr rfl
  · exact ⟨intcRead s o .word, intcRead_lanes hreg .word, everyMergedLoad_mapped hr rt,
      fun hi => everyMergedStore_of hr fun x => storeMem_intc (misaligned_alignedWord _) hi hr rfl⟩

/-! ## The DMA registers (R340, R345) -/

section

variable {s : State} {rs : RegIdx} {imm : BitVec 16} {o : Nat}

/-- A read of the DMA block changes nothing when DICR is consistent (R90). -/
theorem dmaRead_state (hd : s.dicr.getLsbD 31 = dmaIrq s.dicr) (n : Width) : (windowRead s .dma o n).2 = s :=
  windowRead_state (fun _ => hd) o n

theorem everyLoad_dma (hd : s.dicr.getLsbD 31 = dmaIrq s.dicr)
    (hr : resolve s (effectiveAddress s rs imm) = some (.dma, o)) (rt : RegIdx) :
    EveryLoad s rt rs imm (fun n => s.charge (s.latency (effectiveAddress s rs imm) n false))
      fun n => (dmaRead s o n).1 :=
  everyLoad_congr (everyLoad_mapped hr rt) (fun n => by rw [dmaRead_state hd]) fun _ _ _ => rfl

theorem everyMergedLoad_dma (hd : s.dicr.getLsbD 31 = dmaIrq s.dicr)
    (hr : resolve s (alignedWord (effectiveAddress s rs imm)) = some (.dma, o)) (rt : RegIdx) :
    EveryMergedLoad s rt rs imm (s.charge (s.latency (alignedWord (effectiveAddress s rs imm)) .word false))
      (dmaRead s o .word).1 := by
  have h := everyMergedLoad_mapped hr rt
  rw [dmaRead_state hd] at h
  exact h

theorem everyMergedStore_dma {P : Word → Result → Prop} (hd : s.dicr.getLsbD 31 = dmaIrq s.dicr)
    (hr : resolve s (alignedWord (effectiveAddress s rs imm)) = some (.dma, o)) (rt : RegIdx)
    (h : ∀ x, P x (storeMem (alignedWord (effectiveAddress s rs imm)) .word x
      (s.charge (s.latency (alignedWord (effectiveAddress s rs imm)) .word false)))) :
    EveryMergedStore s rt rs imm (dmaRead s o .word).1 P :=
  everyMergedStore_of hr fun x => by
    rw [dmaRead_state hd]
    exact h x

end

/-- Settles O33: each store is one bus write to DICR, which `storeMem_dicr` gives bit by bit (`witness_DicrWrite`). -/
theorem dicrWrite : Obligations.DicrWrite := by
  intro s rt rs imm o ea wa hi ho
  refine ⟨fun hr => everyStore_of fun log n x ha => ?_, fun hr hd => ?_⟩
  · exact storeMem_dicr (misaligned_eq_false ha) hi hr rfl ho
  · exact ⟨_, dmaRead_lanes hd (.inr (.inr (.inl ⟨ho, rfl⟩))) .word, everyMergedStore_dma hd hr rt fun x =>
      storeMem_dicr (misaligned_alignedWord _) hi hr rfl ho⟩

/-- Settles O34: a read is the lanes of the register and a store the register's own write, for every place of the map
(`witness_dma_registers`, `witness_DmaRegIs`). -/
theorem dmaRegisterMap : Obligations.DmaRegisterMap := by
  intro s rt rs imm o r ea wa u hd hreg
  have hlanes := dmaRead_lanes hd hreg
  refine ⟨fun hr => ⟨⟨_, hlanes, everyLoad_dma hd hr rt⟩, fun hi => everyStore_of fun log n x ha => ?_⟩,
    fun hr => ⟨_, hlanes .word, everyMergedLoad_dma hd hr rt, fun hi => everyMergedStore_dma hd hr rt fun x => ?_⟩⟩
  · have hm := misaligned_eq_false ha
    exact ⟨storeMem_dmaStored hm hi hr rfl hd, storeMem_dmaStarted hm hi hr rfl hd⟩
  · have hm := misaligned_alignedWord ea
    exact ⟨storeMem_dmaStored hm hi hr rfl hd, storeMem_dmaStarted hm hi hr rfl hd⟩

/-! ## The DMA arbiter (R343, R344) -/

theorem dmaReady_eq_false_iff (s : State) (c : Channel) : dmaReady s c = false ↔ ¬ ChannelReady s c := by
  rw [← dmaReady_iff, Bool.not_eq_true]

/-- Settles O35: the loop turns while a channel is ready and each turn is `dmaServe`
(`witness_dma_registers`, `witness_ChannelReady`). -/
theorem dmaRunsToIdle : Obligations.DmaRunsToIdle := by
  refine ⟨?_, fun s => ⟨fun h => ?_, fun c => dmaService_of_pick, fun c => ?_, _, _, _, _, _, dmaService_frame s⟩,
    dmaServe_served⟩
  · intro s rt rs imm o ea hd hi hr
    refine everyStore_of fun log n x ha => ?_
    exact storeMem_dmaStarted (misaligned_eq_false ha) hi hr rfl hd
  · exact dmaService_of_idle fun c => (dmaReady_eq_false_iff s c).mpr (h c)
  · exact (dmaReady_eq_false_iff _ c).mp (dmaService_idle s c)

/-- The arbiter serves `c` before `d`, or they are one channel: the smaller priority value, among equals the larger
channel. -/
def ServedBefore (s : State) (c d : Channel) : Prop :=
  (dmaPriority s c).toNat < (dmaPriority s d).toNat ∨
    (dmaPriority s c).toNat = (dmaPriority s d).toNat ∧ d.val ≤ c.val

theorem ServedBefore.refl (s : State) (c : Channel) : ServedBefore s c c := .inr ⟨rfl, le_rfl⟩

theorem ServedBefore.trans {s : State} {b c d : Channel} (h : ServedBefore s b c) (h' : ServedBefore s c d) :
    ServedBefore s b d := by
  unfold ServedBefore at *
  omega

theorem dmaPriority_toNat (s : State) (c : Channel) :
    (dmaPriority s c).toNat = s.dpcr.toNat / 2 ^ (4 * c.val) % 8 := by
  rw [dmaPriority, BitVec.extractLsb'_toNat, Nat.shiftRight_eq_div_pow]

/-- Of channels in rising order the fold keeps the one served first. -/
theorem servedBefore_of_foldl {s : State} {c : Channel} (l : List Channel) : ∀ {b : Channel},
    (b :: l).Pairwise (· < ·) → l.foldl (dmaBetter s) (some b) = some c → ∀ d ∈ b :: l, ServedBefore s c d := by
  induction l with
  | nil =>
    intro b _ h d hd
    obtain rfl : b = c := Option.some.inj h
    rw [List.mem_singleton.mp hd]
    exact .refl s b
  | cons x l ih =>
    intro b hp h
    rw [List.foldl_cons] at h
    obtain ⟨hb, hx⟩ := List.pairwise_cons.mp hp
    have hbx : b.val < x.val := hb x List.mem_cons_self
    by_cases hle : dmaPriority s x ≤ dmaPriority s b
    · rw [show dmaBetter s (some b) x = some x from if_pos hle] at h
      have hc := ih hx h
      have hxb : ServedBefore s x b := by
        have : (dmaPriority s x).toNat ≤ (dmaPriority s b).toNat := hle
        unfold ServedBefore
        omega
      exact List.forall_mem_cons.mpr ⟨(hc x List.mem_cons_self).trans hxb, hc⟩
    · rw [show dmaBetter s (some b) x = some b from if_neg hle] at h
      have hbl : (b :: l).Pairwise (· < ·) :=
        hp.sublist ((List.sublist_cons_self x l).cons_cons b)
      have hc := List.forall_mem_cons.mp (ih hbl h)
      have hbx : ServedBefore s b x := .inl (Nat.lt_of_not_le hle)
      exact List.forall_mem_cons.mpr ⟨hc.1, List.forall_mem_cons.mpr ⟨hc.1.trans hbx, hc.2⟩⟩

theorem servedBefore_of_pick {s : State} {c d : Channel} (h : dmaPick s = some c) (hd : dmaReady s d = true) :
    ServedBefore s c d := by
  have hmem : d ∈ channels.filter (dmaReady s) := List.mem_filter.mpr ⟨mem_channels d, hd⟩
  have hrising : (channels.filter (dmaReady s)).Pairwise (· < ·) := List.Pairwise.filter _ (by decide)
  unfold dmaPick at h
  cases hl : channels.filter (dmaReady s) with
  | nil =>
    rw [hl] at h
    cases h
  | cons b l =>
    rw [hl] at h hmem hrising
    exact servedBefore_of_foldl l hrising h d hmem

/-- Settles O36: the pick is the best of the ready channels, and there is one unless none is ready
(`witness_ChannelReady`). -/
theorem dmaArbitration : Obligations.DmaArbitration := by
  intro s
  refine ⟨fun c hc => ⟨(dmaReady_iff s c).mp (dmaReady_of_pick hc), fun d hd => ?_⟩,
    fun hn d => (dmaReady_eq_false_iff s d).mp (idle_of_pick_none hn d)⟩
  rw [← dmaPriority_toNat, ← dmaPriority_toNat]
  exact servedBefore_of_pick hc ((dmaReady_iff s d).mpr hd)

/-! ## The clock (R351) -/

/-- `t` has the parameters of `s` and, with no latencies, its clock. -/
structure SameTime (s t : State) : Prop where
  params : t.params = s.params
  clk : s.params.latency = [] → t.clk % 2 ^ s.params.clkBits = s.clk % 2 ^ s.params.clkBits

theorem SameTime.trans {s t u : State} (h : SameTime s t) (h' : SameTime t u) : SameTime s u where
  params := h'.params.trans h.params
  clk hl := by
    have hu := h'.clk (by rw [h.params]; exact hl)
    rw [h.params] at hu
    exact hu.trans (h.clk hl)

theorem sameTime_of_bus {s u : State} (h : BusFrame s u) : SameTime s u := ⟨h.params, h.clk⟩

theorem sameTime_enterException (e : Exc) (s : State) : SameTime s (enterException e s) := ⟨rfl, fun _ => rfl⟩

theorem sameTime_afterRaise (e : Exc) (s : State) : SameTime s (afterRaise e s) := ⟨rfl, fun _ => rfl⟩

theorem sameTime_sampleInterrupt (s : State) : SameTime s (sampleInterrupt s) := by
  unfold sampleInterrupt
  split
  · exact sameTime_enterException .interrupt s
  · exact ⟨rfl, fun _ => rfl⟩

theorem sameTime_exec {i : Instr} {s t : State} (h : exec i s = .next t) : SameTime s t := by
  refine ⟨(sameConstants_exec h).params, ?_⟩
  rcases exec_next_cases h with ⟨u, hc⟩ | ⟨e, u, _, hf, rfl⟩
  · rw [hc.rest]
    exact hc.work.clk
  · exact hf.clk

theorem sameTime_instructionCycle {s t : State} (h : instructionCycle s = .next t) : SameTime s t := by
  rcases instructionCycle_next h with ⟨w, u, _, hf, he⟩ | rfl
  · exact (sameTime_of_bus hf).trans (sameTime_exec he)
  · exact sameTime_afterRaise _ s

/-- Settles O52: before its end a step adds nothing to CLK, and the end adds `CYCLES_BASE` (`witness_step_next`). -/
theorem clockAdvance : Obligations.ClockAdvance := by
  intro s t hl ht
  obtain ⟨_, u, hc, hf⟩ := step_next ht
  have h : SameTime s u := (sameTime_sampleInterrupt s).trans (sameTime_instructionCycle hc)
  rw [(stepEnd_of_finishStep hf).clk, h.params, Nat.add_mod, h.clk hl, ← Nat.add_mod]

/-! ## The end of a step (R354, R355) -/

theorem finishStep_short {s : State} (h : (s.charge s.params.cyclesBase).burst < Config.quantum) :
    finishStep s = .next { s.charge s.params.cyclesBase with frameDone := false } := if_neg (Nat.not_le.mpr h)

theorem finishStep_due {s : State} (h : Config.quantum ≤ (s.charge s.params.cyclesBase).burst) :
    finishStep s = syncPass (s.charge s.params.cyclesBase) := if_pos h

/-- Settles O53: from the quantum on the end is the pass, whose loop `syncDevices_spec` gives (`witness_EndOfStep`). -/
theorem endOfStep : Obligations.EndOfStep := by
  intro s u asked reply
  have hasked : askedOf u u.sched = asked :=
    List.map_congr_left fun e _ => congrArg (PortEvent.catchUp e.device) (elapsed_eq u e.lastSync)
  have hreply (i : Nat) : replyOf u u.sched i = reply i := by
    unfold replyOf
    rw [hasked]
    rfl
  obtain ⟨hfault, hpass⟩ := syncDevices_spec u.sched u
  simp only [hasked, hreply] at hfault hpass
  refine ⟨finishStep_short, fun hq => ⟨fun i e he hlt hge => ?_, fun hge => ?_⟩⟩
  · rw [finishStep_due hq, syncPass, hfault i e he hlt hge]
  · obtain ⟨sched, t, fc, hsync, ht, hlength, hsched, hstat, hframe⟩ := hpass hge
    refine ⟨{ t with sched := sched, burst := 0, frameDone := fc }, ?_, ?_, hlength, hsched, hstat, hframe⟩
    · rw [finishStep_due hq, syncPass, hsync]
    · rw [ht]
      rfl

end Sys2Proof
end

section
/-! PROOFS. Reset and the host (spec/70_reset_and_hazards.md): the reset values, the first instruction of the BIOS
image, and the loader of a program image. -/

namespace Sys2Proof

open Machine

/-! ## Reset and construction (R48, R380, R388) -/

theorem hasResetValues_boot (p : Params) (ds : List Device) (bios : Memory) :
    HasResetValues (State.boot p ds bios) := by
  have hdma (c : Channel) : (State.boot p ds bios).dma[c] = ⟨0, 0, 0⟩ := Vector.getElem_replicate c.isLt
  have hsched : ∀ e ∈ (State.boot p ds bios).sched, e.lastSync = 0 ∧ e.next = Config.resetNext e.device := by
    intro e he
    obtain ⟨d, _, rfl⟩ := List.mem_map.mp he
    exact ⟨rfl, rfl⟩
  exact ⟨rfl, rfl, rfl, rfl, rfl, rfl, rfl, rfl, rfl, rfl, rfl, rfl, rfl, rfl, hdma, rfl, rfl, rfl, rfl, hsched⟩

theorem devices_boot (p : Params) (ds : List Device) (bios : Memory) :
    (State.boot p ds bios).sched.map SchedEntry.device = ds := by
  show (ds.map fun d => SchedEntry.mk d 0 (Config.resetNext d)).map SchedEntry.device = ds
  rw [List.map_map]
  exact List.map_id ds

/-- Inside the bytes laid out each index reads as its byte. -/
theorem Machine.Memory.get_load_inside {bs : List Byte} {a j : Nat} {m : Memory}
    (hm : Memory.wfFrom 0 m = true) (hj : j < bs.length) :
    bs[j]? = some ((Memory.load bs a m).get (a + j)) := by
  rw [Memory.get_load bs hm, if_pos (Nat.le_add_right a j), Nat.add_sub_cancel_left, List.getElem?_eq_getElem hj,
    Option.getD_some]

/-- Outside the bytes laid out nothing changes. -/
theorem Machine.Memory.get_load_outside {bs : List Byte} {a q : Nat} {m : Memory} (hm : Memory.wfFrom 0 m = true)
    (hq : q < a ∨ a + bs.length ≤ q) : (Memory.load bs a m).get q = m.get q := by
  rw [Memory.get_load bs hm]
  split
  · rw [List.getElem?_eq_none (by omega), Option.getD_none]
  · rfl

theorem construct_of_length {p : Params} {ds : List Device} {image : List Byte} (h : image.length = 524288) :
    construct p ds image = .ok (State.boot p ds (Memory.load image 0 [])) := if_pos h

theorem construct_of_length_ne {p : Params} {ds : List Device} {image : List Byte} (h : image.length ≠ 524288) :
    construct p ds image = .error .biosSize := if_neg h

theorem construct_eq_ok {p : Params} {ds : List Device} {image : List Byte} {s : State}
    (h : construct p ds image = .ok s) :
    image.length = 524288 ∧ s = State.boot p ds (Memory.load image 0 []) := by
  by_cases hl : image.length = 524288
  · rw [construct_of_length hl] at h
    cases h
    exact ⟨hl, rfl⟩
  · rw [construct_of_length_ne hl] at h
    cases h

theorem bios_get_boot (p : Params) (ds : List Device) {image : List Byte} {j : Nat} (hj : j < image.length) :
    image[j]? = some ((State.boot p ds (Memory.load image 0 [])).bios.get j) := by
  have h := Memory.get_load_inside (bs := image) (a := 0) (m := []) rfl hj
  rw [Nat.zero_add] at h
  exact h

/-- Settles O58: construction and a later reset are both `State.boot`, which has every value of the table
(`witness_construct`). -/
theorem resetValues : Obligations.ResetValues := by
  refine ⟨fun p ds image => ⟨construct_of_length_ne, fun hl => ?_⟩, fun s => ?_⟩
  · exact ⟨_, construct_of_length hl, hasResetValues_boot p ds _, rfl, devices_boot p ds _,
      fun j hj => bios_get_boot p ds (by omega)⟩
  · exact ⟨hasResetValues_boot s.params _ s.bios, rfl, rfl, devices_boot s.params _ s.bios⟩

/-! ## The first instruction (R381) -/

theorem latency_of_nil {s : State} (h : s.params.latency = []) (va : Word) (n : Width) (w : Bool) :
    s.latency va n w = 0 := by
  unfold State.latency latencyOf
  rw [h]
  split <;> rfl

/-- An access at no cost leaves the time as it is, the counters being within their width. -/
theorem charge_zero {s : State} (h : Inv s) : s.charge 0 = s := by
  show { s with clk := (s.clk + 0) % 2 ^ s.params.clkBits, burst := (s.burst + 0) % 2 ^ s.params.clkBits } = s
  rw [Nat.add_zero, Nat.add_zero, Nat.mod_eq_of_lt h.clk_width, Nat.mod_eq_of_lt h.burst_width]

/-- The default reset vector is the first byte of BIOS. -/
theorem resolve_vecReset {s : State} (h : s.params = Params.default) :
    resolve s Params.default.vecReset = some (.bios, 0) :=
  (resolve_default_window (by rw [h]; rfl) (by decide) ⟨.bios, .bios, 0x1FC00000, 0x80000⟩ (by decide)
    (by decide)).trans (by decide)

/-- `SR` after reset disables interrupts. -/
theorem intPending_boot (p : Params) (ds : List Device) (bios : Memory) :
    (State.boot p ds bios).intPending = false := by
  have hiec : (State.boot p ds bios).iec = false := (by decide : (0x00400000#32 : Word).getLsbD 0 = false)
  rw [State.intPending, hiec, Bool.false_and]

theorem storedByte_bios (s : State) {j : Nat} (hj : j < Config.biosSize) : s.storedByte .bios j = s.bios.get j := by
  show s.bios.get (j % Config.biosSize) = s.bios.get j
  rw [Nat.mod_eq_of_lt hj]

/-- Settles O59: the reset vector resolves to the first bytes of BIOS, which are the image's, and the step runs what
they decode to (`witness_construct`). -/
theorem firstInstruction : Obligations.FirstInstruction := by
  intro image s b0 b1 b2 b3 hs htake
  have hinv : Inv s := construct_inv (by decide) hs
  obtain ⟨hlen, hboot⟩ := construct_eq_ok hs
  have hparams : s.params = Params.default := by rw [hboot]; rfl
  have hint : s.intPending = false := by rw [hboot]; exact intPending_boot _ _ _
  have hpc : resolve s s.pc = some (.bios, 0) := by
    have : s.pc = Params.default.vecReset := by rw [hboot]; rfl
    rw [this, resolve_vecReset hparams]
  have hcost : s.latency s.pc .word false = 0 := latency_of_nil (by rw [hparams]; rfl) _ _ _
  have hbyte : ∀ j, j < 4 → [b0, b1, b2, b3][j]? = some (s.storedByte .bios j) := by
    intro j hj
    rw [← htake, List.getElem?_take_of_lt hj, storedByte_bios s (show j < 524288 by omega), hboot]
    exact bios_get_boot _ _ (by omega)
  obtain rfl := Option.some.inj (hbyte 0 (by decide))
  obtain rfl := Option.some.inj (hbyte 1 (by decide))
  obtain rfl := Option.some.inj (hbyte 2 (by decide))
  obtain rfl := Option.some.inj (hbyte 3 (by decide))
  refine ⟨hint, ?_, ?_⟩
  · rw [fetch_mapped hpc, windowRead_storage_word s rfl 0, (windowRead_storage rfl 0 .word).1, hcost, charge_zero hinv]
  · have hstep := stepRunsDecodedInstruction s .bios 0 _ (runnable_of_inv hinv) hint hpc (.inl ⟨rfl, rfl⟩)
    rw [hcost, show s.afterRead .bios 0 .word = s from rfl, charge_zero hinv] at hstep
    exact hstep

/-! ## The program-image loader (R389) -/

theorem imageBase_eq (h : ImageHeader) : imageBase h = h.dest.toNat % 0x20000000 := physical_eq h.dest

/-- The header asks for bytes outside the window, past the end of RAM, or that the blob does not have. -/
def ImageOutOfBounds (h : ImageHeader) (blob : List Byte) : Prop :=
  0x800000 ≤ imageBase h ∨ 0x200000 < imageBase h % 0x200000 + h.size ∨ blob.length < h.size

/-- What the loader leaves of an image it accepts. -/
def imageLoaded (h : ImageHeader) (blob : List Byte) (s : State) : State :=
  withStackPointer h (State.writeReg
    { s with
      ram := Memory.load (blob.take h.size) (imageBase h % Config.ramSize) s.ram
      pc := h.pc0
      npc := h.pc0 + 4
      bds := false }
    28 h.gp0)

section

variable {h : ImageHeader} {blob : List Byte} (s : State)

theorem loadImage_out_of_bounds (hb : ImageOutOfBounds h blob) : loadImage h blob s = .error .imageBounds := if_pos hb

theorem loadImage_misaligned (hb : ¬ ImageOutOfBounds h blob) (hp : h.pc0.toNat % 4 ≠ 0) :
    loadImage h blob s = .error .imageMisaligned :=
  (if_neg hb).trans (if_pos ((aligned4_eq_false_iff _).mpr hp))

theorem loadImage_accepted (hb : ¬ ImageOutOfBounds h blob) (hp : h.pc0.toNat % 4 = 0) :
    loadImage h blob s = .ok (imageLoaded h blob s) :=
  (if_neg hb).trans (if_neg fun ha => (aligned4_eq_false_iff _).mp ha hp)

end

theorem withStackPointer_eq (h : ImageHeader) (s : State) :
    withStackPointer h s = { s with regs := (withStackPointer h s).regs } := by
  unfold withStackPointer
  split
  · rfl
  · rw [writeReg_eq, writeReg_eq s]

theorem gpr_withStackPointer (h : ImageHeader) (s : State) (j : RegIdx) : (withStackPointer h s).gpr j =
    if h.spBase ≠ 0 ∧ (j = 29 ∨ j = 30) then h.spBase + h.spOff else s.gpr j := by
  unfold withStackPointer
  by_cases hsp : h.spBase = 0
  · rw [if_pos hsp, if_neg fun hc => hc.1 hsp]
  · rw [if_neg hsp, gpr_writeReg, gpr_writeReg]
    by_cases h30 : j = 30
    · rw [if_pos ⟨h30, by decide⟩, if_pos ⟨hsp, .inr h30⟩]
    · by_cases h29 : j = 29
      · rw [if_neg fun hc => h30 hc.1, if_pos ⟨h29, by decide⟩, if_pos ⟨hsp, .inl h29⟩]
      · rw [if_neg fun hc => h30 hc.1, if_neg fun hc => h29 hc.1, if_neg fun hc => hc.2.elim h29 h30]

theorem imageLoaded_eq (h : ImageHeader) (blob : List Byte) (s : State) : imageLoaded h blob s =
    { s with
      ram := Memory.load (blob.take h.size) (imageBase h % Config.ramSize) s.ram
      regs := (imageLoaded h blob s).regs
      pc := h.pc0
      npc := h.pc0 + 4
      bds := false } := by
  unfold imageLoaded
  rw [withStackPointer_eq, writeReg_eq]

theorem imageLoaded_ram (h : ImageHeader) (blob : List Byte) (s : State) :
    (imageLoaded h blob s).ram = Memory.load (blob.take h.size) (imageBase h % 0x200000) s.ram := by
  rw [imageLoaded_eq]
  rfl

theorem gpr_imageLoaded (h : ImageHeader) (blob : List Byte) (s : State) (j : RegIdx) :
    (imageLoaded h blob s).gpr j = if h.spBase ≠ 0 ∧ (j = 29 ∨ j = 30) then h.spBase + h.spOff
      else if j = 28 then h.gp0 else s.gpr j := by
  rw [imageLoaded, gpr_withStackPointer, gpr_writeReg]
  exact if_congr Iff.rfl rfl (if_congr (and_iff_left (by decide)) rfl rfl)

/-- Settles O60: within the bounds the loader copies the blob, then writes `x[28]`, then the stack pointer
(`witness_ImageLoader`). -/
theorem imageLoader : Obligations.ImageLoader := by
  intro h blob s base
  have hbounds : ImageOutOfBounds h blob ↔
      0x800000 ≤ base ∨ 0x200000 < base % 0x200000 + h.size ∨ blob.length < h.size := by
    rw [ImageOutOfBounds, imageBase_eq]
  constructor
  · intro hbad
    by_cases hb : ImageOutOfBounds h blob
    · exact ⟨_, loadImage_out_of_bounds s hb⟩
    · refine ⟨_, loadImage_misaligned s hb ?_⟩
      rw [hbounds] at hb
      tauto
  · intro hwin hend hlen hpc hram
    have hwf : Memory.wfFrom 0 s.ram = true := Memory.wf_from hram
    have htake : (blob.take h.size).length = h.size := List.length_take_of_le hlen
    have hcopy : (imageLoaded h blob s).ram = Memory.load (blob.take h.size) (base % 0x200000) s.ram := by
      rw [imageLoaded_ram, imageBase_eq]
    refine ⟨imageLoaded h blob s, loadImage_accepted s (by rw [hbounds]; omega) hpc, ?_, fun j hj => ?_,
      fun q hq => ?_, ?_, fun hsp => ?_, fun j h28 hj => ?_⟩
    · rw [imageLoaded_ram]
      exact imageLoaded_eq h blob s
    · rw [hcopy, ← Memory.get_load_inside hwf (by omega), List.getElem?_take_of_lt hj]
    · rw [hcopy, Memory.get_load_outside hwf (by omega)]
    · rw [gpr_imageLoaded, if_neg fun hc => absurd hc.2 (by decide), if_pos rfl]
    · rw [gpr_imageLoaded, gpr_imageLoaded, if_pos ⟨hsp, .inl rfl⟩, if_pos ⟨hsp, .inr rfl⟩]
      exact ⟨rfl, rfl⟩
    · rw [gpr_imageLoaded, if_neg (by tauto), if_neg h28]

end Sys2Proof
end

section
/-! PROOFS. The words of the spec's Example lines (spec/40_alu_register.md to spec/45_coprocessor_system.md). -/

namespace Sys2Proof

/-- The round trip (R61), read from the word's side: to know what a word decodes to, encode the instruction. -/
theorem decodeWord_of_encode_eq {w : Word} {i : Instr} (hw : encode i = w) (hi : i.wf = true) : decodeWord w = i :=
  hw ▸ decodeWord_encode hi

/-- Settles O4: each word is the encoding of the well-formed instruction its example names. -/
theorem exampleWords : Obligations.ExampleWords := by
  refine ⟨?_, ?_, ?_, ?_, ?_, ?_, ?_, ?_, ?_, ?_, ?_, ?_, ?_, ?_, ?_, ?_⟩
  all_goals exact decodeWord_of_encode_eq (by decide) (by decide)

end Sys2Proof
end
